-- ==== Sys2Proof/Word.lean ====
section
/-!
DEFINITION. Sys2Proof/Word.lean: the word types of the block (00_scope.md R7, R9, R10).
Bit sequences are lists, first bit on the left (R9). Counts, lengths and weights are naturals (R8) and stand in the
state as `Nat`.
-/

namespace Sys2Proof

/-- A symbol or a buffer byte: SYM_W = 8 bits (R7). -/
abbrev Byte := BitVec 8

/-- One bit of a bit sequence (R9): `true` is 1. -/
abbrev Bit := Bool

/-- A host-visible scalar register: REG_W = 32 bits (R7). -/
abbrev Word := BitVec 32

/-- What the host port moves in one access: wide enough for the widest element, the 264-bit CT record (R89). -/
abbrev PortWord := BitVec 264

end Sys2Proof
end

