-- ==== Sys2Proof/Syntax.lean ====
section
/-!
DEFINITION. Sys2Proof/Syntax.lean: the command words, one constructor per row of spec/opcode_table.json
(30_encoding.md R80 to R82). The six commands have no operand: all operands are implicit (R83). A row of illegal words
leaves some bits free, so its constructor carries the whole word as written.
-/

namespace Sys2Proof

/-- The command words of R81 and the illegal words of R82. -/
inductive Instr where
  /-- NOP, word 0x00 (40_commands.md R104). -/
  | nop
  /-- COMPRESS, word 0x01 (40_commands.md R105). -/
  | compress
  /-- DECOMPRESS, word 0x02 (40_commands.md R107). -/
  | decompress
  /-- ENCODE, word 0x03 (40_commands.md R106). -/
  | encode
  /-- DECODE, word 0x04 (40_commands.md R108). -/
  | decode
  /-- CLEAR, word 0x05 (40_commands.md R109). -/
  | clear
  /-- ILLEGAL_OP6_7, words 0000011x (40_commands.md R110). -/
  | illegalOp67 (word : Byte)
  /-- ILLEGAL_BIT3, words 00001xxx (40_commands.md R110). -/
  | illegalBit3 (word : Byte)
  /-- ILLEGAL_BIT4, words 0001xxxx (40_commands.md R110). -/
  | illegalBit4 (word : Byte)
  /-- ILLEGAL_BIT5, words 001xxxxx (40_commands.md R110). -/
  | illegalBit5 (word : Byte)
  /-- ILLEGAL_BIT6, words 01xxxxxx (40_commands.md R110). -/
  | illegalBit6 (word : Byte)
  /-- ILLEGAL_BIT7, words 1xxxxxxx (40_commands.md R110). -/
  | illegalBit7 (word : Byte)
  deriving DecidableEq, Repr

end Sys2Proof
end

