-- ==== Sys2Proof/WellFormed.lean ====
section
/-!
DEFINITION. Sys2Proof/WellFormed.lean: which terms of `Instr` stand for a word of the opcode table: a word carried by
a constructor of an illegal row must lie in that row (its match and mask in spec/opcode_table.json).
-/

namespace Sys2Proof

/-- The `mask` of the constructor's row of spec/opcode_table.json: the bits the row fixes. -/
def Instr.rowMask : Instr → Byte
  | .nop => 0xFF
  | .compress => 0xFF
  | .decompress => 0xFF
  | .encode => 0xFF
  | .decode => 0xFF
  | .clear => 0xFF
  | .illegalOp67 _ => 0xFE
  | .illegalBit3 _ => 0xF8
  | .illegalBit4 _ => 0xF0
  | .illegalBit5 _ => 0xE0
  | .illegalBit6 _ => 0xC0
  | .illegalBit7 _ => 0x80

/-- The `match` of the constructor's row of spec/opcode_table.json: the values of the bits the row fixes. -/
def Instr.rowMatch : Instr → Byte
  | .nop => 0x00
  | .compress => 0x01
  | .decompress => 0x02
  | .encode => 0x03
  | .decode => 0x04
  | .clear => 0x05
  | .illegalOp67 _ => 0x06
  | .illegalBit3 _ => 0x08
  | .illegalBit4 _ => 0x10
  | .illegalBit5 _ => 0x20
  | .illegalBit6 _ => 0x40
  | .illegalBit7 _ => 0x80

/-- The check: a carried word agrees with its row on the row's fixed bits (R81, R82). -/
def Instr.wf (i : Instr) : Bool :=
  match i with
  | .nop => true
  | .compress => true
  | .decompress => true
  | .encode => true
  | .decode => true
  | .clear => true
  | .illegalOp67 w => w &&& i.rowMask == i.rowMatch
  | .illegalBit3 w => w &&& i.rowMask == i.rowMatch
  | .illegalBit4 w => w &&& i.rowMask == i.rowMatch
  | .illegalBit5 w => w &&& i.rowMask == i.rowMatch
  | .illegalBit6 w => w &&& i.rowMask == i.rowMatch
  | .illegalBit7 w => w &&& i.rowMask == i.rowMatch

end Sys2Proof
end

