-- ==== Sys2Proof/Decode.lean ====
section
/-!
DEFINITION. Sys2Proof/Decode.lean: the command word read (40_commands.md R100, 30_encoding.md R80 to R82) and written.
There is one length, 8 bits, and one format: ZERO = bits 7:3, OP = bits 2:0.
-/

namespace Sys2Proof

/-- Bits 7:3 of a command word (R80): 0 in a command. -/
def zeroField (w : Byte) : BitVec 5 := w.extractLsb' 3 5

/-- Bits 2:0 of a command word (R80): the operation. -/
def opField (w : Byte) : BitVec 3 := w.extractLsb' 0 3

/-- The six operations of R81; OP = 6 and OP = 7 are reserved (R82). -/
def decodeOp (w : Byte) : Instr :=
  if opField w = 0 then .nop
  else if opField w = 1 then .compress
  else if opField w = 2 then .decompress
  else if opField w = 3 then .encode
  else if opField w = 4 then .decode
  else if opField w = 5 then .clear
  else .illegalOp67 w

/-- The command a word spells (R100). Every word has one: a word with a bit of 7:3 set is in the row of its highest
set bit (R82; the rows of spec/opcode_table.json). -/
def decode (w : Byte) : Instr :=
  if zeroField w = 0 then decodeOp w
  else if w.getLsbD 7 then .illegalBit7 w
  else if w.getLsbD 6 then .illegalBit6 w
  else if w.getLsbD 5 then .illegalBit5 w
  else if w.getLsbD 4 then .illegalBit4 w
  else .illegalBit3 w

/-- Why bytes spell no command. -/
inductive DecodeError where
  /-- There is no byte to read. Safe: nothing is decoded. -/
  | noWord
  deriving DecidableEq, Repr

/-- The first command of a sequence of bytes, with the bytes after it; rejects the empty sequence by name. -/
def decodeBytes : List Byte → Except DecodeError (Instr × List Byte)
  | [] => .error .noWord
  | w :: rest => .ok (decode w, rest)

/-- The word of a command (R81); of an illegal word, the word itself. -/
def encode : Instr → Byte
  | .nop => 0x00
  | .compress => 0x01
  | .decompress => 0x02
  | .encode => 0x03
  | .decode => 0x04
  | .clear => 0x05
  | .illegalOp67 w => w
  | .illegalBit3 w => w
  | .illegalBit4 w => w
  | .illegalBit5 w => w
  | .illegalBit6 w => w
  | .illegalBit7 w => w

/-- The byte that holds the low `nbits` bits of `w`, every higher bit 0. A command is one byte, so it is the whole
instruction. -/
def tableWordByte (nbits w : Nat) : Byte := BitVec.ofNat 8 (w % 2 ^ nbits)

/-- What the decoder reads from the word `w` of a row of the opcode table. -/
def decodeTableWord (nbits w : Nat) : Option Instr :=
  match decodeBytes [tableWordByte nbits w] with
  | .ok (i, _) => some i
  | .error _ => none

end Sys2Proof
end

