-- ==== Sys2Proof/Config.lean ====
section
/-!
DEFINITION. Sys2Proof/Config.lean: the parameters of 00_scope.md R7 and the values the spec leaves free.
A parameter printed in R7's value column is a definition. The OPEN capacities are a structure the state carries
(DESIGN CHOICE, log 1). A free value is an opaque constant: nothing in Lean can evaluate it (log 4, log 7).
-/

namespace Sys2Proof

/-- NSYM_MAX: most distinct symbols (R7). -/
def Config.nsymMax : Nat := 256

/-- NODE_MAX: most tree nodes (R7). -/
def Config.nodeMax : Nat := 511

/-- DEPTH_MAX: greatest leaf depth, so the greatest length of a tree-derived code (R7). -/
def Config.depthMax : Nat := 255

/-- CODE_MAX: greatest code length a CT entry can hold (R7, D14). -/
def Config.codeMax : Nat := 255

/-- HDR_LEN: container header length in bytes (R7). -/
def Config.hdrLen : Nat := 2

/-- PAD_MAX: greatest legal pad_count (R7). -/
def Config.padMax : Nat := 7

/-- LZC_MAX: greatest leading_zero_count the header can hold (R7). -/
def Config.lzcMax : Nat := 255

/-- The OPEN capacities of R7: IN_MAX bytes, BS_MAX bits, OUT_MAX bytes. -/
structure Capacity where
  inMax : Nat
  bsMax : Nat
  outMax : Nat
  deriving DecidableEq, Repr

/-- The constraints R7 puts on the capacities. -/
abbrev Capacity.Ok (c : Capacity) : Prop :=
  2 ≤ c.inMax ∧ 255 * c.inMax ≤ c.bsMax ∧ c.bsMax < 2 ^ 32 - 8 ∧ c.bsMax ≤ c.outMax

/-- CNT_W: the least `w` with `2 ^ w > IN_MAX` (R7, D3). -/
def Capacity.cntW (c : Capacity) : Nat :=
  if c.inMax = 0 then 0 else Nat.log2 c.inMax + 1

/-- The capacities of the reset state. DESIGN CHOICE (log 1), unsafe: R7 leaves them open, so a statement about the
block takes the capacities from the state and uses at most `Capacity.Ok`. -/
def Config.capacity : Capacity := { inMax := 65536, bsMax := 16711680, outMax := 16711680 }

/-- The byte a host reads where the spec states none (93_implementation_defined.md U4, `any value`): one free value
for each draw. Safe: nothing is known of it (log 4). -/
opaque Config.freeByte : Nat → Byte

/-- The bit a host reads where the spec states none (U4). Safe: nothing is known of it (log 4). -/
opaque Config.freeBit : Nat → Bit

/-- The bit that an element of BS holds which lay at or beyond BS_LEN when a command ended: unspecified
(70_reset_and_hazards.md R273), so one free value for each such end and index. Safe: nothing is known of it (log 13). -/
opaque Config.staleBit : Nat → Nat → Bit

/-- How often a polling host reads STATUS, one read a step, before the next phase of the running command: the spec gives
no timing (70_reset_and_hazards.md R275). Safe: nothing is known of it (log 7). -/
opaque Config.pollReads : Nat → Nat

/-- Whether a pending STATUS read, or a pending reset, comes before the next phase of the running command: the spec
gives no timing (70_reset_and_hazards.md R275). Safe: nothing is known of it (log 7). -/
opaque Config.hostFirst : Nat → Bool

end Sys2Proof
end

