-- ==== Sys2Proof/Machine/State.lean ====
section
/-!
DEFINITION. Sys2Proof/Machine/State.lean: the state of the block (10_state.md R20 to R48), the reasons a step can
stop, and the state right after reset (R47, 70_reset_and_hazards.md R260).
-/

namespace Sys2Proof.Machine

/-- The errors of 10_state.md R37 and 60_exceptions.md R230. They are no fault of the model: raising one is a next
state (R240). -/
inductive CodecError where
  | emptyInput
  | headerOverflow
  | duplicateCode
  | incompleteCode
  | containerFormat
  | illegalCommand
  deriving DecidableEq, Repr

/-- The phases of 10_state.md R36: the block's program counter. The reserved codes 12 to 15 are never taken (U10). -/
inductive Phase where
  | idle
  | count
  | leaves
  | merge
  | derive
  | emit
  | padlzc
  | pack
  | header
  | unpack
  | invert
  | scan
  deriving DecidableEq, Repr

/-- The four commands that run through phases (40_commands.md R101, R111). -/
inductive Command where
  | compress
  | encode
  | decompress
  | decode
  deriving DecidableEq, Repr

/-- The address spaces of 20_memory.md R60, space 7 included. -/
inductive Space where
  /-- Space 0, REG. -/
  | reg
  /-- Space 1, IN. -/
  | input
  /-- Space 2, OUT. -/
  | output
  /-- Space 3, BS. -/
  | bits
  /-- Space 4, CT. -/
  | table
  /-- Space 5, FREQ. -/
  | freq
  /-- Space 6, NODE. -/
  | node
  /-- Space 7, reserved. -/
  | reserved
  deriving DecidableEq, Repr

/-- One statement of a host script (30_encoding.md R92, R93) and the reset input (70_reset_and_hazards.md R260).
The pseudo-statements of R93 whose expansion depends on no value read are lists of these (Machine/Script.lean). -/
inductive Statement where
  /-- HostRead(space, idx): RD, RDB, RDBIT, RDCT. -/
  | read (space : Space) (idx : Nat)
  /-- HostWrite(space, idx, v): WR, WRB, WRBIT, WRCT and CMD. -/
  | write (space : Space) (idx : Nat) (v : PortWord)
  /-- POLL: repeat RD STATUS until the value has DONE = 1. -/
  | poll
  /-- READ_OUT: RD OUT_LEN, then that many RDB OUT. -/
  | readOut
  /-- READ_BS: RD BS_LEN, then that many RDBIT BS. -/
  | readBs
  /-- The reset input is applied. -/
  | reset
  deriving DecidableEq, Repr

/-- A node id, 0 to 510 (10_state.md R39). -/
abbrev NodeId := Fin 511

/-- A NODE record (10_state.md R39). In an unallocated entry every field is 0. -/
structure Node where
  v : Bool
  leaf : Bool
  sym : Byte
  weight : Nat
  left : NodeId
  right : NodeId
  deriving DecidableEq, Repr

/-- A CT record (10_state.md R41, 30_encoding.md R89). -/
structure CtEntry where
  v : Bool
  len : BitVec 8
  code : BitVec 255
  deriving DecidableEq, Repr

/-- The FREQ file (10_state.md R38). -/
abbrev FreqFile := Vector Nat 256

/-- The NODE file (10_state.md R39). -/
abbrev NodeFile := Vector Node 511

/-- The CT file (10_state.md R41). -/
abbrev CodeTable := Vector CtEntry 256

/-- A NODE entry with every field 0 (10_state.md R47). -/
def Node.zero : Node := { v := false, leaf := false, sym := 0, weight := 0, left := 0, right := 0 }

/-- A CT entry with every field 0: the symbol has no code (10_state.md R47). -/
def CtEntry.zero : CtEntry := { v := false, len := 0, code := 0 }

/-- FREQ with every counter 0. -/
def FreqFile.zero : FreqFile := Vector.replicate 256 0

/-- NODE with every entry unallocated. -/
def NodeFile.zero : NodeFile := Vector.replicate 511 Node.zero

/-- CT with every entry invalid. -/
def CodeTable.zero : CodeTable := Vector.replicate 256 CtEntry.zero

/-- Why the model stops where the block has no next state. Each names a broken internal invariant: the rules show that
no run reaches one (93_implementation_defined.md part 1: nothing in this block is stuck). All are safe: a stop proves
nothing about the block (log 6). -/
inductive Fault where
  /-- ExtractMin, or the end of MERGE, with no live node (42_tree_builder.md R132: called only when one is live).
  Raised by LEAVES' successor MERGE. Safe. -/
  | noLiveNode
  /-- A node is allocated although all 511 entries are taken (42_tree_builder.md R138 bounds NNODES).
  Raised by LEAVES and MERGE. Safe. -/
  | arenaFull
  /-- The entries reachable from ROOT are no tree of depth at most 255 (42_tree_builder.md R140, 43_code_table_deriver.md
  R155). Raised by DERIVE. Safe. -/
  | brokenTree
  /-- EMIT meets a byte without a valid code (44_bit_packer.md R161: the lookup never misses). Raised by EMIT. Safe. -/
  | noCode
  deriving DecidableEq, Repr

/-- Why the model gives a host action no meaning (00_scope.md R14 `refused`; 93_implementation_defined.md). All but
`notModelled` are the spec's own refusals. -/
inductive Refusal where
  /-- An instruction without a meaning in the model. Raised by no arm: every instruction has one. Safe. -/
  | notModelled (mnemonic : String)
  /-- U1: a host access other than a read of STATUS while BUSY = 1. Raised by every command and by the host port. Safe. -/
  | busyAccess
  /-- U2: an index outside its space. Raised by the host port. Safe. -/
  | indexOutOfRange
  /-- U2: an access to space 7. Raised by the host port. Safe. -/
  | reservedSpace
  /-- U5: a register number above 15. Raised by the host port. Safe. -/
  | noSuchRegister
  /-- U6: a length above the buffer's capacity. Raised by the host port. Safe. -/
  | lengthAboveCapacity
  /-- U3: a command reads a buffer element nothing has written. Raised by the phases that read IN or BS. Safe. -/
  | unwrittenElement
  deriving DecidableEq, Repr

/-- The state of the block (10_state.md R20) with the parameters of 00_scope.md R7 and the model's own fields.
A buffer lists its written elements only, addresses strictly rising; an unlisted element holds no value (R48). -/
structure State where
  /-- IN_MAX, BS_MAX, OUT_MAX (00_scope.md R7); no step changes them. DESIGN CHOICE (log 1). -/
  cap : Capacity
  /-- IN (R21). -/
  inBuf : List Host.Cell
  /-- OUT (R22). -/
  outBuf : List Host.Cell
  /-- BS (R23). -/
  bsBuf : List (Nat × Bit)
  /-- The written elements of BS whose bits are unspecified (70_reset_and_hazards.md R273): the index, and the end of a
  command that made it so, indexes strictly rising. DESIGN CHOICE (log 13). -/
  bsStale : List (Nat × Nat)
  /-- STATUS.BUSY (R25). -/
  busy : Bool
  /-- STATUS.DONE (R25). -/
  done : Bool
  /-- STATUS.ERR (R25). -/
  err : Bool
  /-- STATUS.DEGEN (R25). -/
  degen : Bool
  /-- STATUS.ECODE (R37): `none` is code 0. -/
  ecode : Option CodecError
  /-- STATUS.PHASE (R36). -/
  phase : Phase
  /-- IN_LEN (R26). -/
  inLen : Nat
  /-- OUT_LEN (R27). -/
  outLen : Nat
  /-- BS_LEN (R28). -/
  bsLen : Nat
  /-- PAD (R29). -/
  pad : Nat
  /-- LZC (R30). -/
  lzc : Nat
  /-- TOTAL (R31). -/
  total : Nat
  /-- NSYM (R32). -/
  nsym : Nat
  /-- ROOT (R33). -/
  root : NodeId
  /-- NNODES (R34). -/
  nnodes : Nat
  /-- CAND (R35), the whole sequence. -/
  cand : List Bit
  /-- CAND_LEN (R35). -/
  candLen : Nat
  /-- FREQ (R38). -/
  freq : FreqFile
  /-- NODE (R39). -/
  node : NodeFile
  /-- PQ (R40): the ids whose live bit is 1, ascending (log 5). -/
  pq : List NodeId
  /-- CT (R41). -/
  ct : CodeTable
  /-- The command the sequencer is running (40_commands.md R111, 60_exceptions.md R240). DEDUCED (log 2). -/
  running : Option Command
  /-- The host's statements still to perform, oldest first (30_encoding.md R92). DESIGN CHOICE (log 3). -/
  script : List Statement
  /-- The values HostRead returned, oldest first (30_encoding.md R92). DESIGN CHOICE (log 3). -/
  reads : List PortWord
  /-- How often a polling host still reads STATUS before the next phase of the running command; `none` where that is not
  chosen yet. DESIGN CHOICE (log 7). -/
  pollsLeft : Option Nat
  /-- How many free values have been drawn. DESIGN CHOICE (log 4). -/
  tick : Nat
  /-- How many commands have ended. DESIGN CHOICE (log 13). -/
  ended : Nat
  deriving DecidableEq, Repr

/-- The block of the given capacities right after reset (R47): everything 0, no buffer element written. -/
def State.resetWith (cap : Capacity) : State where
  cap := cap
  inBuf := []
  outBuf := []
  bsBuf := []
  bsStale := []
  busy := false
  done := false
  err := false
  degen := false
  ecode := none
  phase := .idle
  inLen := 0
  outLen := 0
  bsLen := 0
  pad := 0
  lzc := 0
  total := 0
  nsym := 0
  root := 0
  nnodes := 0
  cand := []
  candLen := 0
  freq := FreqFile.zero
  node := NodeFile.zero
  pq := []
  ct := CodeTable.zero
  running := none
  script := []
  reads := []
  pollsLeft := none
  tick := 0
  ended := 0

/-- The machine right after reset (R47, R260); its capacities are log 1's. -/
def State.reset : State := State.resetWith Config.capacity

/-- What a step, a phase or a command answers. -/
abbrev Result := Host.Outcome State Fault Refusal

end Sys2Proof.Machine
end

