-- ==== Sys2Proof/Machine/Flags.lean ====
section
/-!
DEFINITION. Sys2Proof/Machine/Flags.lean: the STATUS register (10_state.md R25, R36, R37) and the three ways its flags
are written as a group: a command starts (40_commands.md R101), completes (R102), ends in a fault (60_exceptions.md
R240). DEGEN alone is written by EMIT (44_bit_packer.md R171).
-/

namespace Sys2Proof.Machine

/-- The PHASE code of a phase (R36). -/
def Phase.code : Phase → BitVec 4
  | .idle => 0
  | .count => 1
  | .leaves => 2
  | .merge => 3
  | .derive => 4
  | .emit => 5
  | .padlzc => 6
  | .pack => 7
  | .header => 8
  | .unpack => 9
  | .invert => 10
  | .scan => 11

/-- The ECODE of an error (R37). -/
def CodecError.code : CodecError → BitVec 4
  | .emptyInput => 1
  | .headerOverflow => 2
  | .duplicateCode => 3
  | .incompleteCode => 4
  | .containerFormat => 5
  | .illegalCommand => 6

/-- The ECODE field: 0 when there is no error (R37). -/
def ecodeField : Option CodecError → BitVec 4
  | none => 0
  | some e => e.code

/-- STATUS as read by the host (R25): PHASE in 11:8, ECODE in 7:4, DEGEN, ERR, DONE, BUSY in 3:0, 31:12 read 0. -/
def statusWord (s : State) : Word :=
  0#20 ++ s.phase.code ++ ecodeField s.ecode ++ BitVec.ofBool s.degen ++ BitVec.ofBool s.err ++
    BitVec.ofBool s.done ++ BitVec.ofBool s.busy

/-- The flags at the start of a command (R101): BUSY 1, all others 0. -/
def State.flagsStarted (s : State) : State :=
  { s with busy := true, done := false, err := false, degen := false, ecode := none }

/-- The flags at completion without error (R102): BUSY 0, DONE 1, PHASE IDLE; no command runs any more. -/
def State.flagsCompleted (s : State) : State :=
  { s with busy := false, done := true, phase := .idle, running := none }

/-- The flags after a fault (R240): ERR 1, ECODE its code, BUSY 0, DONE 1, PHASE IDLE; no command runs any more. -/
def State.flagsFaulted (s : State) (e : CodecError) : State :=
  { s with err := true, ecode := some e, busy := false, done := true, phase := .idle, running := none }

/-- STATUS.DEGEN at the end of EMIT (44_bit_packer.md R171): 1 exactly when NSYM = 1. -/
def State.flagDegen (s : State) : State :=
  { s with degen := s.nsym == 1 }

end Sys2Proof.Machine
end

