-- ==== Sys2Proof/Machine/Ops.lean ====
section
/-!
DEFINITION. Sys2Proof/Machine/Ops.lean: the named operations over buffers, bits, register files and the live set
(00_scope.md R9 to R11, 20_memory.md R77), acceptance and start of a command (40_commands.md R100, R101), completion
(R102), and taking an error (60_exceptions.md R240), once for all.
-/

namespace Sys2Proof.Machine

/-! ### Buffers -/

/-- The element of a buffer at an index; `none` where it holds no value (10_state.md R48). -/
def bufRead {α : Type} (buf : List (Nat × α)) (idx : Nat) : Option α :=
  match buf.find? (fun c => c.1 == idx) with
  | some c => some c.2
  | none => none

/-- The elements of a sequence at consecutive indexes from `idx`. -/
def cellsFrom {α : Type} (idx : Nat) : List α → List (Nat × α)
  | [] => []
  | v :: vs => (idx, v) :: cellsFrom (idx + 1) vs

/-- MemRead(space, idx, n) of 20_memory.md R77: the `n` elements from `idx`, in order; `none` if one of them holds no
value (10_state.md R48). -/
def memRead {α : Type} (buf : List (Nat × α)) (idx n : Nat) : Option (List α) :=
  let run := buf.filter (fun c => idx ≤ c.1 ∧ c.1 < idx + n)
  if run.map Prod.fst = List.range' idx n then some (run.map Prod.snd) else none

/-- MemWrite(space, idx, n, v) of 20_memory.md R77: the elements from `idx` become those of `vs`, nothing else
changes. -/
def memWrite {α : Type} (buf : List (Nat × α)) (idx : Nat) (vs : List α) : List (Nat × α) :=
  buf.filter (fun c => c.1 < idx) ++ cellsFrom idx vs ++ buf.filter (fun c => idx + vs.length ≤ c.1)

/-- The canonical form of a buffer: addresses strictly rising. An unlisted element holds no value, so no listed
element can equal what an unlisted one reads as. -/
def bufWf {α : Type} (buf : List (Nat × α)) : Bool :=
  match buf with
  | [] => true
  | c :: rest => (rest.all fun d => c.1 < d.1) && bufWf rest

/-- The three buffers are in canonical form, and so is the record of the unspecified elements of BS. -/
def Memory.wf (s : State) : Bool := bufWf s.inBuf && bufWf s.outBuf && bufWf s.bsBuf && bufWf s.bsStale

/-! ### BS and its unspecified elements (10_state.md R23, R48, 70_reset_and_hazards.md R273) -/

/-- What an element of BS with content `b` holds: a free bit where it is recorded as unspecified (R273), else `b`. -/
def heldBit (stale : List (Nat × Nat)) (idx : Nat) (b : Bit) : Bit :=
  match bufRead stale idx with
  | some draw => Config.staleBit draw idx
  | none => b

/-- What the written elements of BS hold. -/
def heldBits (buf : List (Nat × Bit)) (stale : List (Nat × Nat)) : List (Nat × Bit) :=
  buf.map fun c => (c.1, heldBit stale c.1 c.2)

/-- MemWrite to BS (20_memory.md R77), by the host or by a command: the elements written hold what was written. -/
def State.writeBits (s : State) (idx : Nat) (vs : List Bit) : State :=
  { s with
    bsBuf := memWrite s.bsBuf idx vs
    bsStale := s.bsStale.filter fun c => c.1 < idx ∨ idx + vs.length ≤ c.1 }

/-- R273, at the end of a command: the elements of BS at or beyond BS_LEN hold unspecified values from now on. Their
contents stay where they are (40_commands.md R101, R109). An element no one has written still holds no value (R48). OUT
needs no record: nothing but the host reads it, and at or beyond OUT_LEN that read is unspecified by itself (R48). -/
def State.markStale (s : State) : State :=
  { s with
    bsStale := (s.bsStale.filter fun c => c.1 < s.bsLen) ++
      (s.bsBuf.filter fun c => s.bsLen ≤ c.1).map fun c => (c.1, s.ended)
    ended := s.ended + 1 }

/-! ### Bit sequences (00_scope.md R9, R10) -/

/-- `val(s)`: a bit sequence as a number, most significant bit first. -/
def bitsVal : List Bit → Nat
  | [] => 0
  | b :: rest => b.toNat * 2 ^ rest.length + bitsVal rest

/-- `bits_n(v)`: the `n` bits of `v`, most significant first. -/
def bitsOf : Nat → Nat → List Bit
  | 0, _ => []
  | n + 1, v => v.testBit n :: bitsOf n v

/-- The eight bits of a byte, most significant first (20_memory.md R62). -/
def byteBits (b : Byte) : List Bit := bitsOf 8 b.toNat

/-! ### Symbols and register files -/

/-- Every symbol in ascending order, 0 to 255. -/
def allSymbols : List Byte := (List.range 256).map (BitVec.ofNat 8)

/-- `FREQ[s]`. -/
def FreqFile.at (f : FreqFile) (s : Byte) : Nat := f[s.toNat]'s.isLt

/-- `FREQ[s] <- FREQ[s] + 1` (41_frequency_counter.md R120). -/
def FreqFile.bump (f : FreqFile) (s : Byte) : FreqFile := f.set s.toNat (f.at s + 1) s.isLt

/-- `CT[s]`. -/
def CodeTable.at (tbl : CodeTable) (s : Byte) : CtEntry := tbl[s.toNat]'s.isLt

/-- `CT[s] <- e`. -/
def CodeTable.put (tbl : CodeTable) (s : Byte) (e : CtEntry) : CodeTable := tbl.set s.toNat e s.isLt

/-- `NODE[i]`. -/
def NodeFile.at (n : NodeFile) (i : NodeId) : Node := n[i.val]'i.isLt

/-- `NODE[i] <- r`. -/
def NodeFile.put (n : NodeFile) (i : NodeId) (r : Node) : NodeFile := n.set i.val r i.isLt

/-! ### The live set PQ (10_state.md R40), as the ascending list of the ids whose bit is 1 -/

/-- `PQ[i] <- 1`. -/
def pqSet : List NodeId → NodeId → List NodeId
  | [], i => [i]
  | j :: rest, i => if i < j then i :: j :: rest else if i = j then j :: rest else j :: pqSet rest i

/-- `PQ[i] <- 0`. -/
def pqClear (pq : List NodeId) (i : NodeId) : List NodeId := pq.filter (fun j => j != i)

/-! ### The tree under construction: NODE, PQ and NNODES together (42_tree_builder.md) -/

/-- The part of the state the Tree Builder works on. -/
structure Forest where
  node : NodeFile
  pq : List NodeId
  nnodes : Nat
  deriving DecidableEq, Repr

/-- NODE, PQ and NNODES of a state. -/
def State.forest (s : State) : Forest := { node := s.node, pq := s.pq, nnodes := s.nnodes }

/-- The state with NODE, PQ and NNODES replaced. -/
def State.setForest (s : State) (t : Forest) : State :=
  { s with node := t.node, pq := t.pq, nnodes := t.nnodes }

/-- The empty forest a command starts from (40_commands.md R101). -/
def Forest.empty : Forest := { node := NodeFile.zero, pq := [], nnodes := 0 }

/-- Allocate and insert a node (42_tree_builder.md R130, R133): the new node's id is NNODES, its live bit is set,
NNODES goes up by one. -/
def Forest.insert (t : Forest) (n : Node) : Except Fault Forest :=
  if h : t.nnodes < 511 then
    .ok { node := t.node.put ⟨t.nnodes, h⟩ n, pq := pqSet t.pq ⟨t.nnodes, h⟩, nnodes := t.nnodes + 1 }
  else .error .arenaFull

/-! ### Command start, completion, error (40_commands.md R100 to R103, 60_exceptions.md R240) -/

/-- Acceptance (R100): a command is accepted only while BUSY = 0; a write to CMD while BUSY = 1 is refused (R113). -/
def acceptCommand (s : State) (next : State) : Result :=
  if s.busy then .refused .busyAccess else .next next

/-- What the start of every one of the four commands clears (R101): flags, OUT_LEN, PAD, LZC, CAND, CAND_LEN. -/
def clearResults (s : State) : State :=
  { s.flagsStarted with outLen := 0, pad := 0, lzc := 0, cand := [], candLen := 0 }

/-- What the start of COMPRESS and ENCODE clears besides (R101): FREQ, CT, NODE, PQ, NNODES, ROOT, NSYM, TOTAL,
BS_LEN. -/
def clearTree (s : State) : State :=
  { s with freq := FreqFile.zero, ct := CodeTable.zero, node := NodeFile.zero, pq := [], nnodes := 0, root := 0,
           nsym := 0, total := 0, bsLen := 0 }

/-- The start of COMPRESS or ENCODE (R101). -/
def startEncoder (c : Command) (s : State) : State :=
  { clearTree (clearResults s) with running := some c, phase := .count }

/-- The start of DECOMPRESS (R101). -/
def startDecompress (s : State) : State :=
  { clearResults s with bsLen := 0, running := some .decompress, phase := .header }

/-- The start of DECODE (R101). -/
def startDecode (s : State) : State :=
  { clearResults s with running := some .decode, phase := .invert }

/-- Completion without error (R102). -/
def completeCommand (s : State) : State := s.flagsCompleted.markStale

/-- Taking an error (60_exceptions.md R240) in the running command `c` (`none`: no command is running): the flags,
OUT_LEN <- 0, and the outputs of the command made empty; nothing else changes, but that the buffer contents beyond the
lengths are unspecified once a command is over (70_reset_and_hazards.md R273). -/
def raiseError (c : Option Command) (e : CodecError) (s : State) : State :=
  let t := { s.flagsFaulted e with outLen := 0 }
  match c with
  | some .compress => State.markStale { t with bsLen := 0, ct := CodeTable.zero }
  | some .encode => State.markStale { t with bsLen := 0, ct := CodeTable.zero }
  | some .decompress => State.markStale { t with bsLen := 0 }
  | some .decode => t.markStale
  | none => t

/-- IllegalCommandError (40_commands.md R110, R240): raised with no command running, and DEGEN <- 0. -/
def raiseIllegalCommand (s : State) : State :=
  { raiseError none .illegalCommand s with degen := false }

/-- Every register and register file at its reset value, the buffer contents kept (40_commands.md R109); with BS_LEN 0
every element of BS lies beyond the length (70_reset_and_hazards.md R273). -/
def clearState (s : State) : State :=
  State.markStale { State.resetWith s.cap with
    inBuf := s.inBuf, outBuf := s.outBuf, bsBuf := s.bsBuf, bsStale := s.bsStale, script := s.script,
    reads := s.reads, pollsLeft := s.pollsLeft, tick := s.tick, ended := s.ended }

/-- The reset input applied (70_reset_and_hazards.md R260, R262): every piece of the block's state at its reset value;
the host keeps its script, what it has read and its polling, and the counts of free values go on. -/
def applyReset (s : State) : State :=
  { State.resetWith s.cap with
    script := s.script, reads := s.reads, pollsLeft := s.pollsLeft, tick := s.tick, ended := s.ended }

end Sys2Proof.Machine
end

