-- ==== Sys2Proof/Machine/Commands.lean ====
section
/-!
DEFINITION. Sys2Proof/Machine/Commands.lean: the meaning of each command word when it is written to CMD
(40_commands.md R100, R104 to R110). A command that runs through phases is started here (R101); the sequencer then runs
its phases, one a step (Machine/Sequencer.lean; 00_scope.md R6). Written while BUSY = 1, every one is refused (R113).
-/

namespace Sys2Proof.Machine

/-- NOP (R104): nothing changes. -/
def execNop (s : State) : Result := acceptCommand s s

/-- COMPRESS (R105): the start; its first phase is COUNT. -/
def execCompress (s : State) : Result := acceptCommand s (startEncoder .compress s)

/-- DECOMPRESS (R107): the start; its first phase is HEADER. -/
def execDecompress (s : State) : Result := acceptCommand s (startDecompress s)

/-- ENCODE (R106): the start; its first phase is COUNT. -/
def execEncode (s : State) : Result := acceptCommand s (startEncoder .encode s)

/-- DECODE (R108): the start; its first phase is INVERT. -/
def execDecode (s : State) : Result := acceptCommand s (startDecode s)

/-- CLEAR (R109): completes within the CMD write, with DONE = 0. -/
def execClear (s : State) : Result := acceptCommand s (clearState s)

/-- ILLEGAL_OP6_7 (R110): takes IllegalCommandError, whatever the word. -/
def execIllegalOp67 (_word : Byte) (s : State) : Result := acceptCommand s (raiseIllegalCommand s)

/-- ILLEGAL_BIT3 (R110): takes IllegalCommandError, whatever the word. -/
def execIllegalBit3 (_word : Byte) (s : State) : Result := acceptCommand s (raiseIllegalCommand s)

/-- ILLEGAL_BIT4 (R110): takes IllegalCommandError, whatever the word. -/
def execIllegalBit4 (_word : Byte) (s : State) : Result := acceptCommand s (raiseIllegalCommand s)

/-- ILLEGAL_BIT5 (R110): takes IllegalCommandError, whatever the word. -/
def execIllegalBit5 (_word : Byte) (s : State) : Result := acceptCommand s (raiseIllegalCommand s)

/-- ILLEGAL_BIT6 (R110): takes IllegalCommandError, whatever the word. -/
def execIllegalBit6 (_word : Byte) (s : State) : Result := acceptCommand s (raiseIllegalCommand s)

/-- ILLEGAL_BIT7 (R110): takes IllegalCommandError, whatever the word. -/
def execIllegalBit7 (_word : Byte) (s : State) : Result := acceptCommand s (raiseIllegalCommand s)

end Sys2Proof.Machine
end

