-- ==== Sys2Proof/Machine/Dispatch.lean ====
section
/-! DEFINITION. Sys2Proof/Machine/Dispatch.lean: one arm per command word (30_encoding.md R81, R82). -/

namespace Sys2Proof.Machine

open Sys2Proof

/-- The meaning of a command word written to CMD (40_commands.md R100). -/
def exec (i : Instr) (s : State) : Host.Outcome State Fault Refusal :=
  match i with
  | .nop => Sys2Proof.Machine.execNop s
  | .compress => Sys2Proof.Machine.execCompress s
  | .decompress => Sys2Proof.Machine.execDecompress s
  | .encode => Sys2Proof.Machine.execEncode s
  | .decode => Sys2Proof.Machine.execDecode s
  | .clear => Sys2Proof.Machine.execClear s
  | .illegalOp67 w => Sys2Proof.Machine.execIllegalOp67 w s
  | .illegalBit3 w => Sys2Proof.Machine.execIllegalBit3 w s
  | .illegalBit4 w => Sys2Proof.Machine.execIllegalBit4 w s
  | .illegalBit5 w => Sys2Proof.Machine.execIllegalBit5 w s
  | .illegalBit6 w => Sys2Proof.Machine.execIllegalBit6 w s
  | .illegalBit7 w => Sys2Proof.Machine.execIllegalBit7 w s

end Sys2Proof.Machine
end

