-- ==== Sys2Proof/Machine/Operands.lean ====
section
/-!
DEFINITION. Sys2Proof/Machine/Operands.lean: the implicit operands of the commands (30_encoding.md R83), the code held
by a CT entry (R88), the records as words of the host port (R89, R90), and the scalar registers by number
(10_state.md R45).
-/

namespace Sys2Proof.Machine

/-- `MemRead(IN, 0, IN_LEN)`: the input bytes of COMPRESS and ENCODE, the container of DECOMPRESS. -/
def inputBytes (s : State) : Option (List Byte) := memRead s.inBuf 0 s.inLen

/-- `MemRead(BS, 0, BS_LEN)`: the bitstream. -/
def bitstream (s : State) : Option (List Bit) := memRead (heldBits s.bsBuf s.bsStale) 0 s.bsLen

/-- The code of a CT entry: `bits_LEN(CODE mod 2^LEN)` (30_encoding.md R88). -/
def codeBits (e : CtEntry) : List Bit := bitsOf e.len.toNat (e.code.toNat % 2 ^ e.len.toNat)

/-- The entry that holds a code: `LEN = |code|`, `CODE = val(code)`, valid (30_encoding.md R88). -/
def entryOfCode (c : List Bit) : CtEntry :=
  { v := true, len := BitVec.ofNat 8 c.length, code := BitVec.ofNat 255 (bitsVal c) }

/-- The CT record as one 264-bit word (30_encoding.md R89): V in 263, LEN in 262:255, CODE in 254:0. -/
def packEntry (e : CtEntry) : PortWord := BitVec.ofBool e.v ++ e.len ++ e.code

/-- The CT record of a 264-bit word (30_encoding.md R89). -/
def unpackEntry (w : PortWord) : CtEntry :=
  { v := w.getLsbD 263, len := w.extractLsb' 255 8, code := w.extractLsb' 0 255 }

/-- The NODE record as one word of `28 + CNT_W` bits (30_encoding.md R90), from the top: V, LEAF, SYM, WEIGHT, LEFT,
RIGHT. -/
def packNode (cntW : Nat) (n : Node) : BitVec (1 + 1 + 8 + cntW + 9 + 9) :=
  BitVec.ofBool n.v ++ BitVec.ofBool n.leaf ++ n.sym ++ BitVec.ofNat cntW n.weight ++
    BitVec.ofNat 9 n.left.val ++ BitVec.ofNat 9 n.right.val

/-- A bit as the host port moves it. -/
def packBit (b : Bit) : PortWord := (BitVec.ofBool b).setWidth 264

/-- The value of a scalar register as read by the host (10_state.md R45), zero-extended to 32 bits; CMD and registers
12 to 15 read 0; `none` above 15 (U5). -/
def readReg (s : State) (n : Nat) : Option Word :=
  match n with
  | 0 => some 0
  | 1 => some (statusWord s)
  | 2 => some (BitVec.ofNat 32 s.inLen)
  | 3 => some (BitVec.ofNat 32 s.outLen)
  | 4 => some (BitVec.ofNat 32 s.bsLen)
  | 5 => some (BitVec.ofNat 32 s.pad)
  | 6 => some (BitVec.ofNat 32 s.lzc)
  | 7 => some (BitVec.ofNat 32 s.total)
  | 8 => some (BitVec.ofNat 32 s.nsym)
  | 9 => some (BitVec.ofNat 32 s.root.val)
  | 10 => some (BitVec.ofNat 32 s.nnodes)
  | 11 => some (BitVec.ofNat 32 s.candLen)
  | 12 => some 0
  | 13 => some 0
  | 14 => some 0
  | 15 => some 0
  | _ => none

end Sys2Proof.Machine
end

