-- ==== Sys2Proof/Machine/HostPort.lean ====
section
/-!
DEFINITION. Sys2Proof/Machine/HostPort.lean: HostRead and HostWrite (40_commands.md R114, 20_memory.md R60, R67).
-/

namespace Sys2Proof.Machine

/-- What HostRead answers. It changes no state (R114). -/
inductive ReadAnswer where
  /-- The element, as the host port moves it. -/
  | value (v : PortWord)
  /-- A byte the spec states no value for (U4). -/
  | anyByte
  /-- A bit the spec states no value for (U4). -/
  | anyBit
  /-- The access has no meaning (U1, U2, U5). -/
  | refused (r : Refusal)
  deriving DecidableEq, Repr

/-- A byte element, or any byte where it holds no value (10_state.md R48). -/
def byteAnswer : Option Byte → ReadAnswer
  | some b => .value (b.setWidth 264)
  | none => .anyByte

/-- A bit element, or any bit where it holds no value (10_state.md R48). -/
def bitAnswer : Option Bit → ReadAnswer
  | some b => .value (packBit b)
  | none => .anyBit

/-- HostRead while BUSY = 0 (R114). -/
def readElement (s : State) (sp : Space) (idx : Nat) : ReadAnswer :=
  match sp with
  | .reg =>
    match readReg s idx with
    | some w => .value (w.setWidth 264)
    | none => .refused .noSuchRegister
  | .input => if idx < s.cap.inMax then byteAnswer (bufRead s.inBuf idx) else .refused .indexOutOfRange
  | .output =>
    if idx < s.cap.outMax then
      if idx < s.outLen then byteAnswer (bufRead s.outBuf idx) else .anyByte
    else .refused .indexOutOfRange
  | .bits =>
    if idx < s.cap.bsMax then
      if idx < s.bsLen then bitAnswer (bufRead (heldBits s.bsBuf s.bsStale) idx) else .anyBit
    else .refused .indexOutOfRange
  | .table => if h : idx < 256 then .value (packEntry s.ct[idx]) else .refused .indexOutOfRange
  | .freq => if h : idx < 256 then .value (BitVec.ofNat 264 s.freq[idx]) else .refused .indexOutOfRange
  | .node =>
    if h : idx < 511 then .value ((packNode s.cap.cntW s.node[idx]).setWidth 264) else .refused .indexOutOfRange
  | .reserved => .refused .reservedSpace

/-- HostRead(space, idx) (R114): while BUSY = 1 only STATUS may be read (10_state.md R46). -/
def hostRead (s : State) (sp : Space) (idx : Nat) : ReadAnswer :=
  if s.busy then
    if sp = .reg ∧ idx = 1 then .value ((statusWord s).setWidth 264) else .refused .busyAccess
  else readElement s sp idx

/-- A value returned to the host (30_encoding.md R92). -/
def returnRead (s : State) (v : PortWord) : State := { s with reads := s.reads ++ [v] }

/-- A read statement performed: the value is returned to the host; where the spec states none, a fresh free value. -/
def performRead (s : State) (sp : Space) (idx : Nat) : Result :=
  match hostRead s sp idx with
  | .value v => .next (returnRead s v)
  | .anyByte => .next (returnRead { s with tick := s.tick + 1 } ((Config.freeByte s.tick).setWidth 264))
  | .anyBit => .next (returnRead { s with tick := s.tick + 1 } (packBit (Config.freeBit s.tick)))
  | .refused r => .refused r

/-- HostWrite of a register other than CMD, while BUSY = 0 (R114, 10_state.md R45): IN_LEN and BS_LEN within their
capacity; a read-only or reserved register ignores the write. -/
def writeReg (s : State) (n : Nat) (v : PortWord) : Result :=
  if n = 2 then
    if v.toNat ≤ s.cap.inMax then .next { s with inLen := v.toNat } else .refused .lengthAboveCapacity
  else if n = 4 then
    if v.toNat ≤ s.cap.bsMax then .next { s with bsLen := v.toNat } else .refused .lengthAboveCapacity
  else if n < 16 then .next s
  else .refused .noSuchRegister

/-- HostWrite of anything but CMD, while BUSY = 0 (R114): writes to OUT, FREQ and NODE are ignored (20_memory.md R60). -/
def writeElement (s : State) (sp : Space) (idx : Nat) (v : PortWord) : Result :=
  match sp with
  | .reg => writeReg s idx v
  | .input =>
    if idx < s.cap.inMax then .next { s with inBuf := memWrite s.inBuf idx [v.setWidth 8] }
    else .refused .indexOutOfRange
  | .output => if idx < s.cap.outMax then .next s else .refused .indexOutOfRange
  | .bits =>
    if idx < s.cap.bsMax then .next (s.writeBits idx [v.getLsbD 0])
    else .refused .indexOutOfRange
  | .table =>
    if h : idx < 256 then .next { s with ct := s.ct.set idx (unpackEntry v) } else .refused .indexOutOfRange
  | .freq => if idx < 256 then .next s else .refused .indexOutOfRange
  | .node => if idx < 511 then .next s else .refused .indexOutOfRange
  | .reserved => .refused .reservedSpace

/-- The command word of a value written to CMD: its bits 7:0 (R100; bits 31:8 are ignored, 30_encoding.md R80). -/
def commandWord (v : PortWord) : Byte := v.setWidth 8

/-- HostWrite(space, idx, v) (R114): a write to CMD runs the command its word spells (R100). -/
def hostWrite (s : State) (sp : Space) (idx : Nat) (v : PortWord) : Result :=
  if sp = .reg ∧ idx = 0 then exec (Sys2Proof.decode (commandWord v)) s
  else if s.busy then .refused .busyAccess
  else writeElement s sp idx v

end Sys2Proof.Machine
end

