-- ==== Sys2Proof/Machine/Script.lean ====
section
/-!
DEFINITION. Sys2Proof/Machine/Script.lean: the statements and pseudo-statements of a host script as lists of
`Statement` (30_encoding.md R92, R93). READ_OUT and READ_BS are statements of their own, since their expansion depends
on a value read.
-/

namespace Sys2Proof.Machine

/-- `WR reg, v`, by register number (10_state.md R45). -/
def scriptWr (reg v : Nat) : Statement := .write .reg reg (BitVec.ofNat 264 v)

/-- `RD reg`, by register number. -/
def scriptRd (reg : Nat) : Statement := .read .reg reg

/-- `WRB IN, i, b`. -/
def scriptWrb (i : Nat) (b : Byte) : Statement := .write .input i (b.setWidth 264)

/-- `WRBIT BS, i, b`. -/
def scriptWrbit (i : Nat) (b : Bit) : Statement := .write .bits i (packBit b)

/-- `WRCT s, v, len, code`. -/
def scriptWrct (s : Byte) (e : CtEntry) : Statement := .write .table s.toNat (packEntry e)

/-- `CMD name`: a write of the command's word to CMD. -/
def scriptCmd (i : Instr) : Statement := .write .reg 0 ((Sys2Proof.encode i).setWidth 264)

/-- `RUN name`. -/
def scriptRun (i : Instr) : List Statement := [scriptCmd i, .poll]

/-- WRB statements from an index on. -/
def wrbFrom (i : Nat) : List Byte → List Statement
  | [] => []
  | b :: rest => scriptWrb i b :: wrbFrom (i + 1) rest

/-- `LOAD_IN b0 ... b(n-1)`. -/
def scriptLoadIn (bytes : List Byte) : List Statement := wrbFrom 0 bytes ++ [scriptWr 2 bytes.length]

/-- WRBIT statements from an index on. -/
def wrbitFrom (i : Nat) : List Bit → List Statement
  | [] => []
  | b :: rest => scriptWrbit i b :: wrbitFrom (i + 1) rest

/-- `LOAD_BS "bits"`. -/
def scriptLoadBs (bits : List Bit) : List Statement := wrbitFrom 0 bits ++ [scriptWr 4 bits.length]

/-- The code a list of pairs gives a symbol. -/
def listedCode : List (Byte × List Bit) → Byte → Option (List Bit)
  | [], _ => none
  | (t, c) :: rest, s => if t = s then some c else listedCode rest s

/-- `LOAD_CT {s: "code", ...}`: the unlisted symbols made invalid, then the listed ones written, each group in
ascending symbol order. -/
def scriptLoadCt (pairs : List (Byte × List Bit)) : List Statement :=
  (allSymbols.filter fun s => (listedCode pairs s).isNone).map (fun s => scriptWrct s CtEntry.zero) ++
    allSymbols.filterMap fun s => (listedCode pairs s).map fun c => scriptWrct s (entryOfCode c)

/-- `READ_CT`. -/
def scriptReadCt : List Statement := (List.range 256).map fun i => .read .table i

/-- `RDB OUT, 0 ... RDB OUT, n-1`: the rest of READ_OUT once OUT_LEN is read. -/
def rdbOut (n : Nat) : List Statement := (List.range n).map fun i => .read .output i

/-- `RDBIT BS, 0 ... RDBIT BS, n-1`: the rest of READ_BS once BS_LEN is read. -/
def rdbitBs (n : Nat) : List Statement := (List.range n).map fun i => .read .bits i

end Sys2Proof.Machine
end

