-- ==== Sys2Proof/Machine/BitPacker.lean ====
section
/-!
DEFINITION. Sys2Proof/Machine/BitPacker.lean: the EMIT, PADLZC and PACK phases (44_bit_packer.md).
-/

namespace Sys2Proof.Machine

/-- The concatenation of the codes of the bytes, in order (R160); `none` where a byte has no valid entry (R161). -/
def encodeSymbols (c : CodeTable) : List Byte → Option (List Bit)
  | [] => some []
  | b :: rest =>
    if (c.at b).v then
      match encodeSymbols c rest with
      | some bits => some (codeBits (c.at b) ++ bits)
      | none => none
    else none

/-- What follows EMIT (R160): PADLZC for COMPRESS, completion for ENCODE. -/
def afterEmit (s : State) : State :=
  if s.running = some .compress then { s with phase := .padlzc } else completeCommand s

/-- EMIT (R160, R171): appends the codes to BS, BS_LEN goes up by their length, DEGEN is set. -/
def phaseEmit (s : State) : Result :=
  match inputBytes s with
  | none => .refused .unwrittenElement
  | some bytes =>
    match encodeSymbols s.ct bytes with
    | none => .fault .noCode
    | some bits =>
      .next (afterEmit (State.flagDegen { s.writeBits s.bsLen bits with bsLen := s.bsLen + bits.length }))

/-- The pad count of a bit length (R162). -/
def padCount (len : Nat) : Nat := if len % 8 = 0 then 0 else 8 - len % 8

/-- The padded bitstream P (R162). -/
def padBits (bits : List Bit) : List Bit := bits ++ List.replicate (padCount bits.length) false

/-- The leading-zero count of a bit sequence (R163): the index of its first 1, or its length when it has none. -/
def leadingZeros : List Bit → Nat
  | [] => 0
  | true :: _ => 0
  | false :: rest => leadingZeros rest + 1

/-- The bytes of a bit sequence of whole bytes, most significant bit first (R165). -/
def packBytes : List Bit → List Byte
  | b7 :: b6 :: b5 :: b4 :: b3 :: b2 :: b1 :: b0 :: rest =>
    BitVec.ofNat 8 (bitsVal [b7, b6, b5, b4, b3, b2, b1, b0]) :: packBytes rest
  | _ => []

/-- PADLZC (R162 to R164): PAD and LZC are computed; HeaderOverflowError when LZC > 255. -/
def phasePadlzc (s : State) : Result :=
  match bitstream s with
  | none => .refused .unwrittenElement
  | some bits =>
    let s1 := { s with pad := padCount bits.length, lzc := leadingZeros (padBits bits) }
    if Config.lzcMax < s1.lzc then .next (raiseError s.running .headerOverflow s1)
    else .next { s1 with phase := .pack }

/-- The container bytes (R165, R166). -/
def containerBytes (pad lzc : Nat) (bits : List Bit) : List Byte :=
  BitVec.ofNat 8 pad :: BitVec.ofNat 8 lzc :: packBytes (padBits bits)

/-- PACK (R165, R166): OUT and OUT_LEN are written, the command completes. -/
def phasePack (s : State) : Result :=
  match bitstream s with
  | none => .refused .unwrittenElement
  | some bits =>
    let out := containerBytes s.pad s.lzc bits
    .next (completeCommand { s with outBuf := memWrite s.outBuf 0 out, outLen := out.length })

/-- The packer as a function of the bitstream alone (R170). -/
def packBits (bits : List Bit) : Except CodecError (List Byte) :=
  if Config.lzcMax < leadingZeros (padBits bits) then .error .headerOverflow
  else .ok (containerBytes (padCount bits.length) (leadingZeros (padBits bits)) bits)

end Sys2Proof.Machine
end

