-- ==== Sys2Proof/Machine/BitUnpacker.lean ====
section
/-!
DEFINITION. Sys2Proof/Machine/BitUnpacker.lean: the HEADER and UNPACK phases (45_bit_unpacker.md).
-/

namespace Sys2Proof.Machine

/-- HEADER (R180, R181): PAD and LZC are read; ContainerFormatError when there is no header or PAD > 7. -/
def phaseHeader (s : State) : Result :=
  match inputBytes s with
  | none => .refused .unwrittenElement
  | some (b0 :: b1 :: _) =>
    let s1 := { s with pad := b0.toNat, lzc := b1.toNat }
    if Config.padMax < s1.pad then .next (raiseError s.running .containerFormat s1)
    else .next { s1 with phase := .unpack }
  | some _ => .next (raiseError s.running .containerFormat s)

/-- The payload as bits (R182). -/
def payloadBits (payload : List Byte) : List Bit := payload.flatMap byteBits

/-- The minimal binary string (R183, R185): every leading zero removed; empty when there is no 1 bit. -/
def minimalBits : List Bit → List Bit
  | [] => []
  | true :: rest => true :: rest
  | false :: rest => minimalBits rest

/-- Steps 3 and 4 (R184): drop the padding, restore the leading zeros; `none` where there are too few bits to drop. -/
def restoreBits (pad lzc : Nat) (t : List Bit) : Option (List Bit) :=
  if t ≠ [] ∧ t.length < pad then none
  else
    let r := List.replicate lzc false ++ t
    if r.length < pad then none else some (r.take (r.length - pad))

/-- UNPACK (R182 to R185): BS and BS_LEN are written, or ContainerFormatError. -/
def phaseUnpack (s : State) : Result :=
  match inputBytes s with
  | none => .refused .unwrittenElement
  | some bytes =>
    match restoreBits s.pad s.lzc (minimalBits (payloadBits (bytes.drop Config.hdrLen))) with
    | none => .next (raiseError s.running .containerFormat s)
    | some bits => .next { s.writeBits 0 bits with bsLen := bits.length, phase := .invert }

/-- The unpacker as a function of the container alone (40_commands.md R112). -/
def unpackBits : List Byte → Except CodecError (List Bit)
  | b0 :: b1 :: payload =>
    if Config.padMax < b0.toNat then .error .containerFormat
    else
      match restoreBits b0.toNat b1.toNat (minimalBits (payloadBits payload)) with
      | none => .error .containerFormat
      | some bits => .ok bits
  | _ => .error .containerFormat

end Sys2Proof.Machine
end

