-- ==== Sys2Proof/Machine/CodeTableDeriver.lean ====
section
/-!
DEFINITION. Sys2Proof/Machine/CodeTableDeriver.lean: the DERIVE phase (43_code_table_deriver.md).
-/

namespace Sys2Proof.Machine

/-- The leaves below a node with their paths, given the node's own path (R150): 0 to the left, 1 to the right.
`levels` is how many nodes a path may still have; `none` where the entries below the node are no tree of that depth.
The traversal order is not observable (R153). -/
def leafPaths (node : NodeFile) : Nat → NodeId → List Bit → Option (List (Byte × List Bit))
  | 0, _, _ => none
  | levels + 1, i, path =>
    if (node.at i).v = false then none
    else if (node.at i).leaf then some [((node.at i).sym, path)]
    else
      match leafPaths node levels (node.at i).left (path ++ [false]) with
      | none => none
      | some ls =>
        match leafPaths node levels (node.at i).right (path ++ [true]) with
        | none => none
        | some rs => some (ls ++ rs)

/-- The table with one entry written for each leaf (R150). -/
def writeCodes (c : CodeTable) : List (Byte × List Bit) → CodeTable
  | [] => c
  | (s, path) :: rest => writeCodes (c.put s (entryOfCode path)) rest

/-- DERIVE (R150): `CT[s] <- {1, |path|, val(path)}` for every leaf below ROOT. A path has at most DEPTH_MAX = 255
branches, so at most 256 nodes (R155). -/
def phaseDerive (s : State) : Result :=
  match leafPaths s.node (Config.depthMax + 1) s.root [] with
  | none => .fault .brokenTree
  | some leaves => .next { s with ct := writeCodes s.ct leaves, phase := .emit }

end Sys2Proof.Machine
end

