-- ==== Sys2Proof/Machine/Decoder.lean ====
section
/-!
DEFINITION. Sys2Proof/Machine/Decoder.lean: the INVERT and SCAN phases (46_decoder.md).
-/

namespace Sys2Proof.Machine

/-- The valid entries of the table, each symbol with its code, in ascending symbol order (R190). -/
def validCodes (c : CodeTable) : List (Byte × List Bit) :=
  (allSymbols.filter fun s => (c.at s).v).map fun s => (s, codeBits (c.at s))

/-- Whether two of the codes are equal. -/
def hasRepeat : List (List Bit) → Bool
  | [] => false
  | c :: rest => rest.contains c || hasRepeat rest

/-- The check of R190: two valid entries hold the same code. -/
def hasDuplicate (c : CodeTable) : Bool := hasRepeat ((validCodes c).map Prod.snd)

/-- INVERT (R190): DuplicateCodeError, or SCAN follows. -/
def phaseInvert (s : State) : Result :=
  if hasDuplicate s.ct then .next (raiseError s.running .duplicateCode s)
  else .next { s with phase := .scan }

/-- The inverse table of R190 (a function, 10_state.md R42): the symbol of a code; `none` where no valid entry holds
it. -/
def inverseCode : List (Byte × List Bit) → List Bit → Option Byte
  | [], _ => none
  | (s, code) :: rest, c => if code = c then some s else inverseCode rest c

/-- The loop of R193: append a bit to the candidate, then test it (R194); answers the symbols in the order matched
(R196) and the candidate left. -/
def scanBits (codes : List (Byte × List Bit)) : List Bit → List Bit → List Byte × List Bit
  | cand, [] => ([], cand)
  | cand, b :: rest =>
    match inverseCode codes (cand ++ [b]) with
    | some s => (s :: (scanBits codes [] rest).1, (scanBits codes [] rest).2)
    | none => scanBits codes (cand ++ [b]) rest

/-- SCAN (R193, R195): OUT, OUT_LEN, CAND and CAND_LEN are written; IncompleteCodeError when a candidate is left. -/
def phaseScan (s : State) : Result :=
  match bitstream s with
  | none => .refused .unwrittenElement
  | some bits =>
    let r := scanBits (validCodes s.ct) s.cand bits
    let s1 := { s with outBuf := memWrite s.outBuf s.outLen r.1, outLen := s.outLen + r.1.length,
                       cand := r.2, candLen := r.2.length }
    if r.2 = [] then .next (completeCommand s1) else .next (raiseError s.running .incompleteCode s1)

/-- The decoder as a function of the bitstream and the table (40_commands.md R112). -/
def decodeBits (bits : List Bit) (c : CodeTable) : Except CodecError (List Byte) :=
  if hasDuplicate c then .error .duplicateCode
  else if (scanBits (validCodes c) [] bits).2 = [] then .ok (scanBits (validCodes c) [] bits).1
  else .error .incompleteCode

end Sys2Proof.Machine
end

