-- ==== Sys2Proof/Machine/FrequencyCounter.lean ====
section
/-!
DEFINITION. Sys2Proof/Machine/FrequencyCounter.lean: the COUNT phase (41_frequency_counter.md).
-/

namespace Sys2Proof.Machine

/-- The loop of R120: one more for each byte, in order. -/
def countBytes (f : FreqFile) : List Byte → FreqFile
  | [] => f
  | b :: rest => countBytes (f.bump b) rest

/-- COUNT (R120): counts `IN[0..IN_LEN)` into FREQ. An element nothing has written stops the command (U3). -/
def phaseCount (s : State) : Result :=
  match inputBytes s with
  | none => .refused .unwrittenElement
  | some bytes => .next { s with freq := countBytes s.freq bytes, phase := .leaves }

end Sys2Proof.Machine
end

