-- ==== Sys2Proof/Machine/TreeBuilder.lean ====
section
/-!
DEFINITION. Sys2Proof/Machine/TreeBuilder.lean: the LEAVES and MERGE phases (42_tree_builder.md).
-/

namespace Sys2Proof.Machine

/-- A leaf record (R130). -/
def leafNode (s : Byte) (weight : Nat) : Node :=
  { v := true, leaf := true, sym := s, weight := weight, left := 0, right := 0 }

/-- An internal record over its two children (R133). -/
def innerNode (node : NodeFile) (a b : NodeId) : Node :=
  { v := true, leaf := false, sym := 0, weight := (node.at a).weight + (node.at b).weight, left := a, right := b }

/-- The loop of R130 over the given symbols: one leaf for each symbol with a count above 0. -/
def insertLeaves (f : FreqFile) : List Byte → Forest → Except Fault Forest
  | [], t => .ok t
  | s :: rest, t =>
    if 0 < f.at s then
      match t.insert (leafNode s (f.at s)) with
      | .ok t' => insertLeaves f rest t'
      | .error e => .error e
    else insertLeaves f rest t

/-- LEAVES (R130): the leaves in ascending symbol order, NSYM <- NNODES, EmptyInputError when there is none. -/
def phaseLeaves (s : State) : Result :=
  match insertLeaves s.freq allSymbols s.forest with
  | .error e => .fault e
  | .ok t =>
    let s1 := { s.setForest t with nsym := t.nnodes }
    if t.nnodes = 0 then .next (raiseError s.running .emptyInput s1)
    else .next { s1 with phase := .merge }

/-- The priority order of R131: lexicographic on (weight, node id). -/
def before (node : NodeFile) (i j : NodeId) : Bool :=
  (node.at i).weight < (node.at j).weight || ((node.at i).weight == (node.at j).weight && i < j)

/-- The node of a list that is before every other in the order of R131. -/
def leastNode (node : NodeFile) : List NodeId → Option NodeId
  | [] => none
  | i :: rest =>
    match leastNode node rest with
    | none => some i
    | some j => if before node i j then some i else some j

/-- ExtractMin (R132): the least live node, and its live bit cleared. -/
def extractMin (t : Forest) : Except Fault (NodeId × Forest) :=
  match leastNode t.node t.pq with
  | none => .error .noLiveNode
  | some a => .ok (a, { t with pq := pqClear t.pq a })

/-- One MERGE iteration (R133): the first-extracted node is the left child, the second the right child. -/
def mergeOnce (t : Forest) : Except Fault Forest :=
  match extractMin t with
  | .error e => .error e
  | .ok (a, t1) =>
    match extractMin t1 with
    | .error e => .error e
    | .ok (b, t2) => t2.insert (innerNode t2.node a b)

/-- An iteration if more than one node is live (R133), none otherwise (R134). -/
def mergeIfMany (t : Forest) : Except Fault Forest :=
  if 1 < t.pq.length then mergeOnce t else .ok t

/-- One MERGE step (R133, R134, R141): at most one iteration; when one node is live, ROOT and TOTAL are written and
DERIVE follows, otherwise MERGE is its own successor (40_commands.md R111). -/
def phaseMerge (s : State) : Result :=
  match mergeIfMany s.forest with
  | .error e => .fault e
  | .ok t =>
    match t.pq with
    | [] => .fault .noLiveNode
    | [r] => .next { s.setForest t with root := r, total := (t.node.at r).weight, phase := .derive }
    | _ :: _ :: _ => .next { s.setForest t with phase := .merge }

end Sys2Proof.Machine
end

