-- ==== Sys2Proof/Machine/Sequencer.lean ====
section
/-!
DEFINITION. Sys2Proof/Machine/Sequencer.lean: one step of the sequencer (40_commands.md R111), and the running of a
command to its end (R112, R115).
-/

namespace Sys2Proof.Machine

/-- One step of the sequencer: the phase PHASE names (10_state.md R36). IDLE: no command is running, nothing changes. -/
def phaseStep (s : State) : Result :=
  match s.phase with
  | .idle => .next s
  | .count => phaseCount s
  | .leaves => phaseLeaves s
  | .merge => phaseMerge s
  | .derive => phaseDerive s
  | .emit => phaseEmit s
  | .padlzc => phasePadlzc s
  | .pack => phasePack s
  | .header => phaseHeader s
  | .unpack => phaseUnpack s
  | .invert => phaseInvert s
  | .scan => phaseScan s

/-- The sequencer alone for `n` steps. -/
def runPhases : Nat → State → Result
  | 0, s => .next s
  | n + 1, s =>
    match phaseStep s with
    | .next s' => runPhases n s'
    | .fault e => .fault e
    | .refused r => .refused r

/-- The most sequencer steps a command takes (R115): COMPRESS runs COUNT, LEAVES, at most 255 MERGE steps, DERIVE,
EMIT, PADLZC and PACK. -/
def maxPhases : Nat := 261

/-- A started command run to its end (R112). -/
def runCommand (s : State) : Result := runPhases maxPhases s

end Sys2Proof.Machine
end

