-- ==== Sys2Proof/Machine/HostStep.lean ====
section
/-!
DEFINITION. Sys2Proof/Machine/HostStep.lean: what one step of the whole block and its host is (00_scope.md R6,
20_memory.md R71, R72): one host statement while idle, one phase while a command runs.
-/

namespace Sys2Proof.Machine

/-- POLL (30_encoding.md R92): RD STATUS, and again until the value has DONE = 1. The value just read is that of this
state, so its bit 1 is DONE (10_state.md R25). -/
def performPoll (s : State) : Result :=
  match performRead s .reg 1 with
  | .next t => .next (if s.done then t else { t with script := .poll :: t.script })
  | .fault e => .fault e
  | .refused r => .refused r

/-- One host statement performed (30_encoding.md R92, R93); the state's script is what follows it. -/
def perform (st : Statement) (s : State) : Result :=
  match st with
  | .read sp idx => performRead s sp idx
  | .write sp idx v => hostWrite s sp idx v
  | .poll => performPoll s
  | .readOut =>
    match performRead s .reg 3 with
    | .next t => .next { t with script := rdbOut t.outLen ++ t.script }
    | .fault e => .fault e
    | .refused r => .refused r
  | .readBs =>
    match performRead s .reg 4 with
    | .next t => .next { t with script := rdbitBs t.bsLen ++ t.script }
    | .fault e => .fault e
    | .refused r => .refused r
  | .reset => .next (applyReset s)

/-- The host's turn: its next statement; an idle block whose host has nothing to do waits (93_implementation_defined.md
part 1). -/
def hostTurn (s : State) : Result :=
  match s.script with
  | [] => .next s
  | st :: rest => perform st { s with script := rest }

/-- The host's turn or the sequencer's, by a free value: the spec gives no timing (70_reset_and_hazards.md R275). -/
def eitherTurn (s : State) : Result :=
  let t := { s with tick := s.tick + 1 }
  if Config.hostFirst s.tick then hostTurn t else phaseStep t

/-- A step while a command runs and the host polls (30_encoding.md R92): one more read of STATUS, or the next phase
(00_scope.md R6). How many reads come before a phase is a free value (70_reset_and_hazards.md R275), chosen when the
first of them, or the phase, is due. -/
def pollTurn (s : State) : Result :=
  match s.pollsLeft.getD (Config.pollReads s.tick) with
  | 0 => phaseStep { s with pollsLeft := none, tick := s.tick + 1 }
  | left + 1 => hostTurn { s with pollsLeft := some left, tick := s.tick + 1 }

/-- A step while a command runs. A host with nothing pending lets the sequencer run its phase, a polling one reads STATUS
some times first. A pending STATUS read, or a pending reset, may come first or later. Any other pending access is one the host
must not make before it has read DONE = 1 (R266): refused (U1). -/
def busyTurn (s : State) : Result :=
  match s.script with
  | [] => phaseStep s
  | .poll :: _ => pollTurn s
  | .reset :: _ => eitherTurn s
  | .read .reg 1 :: _ => eitherTurn s
  | _ => .refused .busyAccess

/-- One step: the host's turn while PHASE = IDLE, otherwise the running command's. -/
def blockStep (s : State) : Result :=
  if s.phase = .idle then hostTurn s else busyTurn s

/-- The state in which the host's next statement is the write of a word to CMD, with no command running. -/
def placeCommand (s : State) (w : Nat) : State :=
  { s with phase := .idle, busy := false, script := .write .reg 0 (BitVec.ofNat 264 w) :: s.script }

end Sys2Proof.Machine
end

