-- ==== Sys2Proof/Machine/Step.lean ====
section
/-!
DEFINITION. Sys2Proof/Machine/Step.lean: the step of the machine, and the placing of a command word as the next thing
the host does. The block fetches no instruction from memory (20_memory.md R75): its "program" is the host's script
(log 3).
-/

namespace Sys2Proof.Machine

/-- One step (00_scope.md R6). -/
def step (s : State) : Host.Outcome State Fault Refusal := blockStep s

/-- The state in which the very next step is the write to CMD of the word `w`, of `nbits` bits. -/
def State.withFetchWord (s : State) (nbits w : Nat) : State :=
  placeCommand s (tableWordByte nbits w).toNat

end Sys2Proof.Machine
end

