-- ==== Sys2Proof/Machine/BigStep.lean ====
section
/-!
DEFINITION. Sys2Proof/Machine/BigStep.lean: the commands as functions of their inputs alone (40_commands.md R112).
`none` stands for a broken internal invariant of the Tree Builder or the Code Table Deriver, which the rules exclude
(42_tree_builder.md R138, R140); it is no error of the block.
-/

namespace Sys2Proof.Machine

/-- `Freq(B)`. -/
def freqOf (bytes : List Byte) : FreqFile := countBytes FreqFile.zero bytes

/-- MERGE steps while more than one node is live, at most `n` of them (R133, R134). -/
def mergeAll : Nat → Forest → Except Fault Forest
  | 0, t => .ok t
  | n + 1, t =>
    match mergeIfMany t with
    | .ok t' => mergeAll n t'
    | .error e => .error e

/-- `Tree(f)`: the finished forest; an empty one when no symbol is present. -/
def treeOf (f : FreqFile) : Except Fault Forest :=
  match insertLeaves f allSymbols Forest.empty with
  | .ok t => mergeAll 255 t
  | .error e => .error e

/-- `Codes(NODE, ROOT)`. -/
def codesOf (node : NodeFile) (root : NodeId) : Option CodeTable :=
  match leafPaths node (Config.depthMax + 1) root [] with
  | some leaves => some (writeCodes CodeTable.zero leaves)
  | none => none

/-- The table of an input; EmptyInputError for the empty input. -/
def tableOf (bytes : List Byte) : Option (Except CodecError CodeTable) :=
  match treeOf (freqOf bytes) with
  | .error _ => none
  | .ok t =>
    match t.pq with
    | [] => some (.error .emptyInput)
    | [r] =>
      match codesOf t.node r with
      | some c => some (.ok c)
      | none => none
    | _ :: _ :: _ => none

/-- `Encode(B)`: the bitstream and the table. -/
def encodeBytes (bytes : List Byte) : Option (Except CodecError (List Bit × CodeTable)) :=
  match tableOf bytes with
  | none => none
  | some (.error e) => some (.error e)
  | some (.ok c) =>
    match encodeSymbols c bytes with
    | some bits => some (.ok (bits, c))
    | none => none

/-- `Compress(B)`: the container and the table. -/
def compressBytes (bytes : List Byte) : Option (Except CodecError (List Byte × CodeTable)) :=
  match encodeBytes bytes with
  | none => none
  | some (.error e) => some (.error e)
  | some (.ok (bits, c)) =>
    match packBits bits with
    | .ok out => some (.ok (out, c))
    | .error e => some (.error e)

/-- `Decompress(C, c)`. -/
def decompressBytes (container : List Byte) (c : CodeTable) : Except CodecError (List Byte) :=
  match unpackBits container with
  | .ok bits => decodeBits bits c
  | .error e => .error e

end Sys2Proof.Machine
end

