-- ==== Sys2Proof/Safety.lean ====
section
/-!
DEFINITION. Sys2Proof/Safety.lean: the terms claims are stated in: what a good tree, a good table and a good state of
the block are (10_state.md R25 to R41, 42_tree_builder.md R136 to R140, 43_code_table_deriver.md R155, 20_memory.md R69).
-/

namespace Sys2Proof.Machine

/-! ### Trees and tables -/

/-- The leaf of symbol `sym` lies below node `i`, and `path` leads to it: 0 to the left, 1 to the right
(43_code_table_deriver.md R150). -/
inductive LeafBelow (node : NodeFile) (sym : Byte) : NodeId → List Bit → Prop where
  | here {i : NodeId} (hv : (node.at i).v = true) (hl : (node.at i).leaf = true) (hs : (node.at i).sym = sym) :
      LeafBelow node sym i []
  | left {i : NodeId} {path : List Bit} (hv : (node.at i).v = true) (hl : (node.at i).leaf = false)
      (h : LeafBelow node sym (node.at i).left path) : LeafBelow node sym i (false :: path)
  | right {i : NodeId} {path : List Bit} (hv : (node.at i).v = true) (hl : (node.at i).leaf = false)
      (h : LeafBelow node sym (node.at i).right path) : LeafBelow node sym i (true :: path)

/-- The sum of all counters (41_frequency_counter.md R121). -/
def FreqFile.sum (f : FreqFile) : Nat := (allSymbols.map f.at).sum

/-- The symbols present, ascending (10_state.md R38). -/
def presentSymbols (f : FreqFile) : List Byte := allSymbols.filter fun s => 0 < f.at s

/-- Node `p` is an internal node with `i` as a child; internal nodes have ids `k` and above (42_tree_builder.md R138). -/
def Forest.Parent (k : Nat) (t : Forest) (p i : NodeId) : Prop :=
  k ≤ p.val ∧ p.val < t.nnodes ∧ ((t.node.at p).left = i ∨ (t.node.at p).right = i)

/-- The forest while the tree of the counts `f`, with `k` symbols present, is built (42_tree_builder.md R136 to R140). -/
structure Forest.Good (f : FreqFile) (k : Nat) (t : Forest) : Prop where
  /-- Each iteration adds one node and takes one from the live set (R134, R138). -/
  balance : t.nnodes + t.pq.length = 2 * k
  /-- Some node is live. -/
  live : t.pq ≠ []
  /-- The leaves come first (R138). -/
  leaves_le : k ≤ t.nnodes
  /-- At most 256 symbols (R138). -/
  bound : k ≤ 256
  /-- The live ids ascend, each once. -/
  sorted : t.pq.Pairwise (· < ·)
  /-- A live node is allocated. -/
  live_lt : ∀ i ∈ t.pq, i.val < t.nnodes
  /-- The ids below NNODES are the allocated ones. -/
  valid : ∀ i : NodeId, i.val < t.nnodes → (t.node.at i).v = true
  /-- Ids 0 to k-1 are the leaves (R138). -/
  isLeaf : ∀ i : NodeId, i.val < t.nnodes → ((t.node.at i).leaf = true ↔ i.val < k)
  /-- A child's id is less than its parent's (R140). -/
  child_lt : ∀ i : NodeId, k ≤ i.val → i.val < t.nnodes → (t.node.at i).left < i ∧ (t.node.at i).right < i
  /-- A leaf's symbol is present and its weight is the symbol's count (R130, R137). -/
  leaf_count : ∀ i : NodeId, i.val < k → 0 < f.at (t.node.at i).sym ∧ (t.node.at i).weight = f.at (t.node.at i).sym
  /-- No symbol has two leaves (R140). -/
  leaf_inj : ∀ i j : NodeId, i.val < k → j.val < k → (t.node.at i).sym = (t.node.at j).sym → i = j
  /-- An internal node's weight is the sum of its children's (R133, R137). -/
  inner_weight : ∀ i : NodeId, k ≤ i.val → i.val < t.nnodes →
    (t.node.at i).weight = (t.node.at (t.node.at i).left).weight + (t.node.at (t.node.at i).right).weight
  /-- The node allocated last is live. -/
  newest : ∃ i ∈ t.pq, i.val + 1 = t.nnodes
  /-- The live nodes are those without a parent (R140). -/
  orphan : ∀ i : NodeId, i.val < t.nnodes → (i ∈ t.pq ↔ ∀ p, ¬ t.Parent k p i)
  /-- A node has at most one parent (R140). -/
  one_parent : ∀ p q i : NodeId, t.Parent k p i → t.Parent k q i → p = q
  /-- A parent's two children differ (R140). -/
  two_children : ∀ p : NodeId, k ≤ p.val → p.val < t.nnodes → (t.node.at p).left ≠ (t.node.at p).right
  /-- Every symbol present is a leaf below a live node (R140). -/
  reached : ∀ s : Byte, 0 < f.at s → ∃ r ∈ t.pq, ∃ path, LeafBelow t.node s r path
  /-- The live weights add up to the number of symbols counted (R137, R141). -/
  weight : (t.pq.map fun i => (t.node.at i).weight).sum = f.sum

/-- `i before j` of 42_tree_builder.md R131: lexicographic on (weight, node id). -/
def NodeFile.Precedes (node : NodeFile) (i j : NodeId) : Prop :=
  (node.at i).weight < (node.at j).weight ∨ ((node.at i).weight = (node.at j).weight ∧ i < j)

/-- K, the number of distinct symbols of an input (00_scope.md R14). -/
def symbolCount (bytes : List Byte) : Nat := (presentSymbols (freqOf bytes)).length

/-- No valid code is a prefix of another symbol's valid code (43_code_table_deriver.md R155 (a)). -/
def CodeTable.PrefixFree (tbl : CodeTable) : Prop :=
  ∀ s t : Byte, (tbl.at s).v = true → (tbl.at t).v = true → s ≠ t → ¬ codeBits (tbl.at s) <+: codeBits (tbl.at t)

/-- The valid symbols all have a code of at least one bit (43_code_table_deriver.md R155 (b)). -/
def CodeTable.NonEmptyCodes (tbl : CodeTable) : Prop :=
  ∀ s : Byte, (tbl.at s).v = true → codeBits (tbl.at s) ≠ []

/-- Scanning `bits` with the table emits `out` and leaves `cand` (46_decoder.md R193 to R199): the bits are the codes of
the emitted symbols followed by the candidate; an emitted code is valid and not empty; no shorter valid code would have
matched in its place; no valid code begins the candidate. -/
structure CodeTable.Scanned (tbl : CodeTable) (bits : List Bit) (out : List Byte) (cand : List Bit) : Prop where
  parts : bits = (out.flatMap fun b => codeBits (tbl.at b)) ++ cand
  emitted : ∀ b ∈ out, (tbl.at b).v = true ∧ codeBits (tbl.at b) ≠ []
  shortest : ∀ b ∈ out, ∀ s : Byte, (tbl.at s).v = true → codeBits (tbl.at s) ≠ [] →
    codeBits (tbl.at s) <+: codeBits (tbl.at b) → codeBits (tbl.at s) = codeBits (tbl.at b)
  unmatched : ∀ s : Byte, (tbl.at s).v = true → codeBits (tbl.at s) ≠ [] → ¬ codeBits (tbl.at s) <+: cand

/-! ### Results of commands -/

/-- The state a command that completes without error leaves before it has written anything: R101's clearings common to
the four commands and R102 (40_commands.md), the unspecified elements of R273 apart (`State.markStale`). -/
def State.completed (s : State) : State :=
  { s with busy := false, done := true, err := false, degen := false, ecode := none, phase := .idle, running := none,
           outLen := 0, pad := 0, lzc := 0, cand := [], candLen := 0 }

/-- The state ENCODE leaves (40_commands.md R106), R273 apart: the tree `t` with its root, the table and the bitstream of the
input; OUT_LEN, PAD and LZC stay 0. -/
def State.encoded (s : State) (bytes : List Byte) (t : Forest) (root : NodeId) (tbl : CodeTable) (bits : List Bit) :
    State :=
  { s.completed.writeBits 0 bits with
    degen := symbolCount bytes == 1, freq := freqOf bytes, node := t.node, pq := [root], nnodes := t.nnodes, root := root,
    nsym := symbolCount bytes, total := bytes.length, ct := tbl, bsLen := bits.length }

/-- The state is that of a failed command (60_exceptions.md R240), R273 apart: ERR 1 with its code, no output bytes. -/
def State.failed (s : State) (e : CodecError) : State := { s with err := true, ecode := some e, outLen := 0 }

/-- What the host can see of the result of COMPRESS or ENCODE is the same in both states (48_guarantees.md R222). -/
structure State.SameEncoding (s t : State) : Prop where
  status : statusWord s = statusWord t
  out : memRead s.outBuf 0 s.outLen = memRead t.outBuf 0 t.outLen
  outLen : s.outLen = t.outLen
  bits : bitstream s = bitstream t
  bsLen : s.bsLen = t.bsLen
  ct : s.ct = t.ct
  pad : s.pad = t.pad
  lzc : s.lzc = t.lzc
  candLen : s.candLen = t.candLen
  total : s.total = t.total
  nsym : s.nsym = t.nsym
  root : s.root = t.root
  nnodes : s.nnodes = t.nnodes
  freq : s.freq = t.freq
  node : s.node = t.node

/-- What the host can see of the result of DECOMPRESS or DECODE is the same in both states (48_guarantees.md R222). -/
structure State.SameDecoding (s t : State) : Prop where
  status : statusWord s = statusWord t
  out : memRead s.outBuf 0 s.outLen = memRead t.outBuf 0 t.outLen
  outLen : s.outLen = t.outLen
  bits : bitstream s = bitstream t
  bsLen : s.bsLen = t.bsLen
  ct : s.ct = t.ct
  pad : s.pad = t.pad
  lzc : s.lzc = t.lzc
  candLen : s.candLen = t.candLen

/-! ### Invariants of the state -/

/-- The STATUS invariants of 10_state.md R25, and OUT_LEN = 0 whenever ERR = 1 (60_exceptions.md R241). -/
structure State.StatusOk (s : State) : Prop where
  busy_done : s.busy = true → s.done = false
  err_done : s.err = true → s.done = true
  err_ecode : s.err = true → s.ecode ≠ none
  ok_ecode : s.err = false → s.ecode = none
  busy_idle : s.busy = false ↔ s.phase = .idle
  err_empty : s.err = true → s.outLen = 0

/-- Which phases a command runs through (40_commands.md R111). -/
def Command.phases : Command → List Phase
  | .compress => [.count, .leaves, .merge, .derive, .emit, .padlzc, .pack]
  | .encode => [.count, .leaves, .merge, .derive, .emit]
  | .decompress => [.header, .unpack, .invert, .scan]
  | .decode => [.invert, .scan]

/-- PHASE is IDLE with no command running, and otherwise one of the running command's phases (R111). -/
def State.RunningOk (s : State) : Prop :=
  match s.running with
  | none => s.phase = .idle
  | some c => s.phase ∈ c.phases

/-- Every buffer element lies inside its buffer (20_memory.md R69). -/
structure State.WithinCapacity (s : State) : Prop where
  input : ∀ c ∈ s.inBuf, c.1 < s.cap.inMax
  output : ∀ c ∈ s.outBuf, c.1 < s.cap.outMax
  bits : ∀ c ∈ s.bsBuf, c.1 < s.cap.bsMax

/-- Every register and counter is in the range the spec gives it (10_state.md R26 to R39); a counter or weight at
most IN_MAX fits CNT_W bits (41_frequency_counter.md R122, 42_tree_builder.md R136). -/
structure State.InRange (s : State) : Prop where
  inLen : s.inLen ≤ s.cap.inMax
  outLen : s.outLen ≤ s.cap.outMax
  bsLen : s.bsLen ≤ s.cap.bsMax
  pad : s.pad ≤ 255
  lzc : s.lzc ≤ 8 * ((s.cap.bsMax + 7) / 8)
  total : s.total ≤ s.cap.inMax
  nsym : s.nsym ≤ 256
  nnodes : s.nnodes ≤ 511
  candLen : s.candLen ≤ s.cap.bsMax
  freq : ∀ sym : Byte, s.freq.at sym ≤ s.cap.inMax
  weight : ∀ i : NodeId, (s.node.at i).weight ≤ s.cap.inMax

/-- What holds on entry to each phase of a running command (40_commands.md R101, R111). -/
def State.PhaseOk (s : State) : Prop :=
  match s.phase with
  | .idle => True
  | .count => s.freq = FreqFile.zero ∧ s.ct = CodeTable.zero ∧ s.forest = Forest.empty ∧ s.bsLen = 0
  | .leaves =>
    (∃ bytes, inputBytes s = some bytes ∧ s.freq = freqOf bytes) ∧ s.ct = CodeTable.zero ∧ s.forest = Forest.empty ∧
      s.bsLen = 0
  | .merge =>
    (∃ bytes, inputBytes s = some bytes ∧ s.freq = freqOf bytes) ∧ s.ct = CodeTable.zero ∧
      Forest.Good s.freq s.nsym s.forest ∧ s.bsLen = 0
  | .derive =>
    (∃ bytes, inputBytes s = some bytes ∧ s.freq = freqOf bytes) ∧ s.ct = CodeTable.zero ∧
      Forest.Good s.freq s.nsym s.forest ∧ s.pq = [s.root] ∧ s.total = s.inLen ∧ s.bsLen = 0
  | .emit => (∃ bytes, inputBytes s = some bytes ∧ ∀ b ∈ bytes, (s.ct.at b).v = true) ∧ s.bsLen = 0
  | .padlzc => (bitstream s).isSome = true
  | .pack => (bitstream s).isSome = true ∧ s.pad ≤ 7 ∧ s.lzc ≤ 255
  | .header => s.bsLen = 0
  | .unpack => (inputBytes s).isSome = true ∧ 2 ≤ s.inLen ∧ s.pad ≤ 7 ∧ s.lzc ≤ 255
  | .invert => s.running = some .decompress → (bitstream s).isSome = true
  | .scan => s.running = some .decompress → (bitstream s).isSome = true

/-- A good state: what reset gives and every step keeps. -/
structure State.Good (s : State) : Prop where
  cap : s.cap.Ok
  status : s.StatusOk
  running : s.RunningOk
  memory : Memory.wf s = true
  within : s.WithinCapacity
  ranges : s.InRange
  fresh : s.phase ≠ .idle → s.outLen = 0 ∧ s.cand = [] ∧ s.err = false
  phase : s.PhaseOk

/-- The state with nothing but the host's side of it different: what it still has to do, what it has read, how
often it still polls, the free values drawn. -/
def State.sameBlock (s t : State) : Prop :=
  { s with script := t.script, reads := t.reads, pollsLeft := t.pollsLeft, tick := t.tick } = t

end Sys2Proof.Machine
end

