-- ==== Sys2Proof/Certificates/Slice0/Obligations.lean ====
section
/-!
DEFINITION. Sys2Proof/Certificates/Slice0/Obligations.lean: the statements for the provers. Each docstring names the
rules of spec/ it formalises. A statement whose conclusion is an equation
with `.next` says that the step completes there.
-/

section Slice0Obligations

open Sys2Proof Sys2Proof.Machine

/-! ### Reset and invariants -/

/-- 10_state.md R47: after reset every register, flag and file is 0, PHASE is IDLE, and no buffer element holds a value.
The capacities are the model's own (log 1): the statement is for the reset state of every capacity. -/
def Obligations.ResetState : Prop :=
  State.reset = State.resetWith Config.capacity ∧
  ∀ cap : Capacity, ∃ s, s = State.resetWith cap ∧
    statusWord s = 0 ∧ s.busy = false ∧ s.done = false ∧ s.err = false ∧ s.degen = false ∧ s.ecode = none ∧
    s.phase = .idle ∧
    s.inLen = 0 ∧ s.outLen = 0 ∧ s.bsLen = 0 ∧
    s.pad = 0 ∧ s.lzc = 0 ∧ s.total = 0 ∧ s.nsym = 0 ∧ s.root.val = 0 ∧ s.nnodes = 0 ∧ s.candLen = 0 ∧ s.cand = [] ∧
    (∀ sym, s.freq.at sym = 0) ∧
    (∀ i, s.node.at i = { v := false, leaf := false, sym := 0, weight := 0, left := 0, right := 0 }) ∧
    (∀ i, i ∉ s.pq) ∧
    (∀ sym, s.ct.at sym = { v := false, len := 0, code := 0 }) ∧
    (∀ idx, bufRead s.inBuf idx = none) ∧ (∀ idx, bufRead s.outBuf idx = none) ∧ (∀ idx, bufRead s.bsBuf idx = none)

/-- The invariant `State.Good` holds at reset, for every capacity R7 of 00_scope.md allows, the model's own among them
(the model's choice of capacities: log 1). -/
def Obligations.ResetIsGood : Prop :=
  Config.capacity.Ok ∧ State.reset.Good ∧ ∀ cap : Capacity, cap.Ok → (State.resetWith cap).Good

/-- Every step keeps `State.Good`: the STATUS invariants (10_state.md R25), PHASE one of the running command's phases
(40_commands.md R111), every register and counter in its range (10_state.md R26 to R39), every buffer element inside its
buffer (20_memory.md R69), memory in canonical form, the tree under construction a forest (42_tree_builder.md R136 to
R140), and what each phase finds on entry. -/
def Obligations.StepKeepsGood : Prop :=
  ∀ s t : State, s.Good → step s = .next t → t.Good

/-- In a good state no step ends in a fault of the model: no internal invariant can break (93_implementation_defined.md
part 1: nothing in this block is stuck). A step is a next state, or the refusal of a host action the spec refuses. -/
def Obligations.StepNeverFaults : Prop :=
  ∀ s : State, s.Good → (∃ t, step s = .next t) ∨ ∃ r, step s = .refused r ∧ ∀ m, r ≠ .notModelled m

/-- 60_exceptions.md R241, with the STATUS invariants of 10_state.md R25 that it needs: they hold at reset and every
step, from any state that has them, keeps them. -/
def Obligations.ErrorMeansNoOutput : Prop :=
  State.reset.StatusOk ∧ ∀ s t : State, s.StatusOk → step s = .next t →
    t.StatusOk ∧ (t.err = true → t.outLen = 0)

/-- 10_state.md R21: no step but a host write to IN (or reset) changes an element of IN; 10_state.md R26: none but a host
write to IN_LEN, CLEAR or reset changes IN_LEN; no step changes the capacities. -/
def Obligations.OnlyTheHostWritesInput : Prop :=
  ∀ s t : State, step s = .next t →
    t.cap = s.cap ∧
    (t.inBuf = s.inBuf ∨ (∃ idx v rest, s.script = .write .input idx v :: rest) ∨ (∃ rest, s.script = .reset :: rest)) ∧
    (t.inLen = s.inLen ∨ (∃ v rest, s.script = .write .reg 2 v :: rest) ∨
      (∃ v rest, s.script = .write .reg 0 v :: rest ∧ decode (commandWord v) = .clear) ∨
      (∃ rest, s.script = .reset :: rest))

/-! ### Command words -/

/-- 30_encoding.md R81: the words of the opcode map. A sanity statement. -/
def Obligations.CommandWordsDecode : Prop :=
  decode 0x00#8 = .nop ∧ decode 0x01#8 = .compress ∧ decode 0x02#8 = .decompress ∧ decode 0x03#8 = .encode ∧
  decode 0x04#8 = .decode ∧ decode 0x05#8 = .clear ∧
  decode 0x06#8 = .illegalOp67 0x06#8 ∧ decode 0x07#8 = .illegalOp67 0x07#8

/-- Decode and encode agree: every well-formed command decodes back from its word, every word is the word of the command
it decodes to, and that command is well formed; a byte sequence gives its first command and the rest
(30_encoding.md R80 to R82, 40_commands.md R100). -/
def Obligations.DecodeEncodeAgree : Prop :=
  (∀ i : Instr, i.wf = true → decode (encode i) = i) ∧
  (∀ w : Byte, (decode w).wf = true ∧ encode (decode w) = w) ∧
  (∀ (i : Instr) (rest : List Byte), i.wf = true → decodeBytes (encode i :: rest) = .ok (i, rest)) ∧
  (∀ i j : Instr, i.wf = true → j.wf = true → encode i = encode j → i = j)

/-- 40_commands.md R100: a host write of `v` to CMD while BUSY = 0 runs the command of the word `v[7:0]`, by the list of
the rule; while BUSY = 1 it is refused. -/
def Obligations.CmdWriteIsDecoded : Prop :=
  ∀ (s : State) (v : PortWord),
    (s.busy = true → hostWrite s .reg 0 v = .refused .busyAccess) ∧
    (s.busy = false →
      hostWrite s .reg 0 v =
        .next (if v.toNat % 256 = 0x00 then s
          else if v.toNat % 256 = 0x01 then startEncoder .compress s
          else if v.toNat % 256 = 0x02 then startDecompress s
          else if v.toNat % 256 = 0x03 then startEncoder .encode s
          else if v.toNat % 256 = 0x04 then startDecode s
          else if v.toNat % 256 = 0x05 then clearState s
          else raiseIllegalCommand s))

/-- A step runs the decoded command. When the host's next statement is the write of `v` to CMD and no phase runs, the
step is `exec` of the command that `v[7:0]` spells, in the state with that statement taken off the script; a word placed
by `withFetchWord` is that statement. -/
def Obligations.StepRunsWrittenCommand : Prop :=
  (∀ (s : State) (v : PortWord) (rest : List Statement), s.phase = .idle → s.script = .write .reg 0 v :: rest →
    step s = exec (decode (v.setWidth 8)) { s with script := rest }) ∧
  (∀ (s : State) (w : Nat), w < 256 →
    step (s.withFetchWord 8 w) = exec (decode (BitVec.ofNat 8 w)) { s with phase := .idle, busy := false })

/-! ### The commands at the CMD write -/

/-- 40_commands.md R104: NOP changes nothing. -/
def Obligations.NopChangesNothing : Prop :=
  ∀ s : State, (s.busy = false → exec .nop s = .next s) ∧ (s.busy = true → exec .nop s = .refused .busyAccess)

/-- 40_commands.md R109: CLEAR gives every register and register file its reset value and keeps the contents of IN, OUT
and BS; it completes within the CMD write. (`running`, `pollsLeft` and `tick` are the model's own: logs 2, 7, 4.) -/
def Obligations.ClearGivesResetValues : Prop :=
  ∀ s : State, s.busy = false → ∃ t, exec .clear s = .next t ∧
    statusWord t = 0 ∧ t.busy = false ∧ t.done = false ∧ t.err = false ∧ t.degen = false ∧ t.ecode = none ∧
    t.phase = .idle ∧ t.running = none ∧
    t.inLen = 0 ∧ t.outLen = 0 ∧ t.bsLen = 0 ∧ t.pad = 0 ∧ t.lzc = 0 ∧ t.total = 0 ∧ t.nsym = 0 ∧ t.root.val = 0 ∧
    t.nnodes = 0 ∧ t.candLen = 0 ∧ t.cand = [] ∧ (∀ sym, t.freq.at sym = 0) ∧ (∀ i, t.node.at i = Node.zero) ∧
    t.pq = [] ∧ (∀ sym, t.ct.at sym = CtEntry.zero) ∧
    t.inBuf = s.inBuf ∧ t.outBuf = s.outBuf ∧ t.bsBuf = s.bsBuf ∧ t.cap = s.cap ∧ t.script = s.script ∧
    t.reads = s.reads ∧ t.pollsLeft = s.pollsLeft ∧ t.tick = s.tick

/-- 30_encoding.md R82, 40_commands.md R110: the words with OP = 6 or 7 or a bit of 7:3 set are the 250 words above 0x05;
they decode to the reserved commands; each of those takes IllegalCommandError at the CMD write and changes nothing else.
The invariants say that BUSY = 0 has PHASE = IDLE and no command running. -/
def Obligations.ReservedWordsRaiseIllegalCommand : Prop :=
  ((List.range 256).filter fun n => 5 < n).length = 250 ∧
  (∀ w : Byte,
    (5 < w.toNat ↔ (w.extractLsb' 0 3 = 6#3 ∨ w.extractLsb' 0 3 = 7#3 ∨ w.extractLsb' 3 5 ≠ 0#5)) ∧
    (5 < w.toNat ↔ (decode w = .illegalOp67 w ∨ decode w = .illegalBit3 w ∨ decode w = .illegalBit4 w ∨
      decode w = .illegalBit5 w ∨ decode w = .illegalBit6 w ∨ decode w = .illegalBit7 w))) ∧
  ∀ (s : State) (w : Byte) (i : Instr),
    (i = .illegalOp67 w ∨ i = .illegalBit3 w ∨ i = .illegalBit4 w ∨ i = .illegalBit5 w ∨ i = .illegalBit6 w ∨
      i = .illegalBit7 w) →
    s.busy = false → s.StatusOk → s.RunningOk →
    ∃ t, exec i s = .next t ∧
      t = { s with err := true, ecode := some .illegalCommand, done := true, degen := false, outLen := 0 } ∧
      statusWord t = 0x066#32

/-- 40_commands.md R101: the start of the four commands clears what the command will produce and nothing else, and sets
PHASE. (`running` is the model's own record of the command: DESIGN CHOICE, log 2.) -/
def Obligations.CommandStartClears : Prop :=
  ∀ s : State, s.busy = false →
    exec .compress s = .next { s with
      busy := true, done := false, err := false, degen := false, ecode := none,
      outLen := 0, pad := 0, lzc := 0, cand := [], candLen := 0,
      freq := Vector.replicate 256 0, ct := Vector.replicate 256 CtEntry.zero, node := Vector.replicate 511 Node.zero,
      pq := [], nnodes := 0, root := 0, nsym := 0, total := 0, bsLen := 0,
      phase := .count, running := some .compress } ∧
    exec .encode s = .next { s with
      busy := true, done := false, err := false, degen := false, ecode := none,
      outLen := 0, pad := 0, lzc := 0, cand := [], candLen := 0,
      freq := Vector.replicate 256 0, ct := Vector.replicate 256 CtEntry.zero, node := Vector.replicate 511 Node.zero,
      pq := [], nnodes := 0, root := 0, nsym := 0, total := 0, bsLen := 0,
      phase := .count, running := some .encode } ∧
    exec .decompress s = .next { s with
      busy := true, done := false, err := false, degen := false, ecode := none,
      outLen := 0, pad := 0, lzc := 0, cand := [], candLen := 0, bsLen := 0,
      phase := .header, running := some .decompress } ∧
    exec .decode s = .next { s with
      busy := true, done := false, err := false, degen := false, ecode := none,
      outLen := 0, pad := 0, lzc := 0, cand := [], candLen := 0,
      phase := .invert, running := some .decode }

/-- 40_commands.md R113, 10_state.md R46 (93_implementation_defined.md U1): while BUSY = 1 a read of STATUS answers STATUS, and every other access, a
write to CMD (so every command) included, is refused. -/
def Obligations.BusyAllowsOnlyStatusReads : Prop :=
  ∀ s : State, s.busy = true →
    hostRead s .reg 1 = .value ((statusWord s).setWidth 264) ∧
    (∀ sp idx, ¬ (sp = Space.reg ∧ idx = 1) → hostRead s sp idx = .refused .busyAccess) ∧
    (∀ sp idx v, hostWrite s sp idx v = .refused .busyAccess) ∧
    (∀ i : Instr, exec i s = .refused .busyAccess)

/-- 60_exceptions.md R240: what raising an error changes, for each running command and for none. (The model's choices:
`running` is its own record of the command, log 2; `markStale`, its record that the elements of BS beyond the length are
unspecified once a command is over, is its form of 70_reset_and_hazards.md R273, DESIGN CHOICE, log 13; it changes no
content.) -/
def Obligations.FaultEntry : Prop :=
  ∀ (s : State) (e : CodecError),
    (∀ c, c = Command.compress ∨ c = Command.encode →
      raiseError (some c) e s = State.markStale { s with
        err := true, ecode := some e, busy := false, done := true, phase := .idle, running := none, outLen := 0,
        bsLen := 0, ct := Vector.replicate 256 { v := false, len := 0, code := 0 } }) ∧
    raiseError (some .decompress) e s = State.markStale { s with
      err := true, ecode := some e, busy := false, done := true, phase := .idle, running := none, outLen := 0,
      bsLen := 0 } ∧
    raiseError (some .decode) e s = State.markStale { s with
      err := true, ecode := some e, busy := false, done := true, phase := .idle, running := none, outLen := 0 } ∧
    raiseIllegalCommand s = { s with
      err := true, ecode := some .illegalCommand, busy := false, done := true, phase := .idle, running := none,
      outLen := 0, degen := false }

/-- 60_exceptions.md R242: a fault is left only by an accepted command other than NOP, or by reset. Every other host
statement leaves DONE, ERR, ECODE and DEGEN as they are; NOP does too; the others rewrite them. -/
def Obligations.FaultStaysUntilNextCommand : Prop :=
  (∀ (s t : State) (st : Statement), st ≠ .reset → (∀ v, st ≠ .write .reg 0 v) → perform st s = .next t →
    t.done = s.done ∧ t.err = s.err ∧ t.ecode = s.ecode ∧ t.degen = s.degen ∧ statusWord t = statusWord s) ∧
  (∀ (s : State) (i : Instr), s.busy = false → i ≠ .nop →
    ∃ t, exec i s = .next t ∧
      ((t.err = false ∧ t.ecode = none ∧ t.done = false) ∨
       (t.err = true ∧ t.ecode = some .illegalCommand ∧ t.done = true))) ∧
  (∀ s : State, s.busy = false → exec .nop s = .next s) ∧
  (∀ s : State, ∃ t, perform .reset s = .next t ∧ t.err = false ∧ t.ecode = none ∧ t.done = false)

/-! ### STATUS, registers, host accesses, memory -/

/-- The STATUS word (10_state.md R25, R36, R37): where its fields lie, the codes of the phases and of the errors. -/
def Obligations.StatusLayout : Prop :=
  (∀ s : State,
    (statusWord s).getLsbD 0 = s.busy ∧ (statusWord s).getLsbD 1 = s.done ∧ (statusWord s).getLsbD 2 = s.err ∧
    (statusWord s).getLsbD 3 = s.degen ∧ (statusWord s).extractLsb' 4 4 = ecodeField s.ecode ∧
    (statusWord s).extractLsb' 8 4 = s.phase.code ∧ (statusWord s).extractLsb' 12 20 = 0 ∧
    (ecodeField s.ecode).toNat ≤ 6 ∧ s.phase.code.toNat ≤ 11) ∧
  (ecodeField none = 0 ∧ CodecError.code .emptyInput = 1 ∧ CodecError.code .headerOverflow = 2 ∧
    CodecError.code .duplicateCode = 3 ∧ CodecError.code .incompleteCode = 4 ∧ CodecError.code .containerFormat = 5 ∧
    CodecError.code .illegalCommand = 6) ∧
  (Phase.code .idle = 0 ∧ Phase.code .count = 1 ∧ Phase.code .leaves = 2 ∧ Phase.code .merge = 3 ∧
    Phase.code .derive = 4 ∧ Phase.code .emit = 5 ∧ Phase.code .padlzc = 6 ∧ Phase.code .pack = 7 ∧
    Phase.code .header = 8 ∧ Phase.code .unpack = 9 ∧ Phase.code .invert = 10 ∧ Phase.code .scan = 11)

/-- 10_state.md R45: the scalar registers by number, read by the host while BUSY = 0 as 32 bits, zero-extended; IN_LEN
and BS_LEN take a written value, the read-only and the reserved ones ignore a write; a number above 15 is refused. -/
def Obligations.RegisterNumbers : Prop :=
  ∀ s : State, s.busy = false →
    hostRead s .reg 0 = .value 0 ∧
    hostRead s .reg 1 = .value ((statusWord s).setWidth 264) ∧
    hostRead s .reg 2 = .value ((BitVec.ofNat 32 s.inLen).setWidth 264) ∧
    hostRead s .reg 3 = .value ((BitVec.ofNat 32 s.outLen).setWidth 264) ∧
    hostRead s .reg 4 = .value ((BitVec.ofNat 32 s.bsLen).setWidth 264) ∧
    hostRead s .reg 5 = .value ((BitVec.ofNat 32 s.pad).setWidth 264) ∧
    hostRead s .reg 6 = .value ((BitVec.ofNat 32 s.lzc).setWidth 264) ∧
    hostRead s .reg 7 = .value ((BitVec.ofNat 32 s.total).setWidth 264) ∧
    hostRead s .reg 8 = .value ((BitVec.ofNat 32 s.nsym).setWidth 264) ∧
    hostRead s .reg 9 = .value ((BitVec.ofNat 32 s.root.val).setWidth 264) ∧
    hostRead s .reg 10 = .value ((BitVec.ofNat 32 s.nnodes).setWidth 264) ∧
    hostRead s .reg 11 = .value ((BitVec.ofNat 32 s.candLen).setWidth 264) ∧
    (∀ n, 12 ≤ n → n ≤ 15 → hostRead s .reg n = .value 0) ∧
    (∀ n v, n ≤ 15 → n ≠ 0 → n ≠ 2 → n ≠ 4 → hostWrite s .reg n v = .next s) ∧
    (∀ v : PortWord, v.toNat ≤ s.cap.inMax → hostWrite s .reg 2 v = .next { s with inLen := v.toNat }) ∧
    (∀ v : PortWord, v.toNat ≤ s.cap.bsMax → hostWrite s .reg 4 v = .next { s with bsLen := v.toNat }) ∧
    (∀ n, 15 < n → hostRead s .reg n = .refused .noSuchRegister) ∧
    (∀ n v, 15 < n → hostWrite s .reg n v = .refused .noSuchRegister)

/-- 40_commands.md R114, the accesses of every space while BUSY = 0: what a read answers (`anyByte`, `anyBit`: an
unspecified value), what a write changes, what is refused. The registers by number are `RegisterNumbers`, the access while
BUSY = 1 is `BusyAllowsOnlyStatusReads`. Then 70_reset_and_hazards.md R273 for BS: an element at or beyond BS_LEN when a
command ends holds an unspecified value, for the host and for DECODE alike, also when the host raises BS_LEN over it, until
it is written again. That the value is a free bit for each end of a command and index is the model's form of
`unspecified` (log 13). -/
def Obligations.HostAccesses : Prop :=
  (∀ s : State, s.busy = false →
    (∀ i b, i < s.cap.inMax → bufRead s.inBuf i = some b → hostRead s .input i = .value (b.setWidth 264)) ∧
    (∀ i, i < s.cap.inMax → bufRead s.inBuf i = none → hostRead s .input i = .anyByte) ∧
    (∀ i b, i < s.cap.outMax → i < s.outLen → bufRead s.outBuf i = some b →
      hostRead s .output i = .value (b.setWidth 264)) ∧
    (∀ i, i < s.cap.outMax → (s.outLen ≤ i ∨ bufRead s.outBuf i = none) → hostRead s .output i = .anyByte) ∧
    (∀ i b, i < s.cap.bsMax → i < s.bsLen → bufRead (heldBits s.bsBuf s.bsStale) i = some b →
      hostRead s .bits i = .value (if b then 1 else 0)) ∧
    (∀ i, i < s.cap.bsMax → (s.bsLen ≤ i ∨ bufRead s.bsBuf i = none) → hostRead s .bits i = .anyBit) ∧
    (∀ sym : Byte, hostRead s .table sym.toNat = .value (packEntry (s.ct.at sym))) ∧
    (∀ sym : Byte, hostRead s .freq sym.toNat = .value (BitVec.ofNat 264 (s.freq.at sym))) ∧
    (∀ i : NodeId, hostRead s .node i.val = .value ((packNode s.cap.cntW (s.node.at i)).setWidth 264)) ∧
    (∀ v : PortWord, v.toNat ≤ s.cap.inMax → hostWrite s .reg 2 v = .next { s with inLen := v.toNat }) ∧
    (∀ v : PortWord, s.cap.inMax < v.toNat → hostWrite s .reg 2 v = .refused .lengthAboveCapacity) ∧
    (∀ v : PortWord, v.toNat ≤ s.cap.bsMax → hostWrite s .reg 4 v = .next { s with bsLen := v.toNat }) ∧
    (∀ v : PortWord, s.cap.bsMax < v.toNat → hostWrite s .reg 4 v = .refused .lengthAboveCapacity) ∧
    (∀ i v, i < s.cap.inMax →
      hostWrite s .input i v = .next { s with inBuf := memWrite s.inBuf i [v.setWidth 8] }) ∧
    (∀ i v, i < s.cap.bsMax →
      hostWrite s .bits i v = .next (s.writeBits i [v.getLsbD 0])) ∧
    (∀ (sym : Byte) v, hostWrite s .table sym.toNat v = .next { s with ct := s.ct.put sym (unpackEntry v) }) ∧
    (∀ i v, i < s.cap.outMax → hostWrite s .output i v = .next s) ∧
    (∀ i v, i < 256 → hostWrite s .freq i v = .next s) ∧
    (∀ i v, i < 511 → hostWrite s .node i v = .next s) ∧
    (∀ sp i v, (sp = Space.input ∧ s.cap.inMax ≤ i) ∨ (sp = .output ∧ s.cap.outMax ≤ i) ∨
        (sp = .bits ∧ s.cap.bsMax ≤ i) ∨ (sp = .table ∧ 256 ≤ i) ∨ (sp = .freq ∧ 256 ≤ i) ∨ (sp = .node ∧ 511 ≤ i) →
      hostRead s sp i = .refused .indexOutOfRange ∧ hostWrite s sp i v = .refused .indexOutOfRange) ∧
    (∀ i v, hostRead s .reserved i = .refused .reservedSpace ∧ hostWrite s .reserved i v = .refused .reservedSpace)) ∧
  (∀ (s : State) (i : Nat) (vs : List Bit) (j : Nat),
    (s.writeBits i vs).bsBuf = memWrite s.bsBuf i vs ∧
    bufRead (heldBits (s.writeBits i vs).bsBuf (s.writeBits i vs).bsStale) j =
      if i ≤ j ∧ j < i + vs.length then vs[j - i]? else bufRead (heldBits s.bsBuf s.bsStale) j) ∧
  (∀ s t : State, (t = completeCommand s ∨ (∃ c e, t = raiseError (some c) e s) ∨ t = clearState s) →
    t.bsBuf = s.bsBuf ∧ t.ended = s.ended + 1 ∧
    (∀ i, i < t.bsLen → bufRead (heldBits t.bsBuf t.bsStale) i = bufRead (heldBits s.bsBuf s.bsStale) i) ∧
    ∀ (i v : Nat) (b : Bit), t.bsLen ≤ i → i < v → v ≤ t.cap.bsMax → bufRead t.bsBuf i = some b →
      hostRead { t with bsLen := v } .bits i = .value (if Config.staleBit s.ended i then 1 else 0) ∧
      ∀ bits, bitstream { t with bsLen := v } = some bits → bits[i]? = some (Config.staleBit s.ended i))

/-- 20_memory.md R67: a read changes no state of the block, only what the host has read; an access the spec gives no
value answers one byte or bit, whichever it is (a free value: log 4). -/
def Obligations.ReadsHaveNoSideEffects : Prop :=
  ∀ (s t : State) (sp : Space) (idx : Nat), performRead s sp idx = .next t →
    s.sameBlock t ∧ t.script = s.script ∧
    (∃ v : PortWord, t.reads = s.reads ++ [v] ∧
      ((hostRead s sp idx = .value v ∧ t.tick = s.tick) ∨
       (hostRead s sp idx = .anyByte ∧ (∃ b : Byte, v = b.setWidth 264) ∧ t.tick = s.tick + 1) ∨
       (hostRead s sp idx = .anyBit ∧ (v = 0 ∨ v = 1) ∧ t.tick = s.tick + 1))) ∧
    (∀ sp' idx', hostRead t sp' idx' = hostRead s sp' idx')

/-- 20_memory.md R77: MemRead returns the consecutive elements, and there is a value to return exactly when each of them
holds one; MemWrite sets the elements it names and changes nothing else. -/
def Obligations.MemReadAndMemWrite : Prop :=
  (∀ (buf : List Host.Cell) (idx n : Nat) (vs : List Byte), bufWf buf = true →
    (memRead buf idx n = some vs ↔ (vs.length = n ∧ ∀ k, k < n → bufRead buf (idx + k) = vs[k]?))) ∧
  (∀ (buf : List (Nat × Bit)) (idx n : Nat) (vs : List Bit), bufWf buf = true →
    (memRead buf idx n = some vs ↔ (vs.length = n ∧ ∀ k, k < n → bufRead buf (idx + k) = vs[k]?))) ∧
  (∀ (buf : List Host.Cell) (idx : Nat) (vs : List Byte) (j : Nat),
    bufRead (memWrite buf idx vs) j = if idx ≤ j ∧ j < idx + vs.length then vs[j - idx]? else bufRead buf j) ∧
  (∀ (buf : List (Nat × Bit)) (idx : Nat) (vs : List Bit) (j : Nat),
    bufRead (memWrite buf idx vs) j = if idx ≤ j ∧ j < idx + vs.length then vs[j - idx]? else bufRead buf j)

/-- 30_encoding.md R88, R89, R90: a CT record and its 264-bit word hold the same; the fields lie where R89 puts them; a
code of at most 255 bits comes back from its entry; bits of CODE at and above position LEN do not count. The NODE record
is one word of 28 + CNT_W bits, its fields where R90 puts them. -/
def Obligations.RecordLayouts : Prop :=
  (∀ e : CtEntry, unpackEntry (packEntry e) = e ∧ (packEntry e).getLsbD 263 = e.v ∧
    (packEntry e).extractLsb' 255 8 = e.len ∧ (packEntry e).extractLsb' 0 255 = e.code) ∧
  (∀ w : PortWord, packEntry (unpackEntry w) = w) ∧
  (∀ code : List Bit, code.length ≤ 255 → codeBits (entryOfCode code) = code ∧
    (entryOfCode code).len.toNat = code.length ∧ (entryOfCode code).code.toNat = bitsVal code) ∧
  (∀ d e : CtEntry, codeBits d = codeBits e ↔
    (d.len = e.len ∧ d.code.toNat % 2 ^ d.len.toNat = e.code.toNat % 2 ^ e.len.toNat)) ∧
  (∀ (w : Nat) (n : Node), n.weight < 2 ^ w →
    ((packNode w n).extractLsb' 0 9).toNat = n.right.val ∧ ((packNode w n).extractLsb' 9 9).toNat = n.left.val ∧
    ((packNode w n).extractLsb' 18 w).toNat = n.weight ∧ (packNode w n).extractLsb' (18 + w) 8 = n.sym ∧
    (packNode w n).getLsbD (26 + w) = n.leaf ∧ (packNode w n).getLsbD (27 + w) = n.v ∧
    1 + 1 + 8 + w + 9 + 9 = 28 + w)

/-- 70_reset_and_hazards.md R260, R262: the reset input gives every piece of the block's state its reset value, whatever
the block was doing. While a command runs a pending reset comes before its next phase or after it (no timing is given:
log 7). The host keeps its script and what it has read (log 3), and the model what it records of
polling and its counts of free values (logs 4, 7, 13). -/
def Obligations.ResetInput : Prop :=
  ∀ (s : State) (rest : List Statement), s.script = .reset :: rest →
    perform .reset { s with script := rest } =
      .next { State.resetWith s.cap with
        script := rest, reads := s.reads, pollsLeft := s.pollsLeft, tick := s.tick, ended := s.ended } ∧
    (s.phase = .idle →
      step s = .next { State.resetWith s.cap with
        script := rest, reads := s.reads, pollsLeft := s.pollsLeft, tick := s.tick, ended := s.ended }) ∧
    (s.phase ≠ .idle →
      step s = .next { State.resetWith s.cap with
        script := rest, reads := s.reads, pollsLeft := s.pollsLeft, tick := s.tick + 1, ended := s.ended } ∨
      step s = phaseStep { s with tick := s.tick + 1 })

/-- 30_encoding.md R93: the pseudo-statements that load the inputs. LOAD_IN and LOAD_BS leave the given sequence as the
input or the bitstream; LOAD_CT leaves the listed codes and makes every other entry invalid. Nothing else changes.
(`heldBits` and the record of stale elements are the model's form of 70_reset_and_hazards.md R273: DESIGN CHOICE, log
13. One host access a step: log 3.) -/
def Obligations.LoadScripts : Prop :=
  ∀ (s : State) (rest : List Statement), s.busy = false → s.phase = .idle → Memory.wf s = true →
    (∀ bytes : List Byte, bytes.length ≤ s.cap.inMax → s.cap.inMax < 2 ^ 32 → s.script = scriptLoadIn bytes ++ rest →
      ∃ buf, Host.Core.run Sys2Proof.core (bytes.length + 1) s =
          .next { s with inBuf := buf, inLen := bytes.length, script := rest } ∧
        memRead buf 0 bytes.length = some bytes ∧ ∀ j, bytes.length ≤ j → bufRead buf j = bufRead s.inBuf j) ∧
    (∀ bits : List Bit, bits.length ≤ s.cap.bsMax → s.cap.bsMax < 2 ^ 32 → s.script = scriptLoadBs bits ++ rest →
      ∃ buf stale, Host.Core.run Sys2Proof.core (bits.length + 1) s =
          .next { s with bsBuf := buf, bsStale := stale, bsLen := bits.length, script := rest } ∧
        memRead (heldBits buf stale) 0 bits.length = some bits ∧
        ∀ j, bits.length ≤ j →
          bufRead buf j = bufRead s.bsBuf j ∧ bufRead (heldBits buf stale) j = bufRead (heldBits s.bsBuf s.bsStale) j) ∧
    (∀ pairs : List (Byte × List Bit), s.script = scriptLoadCt pairs ++ rest →
      ∃ tbl, Host.Core.run Sys2Proof.core 256 s = .next { s with ct := tbl, script := rest } ∧
        ∀ sym, tbl.at sym = match listedCode pairs sym with
          | some code => entryOfCode code
          | none => CtEntry.zero)

/-! ### The phases of COMPRESS and ENCODE -/

/-- 41_frequency_counter.md R120, R121, R123: COUNT adds to FREQ[s] the number of occurrences of s in the input, so the
counters, zero from the command start, become those numbers and sum to N; it writes FREQ and PHASE and nothing else. -/
def Obligations.CountPhase : Prop :=
  ∀ (s : State) (bytes : List Byte), s.phase = .count → inputBytes s = some bytes →
    ∃ f : FreqFile, phaseStep s = .next { s with freq := f, phase := .leaves } ∧
      (∀ sym, f.at sym = s.freq.at sym + bytes.count sym) ∧
      ((∀ sym, s.freq.at sym = 0) → (∀ sym, f.at sym = bytes.count sym) ∧ f.sum = s.inLen ∧ ∀ sym, f.at sym ≤ s.inLen)

/-- 42_tree_builder.md R130: LEAVES, from the empty tree of the command start, gives the present symbols the leaf ids
0 to K-1 in ascending symbol order, makes them live, sets NNODES and NSYM to K; with no symbol present it raises
EmptyInputError. -/
def Obligations.LeavesPhase : Prop :=
  ∀ s : State, s.phase = .leaves → s.forest = Forest.empty →
    ∃ node : NodeFile,
      (∀ i : NodeId, node.at i =
        match (presentSymbols s.freq)[i.val]? with
        | some sym => { v := true, leaf := true, sym := sym, weight := s.freq.at sym, left := 0, right := 0 }
        | none => Node.zero) ∧
      phaseStep s = .next
        (if presentSymbols s.freq = [] then raiseError s.running .emptyInput { s with nsym := 0 }
         else { s with
          node := node, pq := (List.finRange 511).filter fun i => i.val < (presentSymbols s.freq).length,
          nnodes := (presentSymbols s.freq).length, nsym := (presentSymbols s.freq).length, phase := .merge })

/-- 60_exceptions.md R231, R240: EmptyInputError comes exactly when IN_LEN = 0, from COMPRESS and from ENCODE; what the
failed command leaves. (`markStale` is the model's form of 70_reset_and_hazards.md R273: DESIGN CHOICE, log 13.) -/
def Obligations.EmptyInputFails : Prop :=
  ∀ (s : State) (c : Command) (i : Instr), (c = .compress ∧ i = .compress) ∨ (c = .encode ∧ i = .encode) →
    s.busy = false → ∀ bytes, inputBytes s = some bytes →
      ∃ s0 t, exec i s = .next s0 ∧ runCommand s0 = .next t ∧
        (t.ecode = some .emptyInput ↔ s.inLen = 0) ∧
        (s.inLen = 0 → t = State.markStale { s.completed with
          err := true, ecode := some .emptyInput, freq := FreqFile.zero, node := NodeFile.zero, pq := [], nnodes := 0,
          root := 0, nsym := 0, total := 0, bsLen := 0, ct := CodeTable.zero })

/-- 42_tree_builder.md R131 and R132: the order of the priority collection is a strict total order, and ExtractMin
returns the live node before every other one and clears its bit. -/
def Obligations.ExtractMinTakesTheFirst : Prop :=
  (∀ (node : NodeFile) (i j k : NodeId),
    (i ≠ j → node.Precedes i j ∨ node.Precedes j i) ∧ ¬ node.Precedes i i ∧
    (node.Precedes i j → node.Precedes j k → node.Precedes i k)) ∧
  (∀ t : Forest, t.pq ≠ [] →
    ∃ (a : NodeId) (pq : List NodeId), extractMin t = .ok (a, { node := t.node, pq := pq, nnodes := t.nnodes }) ∧
      a ∈ t.pq ∧ (∀ j ∈ t.pq, j ≠ a → t.node.Precedes a j) ∧ ∀ j, j ∈ pq ↔ j ∈ t.pq ∧ j ≠ a)

/-- 42_tree_builder.md R133: one MERGE step with more than one live node takes the two least, `a` then `b`, and makes node
NNODES over them with the sum of their weights. That the same step, when one node is left, also writes ROOT and TOTAL and
goes to DERIVE is the model's reading of R134, R141 and 40_commands.md R111 (DEDUCED, log 9); R133's own pseudocode sets
PHASE to MERGE. The premises on PQ are invariants of `State.Good`. -/
def Obligations.MergeStepJoinsTheTwoLeast : Prop :=
  ∀ s : State, s.phase = .merge → s.pq.Pairwise (· < ·) → (∀ j ∈ s.pq, j.val < s.nnodes) → 1 < s.pq.length →
    ∀ h : s.nnodes < 511, ∃ (a b : NodeId) (pq : List NodeId) (merged : State),
      a ∈ s.pq ∧ b ∈ s.pq ∧ a ≠ b ∧
      (∀ j ∈ s.pq, j ≠ a → s.node.Precedes a j) ∧ (∀ j ∈ s.pq, j ≠ a → j ≠ b → s.node.Precedes b j) ∧
      (∀ j, j ∈ pq ↔ j = ⟨s.nnodes, h⟩ ∨ (j ∈ s.pq ∧ j ≠ a ∧ j ≠ b)) ∧ pq.Pairwise (· < ·) ∧
      merged = { s with
        node := s.node.put ⟨s.nnodes, h⟩
          { v := true, leaf := false, sym := 0, weight := (s.node.at a).weight + (s.node.at b).weight, left := a,
            right := b },
        pq := pq, nnodes := s.nnodes + 1 } ∧
      phaseStep s = .next
        (if s.pq.length = 2 then { merged with
          root := ⟨s.nnodes, h⟩, total := (s.node.at a).weight + (s.node.at b).weight, phase := .derive }
         else { merged with phase := .merge })

/-- 42_tree_builder.md R134, R135, R141: from K live leaves MERGE runs exactly K-1 iterations, each lowering the number of
live nodes by one; and with one node live on entry no iteration runs: ROOT and TOTAL are written, DERIVE follows. -/
def Obligations.MergeRunsKMinusOneTimes : Prop :=
  (∀ bytes : List Byte, bytes ≠ [] → ∃ leaves : Forest,
    insertLeaves (freqOf bytes) allSymbols Forest.empty = .ok leaves ∧ leaves.pq.length = symbolCount bytes ∧
    ∀ n, n < symbolCount bytes →
      ∃ t, mergeAll n leaves = .ok t ∧ t.pq.length = symbolCount bytes - n ∧ t.nnodes = symbolCount bytes + n) ∧
  (∀ (s : State) (r : NodeId), s.phase = .merge → s.pq = [r] →
    phaseStep s = .next { s with root := r, total := (s.node.at r).weight, phase := .derive })

/-- 42_tree_builder.md R138: after a successful build NNODES = 2K-1, the leaves are ids 0 to K-1 in ascending symbol
order, the internal nodes ids K to 2K-2, ROOT = 2K-2, at most 511 nodes; the internal nodes' weights are non-decreasing in
id order (which the spec marks as general knowledge). -/
def Obligations.NodeIdsAfterBuild : Prop :=
  ∀ bytes : List Byte, bytes ≠ [] → ∃ (t : Forest) (root : NodeId),
    treeOf (freqOf bytes) = .ok t ∧ t.pq = [root] ∧ symbolCount bytes ≤ 256 ∧
    t.nnodes + 1 = 2 * symbolCount bytes ∧ root.val + 2 = 2 * symbolCount bytes ∧ t.nnodes ≤ 511 ∧
    (∀ i : NodeId, i.val < symbolCount bytes →
      (t.node.at i).leaf = true ∧ some (t.node.at i).sym = (presentSymbols (freqOf bytes))[i.val]?) ∧
    (∀ i j : NodeId, i < j → j.val < symbolCount bytes → (t.node.at i).sym < (t.node.at j).sym) ∧
    (∀ i : NodeId, symbolCount bytes ≤ i.val → i.val < t.nnodes → (t.node.at i).leaf = false) ∧
    (∀ i j : NodeId, symbolCount bytes ≤ i.val → i ≤ j → j.val < t.nnodes →
      (t.node.at i).weight ≤ (t.node.at j).weight) ∧
    (∀ i : NodeId, t.nnodes ≤ i.val → t.node.at i = Node.zero)

/-- 42_tree_builder.md R140, the guarantees of the Tree Builder: the allocated nodes form a strict binary tree rooted at ROOT, every
present symbol is the symbol of exactly one leaf, every leaf is reachable, and the root's weight is the number of input
symbols. -/
def Obligations.TreeShape : Prop :=
  ∀ bytes : List Byte, bytes ≠ [] → ∃ (t : Forest) (root : NodeId),
    treeOf (freqOf bytes) = .ok t ∧ t.pq = [root] ∧ root.val + 1 = t.nnodes ∧
    (∀ i : NodeId, i.val < t.nnodes → (t.node.at i).leaf = false →
      (t.node.at i).left < i ∧ (t.node.at i).right < i ∧ (t.node.at i).left ≠ (t.node.at i).right) ∧
    (∀ i : NodeId, i.val < t.nnodes → i ≠ root →
      ∃! p : NodeId, p.val < t.nnodes ∧ (t.node.at p).leaf = false ∧
        ((t.node.at p).left = i ∨ (t.node.at p).right = i)) ∧
    (∀ p : NodeId, p.val < t.nnodes → (t.node.at p).leaf = false →
      (t.node.at p).left ≠ root ∧ (t.node.at p).right ≠ root) ∧
    (∀ sym : Byte, sym ∈ bytes ↔ ∃ i : NodeId, i.val < t.nnodes ∧ (t.node.at i).leaf = true ∧ (t.node.at i).sym = sym) ∧
    (∀ i j : NodeId, i.val < t.nnodes → j.val < t.nnodes → (t.node.at i).leaf = true → (t.node.at j).leaf = true →
      (t.node.at i).sym = (t.node.at j).sym → i = j) ∧
    (∀ sym : Byte, sym ∈ bytes → ∃ path, LeafBelow t.node sym root path) ∧
    (t.node.at root).weight = bytes.length

/-- 42_tree_builder.md R137: every allocated node's weight is the sum of the counts of the leaves below it, and every
leaf's weight is at least 1. -/
def Obligations.WeightLaw : Prop :=
  ∀ bytes : List Byte, bytes ≠ [] → ∃ t : Forest, treeOf (freqOf bytes) = .ok t ∧
    ∀ i : NodeId, i.val < t.nnodes →
      ∃ below : List (Byte × List Bit), below.Nodup ∧
        (∀ sym path, (sym, path) ∈ below ↔ LeafBelow t.node sym i path) ∧
        (t.node.at i).weight = (below.map fun leaf => bytes.count leaf.1).sum ∧
        1 ≤ (t.node.at i).weight

/-- 42_tree_builder.md R139: two inputs with the same counts give the same tree and the same table; a permutation of the
input is such an input. -/
def Obligations.SameCountsSameTable : Prop :=
  ∀ xs ys : List Byte, ((∀ sym, xs.count sym = ys.count sym) ∨ xs.Perm ys) →
    treeOf (freqOf xs) = treeOf (freqOf ys) ∧ tableOf xs = tableOf ys

/-- 43_code_table_deriver.md R150, R154: DERIVE, from the finished tree of an input and the table cleared by the command
start, writes for every leaf the path that leads to it; the valid entries are those of the present symbols, K of them,
pairwise prefix-free; every other entry is 0. -/
def Obligations.DerivePhase : Prop :=
  ∀ (s : State) (bytes : List Byte), s.phase = .derive → bytes ≠ [] → treeOf (freqOf bytes) = .ok s.forest →
    s.pq = [s.root] → s.ct = CodeTable.zero →
    ∃ tbl : CodeTable, phaseStep s = .next { s with ct := tbl, phase := .emit } ∧
      (∀ sym path, LeafBelow s.node sym s.root path →
        (tbl.at sym).v = true ∧ (tbl.at sym).len.toNat = path.length ∧ (tbl.at sym).code.toNat = bitsVal path ∧
        codeBits (tbl.at sym) = path) ∧
      (∀ sym, (tbl.at sym).v = true ↔ sym ∈ bytes) ∧
      (∀ sym, (tbl.at sym).v = true → LeafBelow s.node sym s.root (codeBits (tbl.at sym))) ∧
      (∀ sym, (tbl.at sym).v = false → tbl.at sym = { v := false, len := 0, code := 0 }) ∧
      (allSymbols.filter fun sym => (tbl.at sym).v).length = symbolCount bytes ∧
      tbl.PrefixFree

/-- 43_code_table_deriver.md R155, 48_guarantees.md R211: the laws of the table of an input with K distinct symbols.
Prefix-free; for K ≥ 2 no code is empty, one code is all ones and one all zeros; every code has at most K-1 ≤ 255 bits;
for K ≥ 2 every infinite bit sequence has a valid code as a prefix. -/
def Obligations.TableLaws : Prop :=
  ∀ bytes : List Byte, bytes ≠ [] → ∃ tbl : CodeTable, tableOf bytes = some (.ok tbl) ∧
    (∀ s t : Byte, (tbl.at s).v = true → (tbl.at t).v = true → s ≠ t →
      ¬ codeBits (tbl.at s) <+: codeBits (tbl.at t) ∧ codeBits (tbl.at s) ≠ codeBits (tbl.at t)) ∧
    (2 ≤ symbolCount bytes →
      (∀ s : Byte, (tbl.at s).v = true → 1 ≤ (codeBits (tbl.at s)).length) ∧
      (∃ s : Byte, (tbl.at s).v = true ∧ ∀ b ∈ codeBits (tbl.at s), b = true) ∧
      (∃ s : Byte, (tbl.at s).v = true ∧ ∀ b ∈ codeBits (tbl.at s), b = false)) ∧
    (∀ s : Byte, (tbl.at s).v = true → (codeBits (tbl.at s)).length + 1 ≤ symbolCount bytes) ∧ symbolCount bytes ≤ 256 ∧
    (2 ≤ symbolCount bytes → ∀ stream : Nat → Bit, ∃ s : Byte, (tbl.at s).v = true ∧
      codeBits (tbl.at s) = (List.range (tbl.at s).len.toNat).map stream)

/-- 48_guarantees.md R213: a more frequent symbol has a code that is no longer. -/
def Obligations.CodeLengthsMonotone : Prop :=
  ∀ (bytes : List Byte) (tbl : CodeTable), tableOf bytes = some (.ok tbl) →
    ∀ s t : Byte, bytes.count t < bytes.count s → 0 < bytes.count t → (tbl.at s).len.toNat ≤ (tbl.at t).len.toNat

/-- 44_bit_packer.md R160, R171: EMIT writes the codes of the input bytes, in order, and their length; that length is the
sum over the symbols of count times code length; DEGEN says NSYM = 1; PADLZC follows in COMPRESS, completion
(40_commands.md R102) in ENCODE. (`writeBits`, which takes a written element out of the record, and `markStale` are the
model's form of 70_reset_and_hazards.md R273: DESIGN CHOICE, log 13.) -/
def Obligations.EmitPhase : Prop :=
  ∀ (s : State) (bytes : List Byte), s.phase = .emit → inputBytes s = some bytes → (∀ b ∈ bytes, (s.ct.at b).v = true) →
    s.bsLen = 0 → ∃ (bits : List Bit) (t : State),
      bits = (bytes.flatMap fun b => codeBits (s.ct.at b)) ∧
      bits.length = (allSymbols.map fun sym => bytes.count sym * (s.ct.at sym).len.toNat).sum ∧
      phaseStep s = .next t ∧ bitstream t = some bits ∧
      t = (if s.running = some .compress then
          { s.writeBits 0 bits with bsLen := bits.length, degen := s.nsym == 1, phase := .padlzc }
         else State.markStale
          { s.writeBits 0 bits with bsLen := bits.length, degen := s.nsym == 1, busy := false, done := true,
                                    phase := .idle, running := none })

/-- 44_bit_packer.md R162, R163, R164: PADLZC computes the pad count and the leading-zero count of the padded bitstream P,
and raises HeaderOverflowError exactly when the latter is above 255, keeping both counts. -/
def Obligations.PadLzcPhase : Prop :=
  ∀ (s : State) (bits : List Bit), s.phase = .padlzc → bitstream s = some bits →
    ∃ (pad lzc : Nat) (p : List Bit),
      pad = (if s.bsLen % 8 = 0 then 0 else 8 - s.bsLen % 8) ∧ pad ≤ 7 ∧ p = bits ++ List.replicate pad false ∧
      p.length % 8 = 0 ∧
      ((true ∉ p ∧ lzc = p.length) ∨ (p[lzc]? = some true ∧ ∀ j, j < lzc → p[j]? = some false)) ∧
      phaseStep s = .next
        (if 255 < lzc then raiseError s.running .headerOverflow { s with pad := pad, lzc := lzc }
         else { s with pad := pad, lzc := lzc, phase := .pack })

/-- 44_bit_packer.md R165, R166 with the bit order of 20_memory.md R62: PACK writes PAD, LZC and the bytes of the padded
bitstream, most significant bit first, sets OUT_LEN to 2 + m and completes (40_commands.md R102). The premises are what
PADLZC leaves. (`markStale` is the model's form of 70_reset_and_hazards.md R273: DESIGN CHOICE, log 13.) -/
def Obligations.PackPhase : Prop :=
  ∀ (s : State) (bits : List Bit), s.phase = .pack → bitstream s = some bits →
    s.pad = (if s.bsLen % 8 = 0 then 0 else 8 - s.bsLen % 8) → s.lzc ≤ 255 →
    ∃ out : List Byte,
      out.length = 2 + (s.bsLen + 7) / 8 ∧
      out[0]? = some (BitVec.ofNat 8 s.pad) ∧ out[1]? = some (BitVec.ofNat 8 s.lzc) ∧
      (∀ j k, j < (s.bsLen + 7) / 8 → k < 8 →
        ∃ b, out[2 + j]? = some b ∧ some (b.getLsbD (7 - k)) = (bits ++ List.replicate s.pad false)[8 * j + k]?) ∧
      phaseStep s = .next (State.markStale { s with
        outBuf := memWrite s.outBuf 0 out, outLen := out.length, busy := false, done := true, phase := .idle,
        running := none })

/-- 48_guarantees.md R214 and 44_bit_packer.md R167: after a COMPRESS without error, 8 × (OUT_LEN - 2) - PAD = BS_LEN, the
sum over the symbols of count times code length, OUT_LEN = 2 + ceil(BS_LEN / 8); and DECOMPRESS of that container, with
that table, leaves the same BS_LEN and the same bits. -/
def Obligations.PackingInvariant : Prop :=
  ∀ (s t : State) (bytes : List Byte), s.busy = false → inputBytes s = some bytes → t.err = false →
    (∃ s0, exec .compress s = .next s0 ∧ runCommand s0 = .next t) →
    8 * (t.outLen - 2) - t.pad = t.bsLen ∧ t.outLen = 2 + (t.bsLen + 7) / 8 ∧ 2 ≤ t.outLen ∧
    t.bsLen = (allSymbols.map fun sym => t.freq.at sym * (t.ct.at sym).len.toNat).sum ∧
    ∀ u : State, u.busy = false → u.ct = t.ct → inputBytes u = memRead t.outBuf 0 t.outLen →
      ∃ u0 v, exec .decompress u = .next u0 ∧ runCommand u0 = .next v ∧ v.bsLen = t.bsLen ∧
        bitstream v = bitstream t ∧ (bitstream t).isSome = true

/-- 44_bit_packer.md R169: an encoder's bitstream is empty or has a 1 bit; it is empty exactly when K = 1. -/
def Obligations.NoAllZeroBitstream : Prop :=
  ∀ (bytes : List Byte) (bits : List Bit) (tbl : CodeTable), encodeBytes bytes = some (.ok (bits, tbl)) →
    (bits = [] ↔ symbolCount bytes = 1) ∧ (2 ≤ symbolCount bytes → true ∈ bits)

/-- 44_bit_packer.md R168, 48_guarantees.md R217: an input of one distinct symbol. The table holds the empty code for it
and nothing else, the bitstream is empty, the container is [0, 0], DEGEN = 1, TOTAL = N; DECOMPRESS of that pair gives
zero bytes. -/
def Obligations.SingleSymbolInput : Prop :=
  ∀ (s : State) (sym : Byte) (n : Nat), s.busy = false → 0 < n → inputBytes s = some (List.replicate n sym) →
    ∃ s0 t, exec .compress s = .next s0 ∧ runCommand s0 = .next t ∧
      t.err = false ∧ t.degen = true ∧ statusWord t = 0x00A#32 ∧ t.total = n ∧ t.bsLen = 0 ∧ t.pad = 0 ∧ t.lzc = 0 ∧
      t.outLen = 2 ∧ memRead t.outBuf 0 2 = some [0#8, 0#8] ∧
      (∀ x, t.ct.at x = if x = sym then { v := true, len := 0, code := 0 } else { v := false, len := 0, code := 0 }) ∧
      ∀ u : State, u.busy = false → u.ct = t.ct → inputBytes u = some [0#8, 0#8] →
        ∃ u0 v, exec .decompress u = .next u0 ∧ runCommand u0 = .next v ∧ v.err = false ∧ v.outLen = 0

/-! ### The phases of DECOMPRESS and DECODE -/

/-- 45_bit_unpacker.md R180, R181: HEADER reads PAD and LZC; it raises ContainerFormatError for fewer than two bytes, PAD
and LZC kept, and for a pad count above 7, PAD and LZC as read. -/
def Obligations.HeaderPhase : Prop :=
  ∀ s : State, s.phase = .header →
    (∀ bytes, inputBytes s = some bytes → s.inLen < 2 →
      phaseStep s = .next (raiseError s.running .containerFormat s)) ∧
    (∀ b0 b1 payload, inputBytes s = some (b0 :: b1 :: payload) →
      phaseStep s = .next
        (if 7 < b0.toNat then raiseError s.running .containerFormat { s with pad := b0.toNat, lzc := b1.toNat }
         else { s with pad := b0.toNat, lzc := b1.toNat, phase := .unpack }))

/-- 45_bit_unpacker.md R182 to R185: UNPACK takes the payload's bits, most significant first, drops every leading zero,
puts LZC zeros in front, and drops the last PAD bits; it raises ContainerFormatError when there are too few bits to
drop. (`writeBits`, which takes a written element out of the record of stale ones, is the model's form of
70_reset_and_hazards.md R273: DESIGN CHOICE, log 13.) -/
def Obligations.UnpackPhase : Prop :=
  ∀ (s : State) (b0 b1 : Byte) (payload : List Byte), s.phase = .unpack → inputBytes s = some (b0 :: b1 :: payload) →
    ∃ (q t r : List Bit),
      q = (payload.flatMap fun b => (List.range 8).map fun k => b.getLsbD (7 - k)) ∧
      t = q.dropWhile (fun b => b == false) ∧ r = List.replicate s.lzc false ++ t ∧
      phaseStep s = .next
        (if (t ≠ [] ∧ t.length < s.pad) ∨ r.length < s.pad then raiseError s.running .containerFormat s
         else { s.writeBits 0 (r.take (r.length - s.pad)) with bsLen := r.length - s.pad, phase := .invert })

/-- 45_bit_unpacker.md R187: unpacking undoes packing, for every bit sequence whose packing is not an error; that is for
every one with at most 255 leading zeros in its padded form. -/
def Obligations.UnpackInvertsPack : Prop :=
  ∀ bits : List Bit,
    (∀ container, packBits bits = .ok container → unpackBits container = .ok bits) ∧
    ((∃ container, packBits bits = .ok container) ↔ leadingZeros (padBits bits) ≤ 255) ∧
    (255 < leadingZeros (padBits bits) → packBits bits = .error .headerOverflow)

/-- 46_decoder.md R190, R191: INVERT raises DuplicateCodeError exactly when two valid entries hold the same code, and
otherwise writes nothing but PHASE. -/
def Obligations.InvertPhase : Prop :=
  ∀ s : State, s.phase = .invert →
    ((∃ a b : Byte, a ≠ b ∧ (s.ct.at a).v = true ∧ (s.ct.at b).v = true ∧
        codeBits (s.ct.at a) = codeBits (s.ct.at b)) →
      phaseStep s = .next (raiseError s.running .duplicateCode s)) ∧
    ((∀ a b : Byte, (s.ct.at a).v = true → (s.ct.at b).v = true → codeBits (s.ct.at a) = codeBits (s.ct.at b) → a = b) →
      phaseStep s = .next { s with phase := .scan })

/-- 46_decoder.md R193 to R196: SCAN, from an empty candidate and no output, emits the symbols of the shortest matches
from left to right and no empty code (`CodeTable.Scanned`, which one pair alone meets); an empty candidate at the end
means success, another IncompleteCodeError; at most one symbol a bit. The premise excludes a duplicate, as INVERT does.
(`markStale` is the model's form of 70_reset_and_hazards.md R273: DESIGN CHOICE, log 13.) -/
def Obligations.ScanPhase : Prop :=
  ∀ (s : State) (bits : List Bit), s.phase = .scan → s.cand = [] → s.outLen = 0 → bitstream s = some bits →
    (∀ a b : Byte, (s.ct.at a).v = true → (s.ct.at b).v = true → codeBits (s.ct.at a) = codeBits (s.ct.at b) → a = b) →
    ∃ (out : List Byte) (cand : List Bit),
      s.ct.Scanned bits out cand ∧ (∀ out' cand', s.ct.Scanned bits out' cand' → out' = out ∧ cand' = cand) ∧
      out.length ≤ s.bsLen ∧ (bits = [] → out = [] ∧ cand = []) ∧
      phaseStep s = .next
        (if cand = [] then State.markStale { s with
          outBuf := memWrite s.outBuf 0 out, outLen := out.length, cand := [], candLen := 0, busy := false, done := true,
          phase := .idle, running := none }
         else raiseError s.running .incompleteCode { s with
          outBuf := memWrite s.outBuf 0 out, outLen := out.length, cand := cand, candLen := cand.length })

/-- 46_decoder.md R200: with a prefix-free table, the concatenation of non-empty valid codes decodes to exactly their
symbols. -/
def Obligations.ScanDecodesConcatenation : Prop :=
  ∀ (tbl : CodeTable) (bytes : List Byte), tbl.PrefixFree →
    (∀ b ∈ bytes, (tbl.at b).v = true ∧ codeBits (tbl.at b) ≠ []) →
    decodeBits (bytes.flatMap fun b => codeBits (tbl.at b)) tbl = .ok bytes

/-- 46_decoder.md R197, R198: with no valid entry the scan matches nothing; a candidate of 256 bits or more never matches
again. -/
def Obligations.NothingMatches : Prop :=
  (∀ (tbl : CodeTable) (bits : List Bit), (∀ s : Byte, (tbl.at s).v = false) →
    hasDuplicate tbl = false ∧ scanBits (validCodes tbl) [] bits = ([], bits) ∧
    decodeBits bits tbl = if bits = [] then .ok [] else .error .incompleteCode) ∧
  (∀ (tbl : CodeTable) (cand bits : List Bit), 256 ≤ cand.length →
    scanBits (validCodes tbl) cand bits = ([], cand ++ bits))

/-! ### Whole commands -/

/-- 40_commands.md R105: COMPRESS of a non-empty input runs to completion. It leaves the tree, the table, the bitstream
and the container of the input, or, when the leading-zero count is above 255, HeaderOverflowError with both counts and the
tree kept and all outputs empty. (The empty input is `EmptyInputFails`. `markStale` is the model's form of
70_reset_and_hazards.md R273: DESIGN CHOICE, log 13.) -/
def Obligations.CompressRuns : Prop :=
  ∀ (s : State) (bytes : List Byte), s.busy = false → inputBytes s = some bytes → bytes ≠ [] →
    ∃ (t : Forest) (root : NodeId) (tbl : CodeTable) (bits : List Bit) (s0 : State),
      treeOf (freqOf bytes) = .ok t ∧ t.pq = [root] ∧ encodeBytes bytes = some (.ok (bits, tbl)) ∧
      exec .compress s = .next s0 ∧
      (∀ out, packBits bits = .ok out →
        compressBytes bytes = some (.ok (out, tbl)) ∧
        runCommand s0 = .next (State.markStale { s.encoded bytes t root tbl bits with
          outBuf := memWrite s.outBuf 0 out, outLen := out.length, pad := padCount bits.length,
          lzc := leadingZeros (padBits bits) })) ∧
      (∀ e, packBits bits = .error e →
        e = .headerOverflow ∧ compressBytes bytes = some (.error .headerOverflow) ∧
        runCommand s0 = .next (State.markStale { (s.encoded bytes t root tbl bits).failed .headerOverflow with
          degen := false, pad := padCount bits.length, lzc := leadingZeros (padBits bits), bsLen := 0,
          ct := CodeTable.zero }))

/-- 40_commands.md R106, 44_bit_packer.md R161: ENCODE of a non-empty input runs to completion; it never overflows the
header; every input byte has a valid entry in the table; it leaves the tree, the table and the bitstream of the input and
no bytes. (The empty input is `EmptyInputFails`. `markStale` is the model's form of 70_reset_and_hazards.md R273: DESIGN
CHOICE, log 13.) -/
def Obligations.EncodeRuns : Prop :=
  ∀ (s : State) (bytes : List Byte), s.busy = false → inputBytes s = some bytes → bytes ≠ [] →
    ∃ (t : Forest) (root : NodeId) (tbl : CodeTable) (bits : List Bit) (s0 : State),
      treeOf (freqOf bytes) = .ok t ∧ t.pq = [root] ∧ encodeBytes bytes = some (.ok (bits, tbl)) ∧
      (∀ b ∈ bytes, (tbl.at b).v = true) ∧ bits = (bytes.flatMap fun b => codeBits (tbl.at b)) ∧
      exec .encode s = .next s0 ∧ runCommand s0 = .next (s.encoded bytes t root tbl bits).markStale

/-- 40_commands.md R107, 60_exceptions.md R239: DECOMPRESS runs to completion, and what it leaves: the errors in their
order, or the decoded bytes. (`writeBits` and `markStale` are the model's form of 70_reset_and_hazards.md R273: DESIGN
CHOICE, log 13.) -/
def Obligations.DecompressRuns : Prop :=
  ∀ (s : State) (bytes : List Byte), s.busy = false → inputBytes s = some bytes →
    ∃ s0 : State, exec .decompress s = .next s0 ∧
      (bytes.length < 2 →
        runCommand s0 = .next ({ s.completed with bsLen := 0 }.failed .containerFormat).markStale) ∧
      ∀ (b0 b1 : Byte) (payload : List Byte) (read : State), bytes = b0 :: b1 :: payload →
        read = { s.completed with bsLen := 0, pad := b0.toNat, lzc := b1.toNat } →
        (7 < b0.toNat → runCommand s0 = .next (read.failed .containerFormat).markStale) ∧
        (∀ e, unpackBits bytes = .error e → runCommand s0 = .next (read.failed .containerFormat).markStale) ∧
        ∀ (bits : List Bit) (unpacked : State), unpackBits bytes = .ok bits →
          unpacked = read.writeBits 0 bits →
          (decodeBits bits s.ct = .error .duplicateCode → runCommand s0 = .next (unpacked.failed .duplicateCode).markStale) ∧
          (decodeBits bits s.ct = .error .incompleteCode → ∃ out cand,
            scanBits (validCodes s.ct) [] bits = (out, cand) ∧ cand ≠ [] ∧
            runCommand s0 = .next ({ unpacked with
              outBuf := memWrite s.outBuf 0 out, cand := cand, candLen := cand.length }.failed .incompleteCode).markStale) ∧
          (∀ out, decodeBits bits s.ct = .ok out →
            decompressBytes bytes s.ct = .ok out ∧
            runCommand s0 = .next (State.markStale { unpacked with
              bsLen := bits.length, outBuf := memWrite s.outBuf 0 out, outLen := out.length })) ∧
          (∀ e, decodeBits bits s.ct = .error e → e = .duplicateCode ∨ e = .incompleteCode)

/-- 40_commands.md R108: DECODE runs to completion: DuplicateCodeError, then IncompleteCodeError, or the decoded bytes;
BS, BS_LEN and CT are kept. (`markStale` is the model's form of 70_reset_and_hazards.md R273, DESIGN CHOICE, log 13; it
keeps every content of BS. The premise asks for a bitstream that can be read: the refusal of one that cannot is log 10's;
that a duplicate in the table is found without reading BS is `InvertPhase`.) -/
def Obligations.DecodeRuns : Prop :=
  ∀ (s : State) (bits : List Bit), s.busy = false → bitstream s = some bits →
    ∃ s0 : State, exec .decode s = .next s0 ∧
      (decodeBits bits s.ct = .error .duplicateCode → runCommand s0 = .next (s.completed.failed .duplicateCode).markStale) ∧
      (decodeBits bits s.ct = .error .incompleteCode → ∃ out cand,
        scanBits (validCodes s.ct) [] bits = (out, cand) ∧ cand ≠ [] ∧
        runCommand s0 = .next ({ s.completed with
          outBuf := memWrite s.outBuf 0 out, cand := cand, candLen := cand.length }.failed .incompleteCode).markStale) ∧
      (∀ out, decodeBits bits s.ct = .ok out →
        runCommand s0 =
          .next (State.markStale { s.completed with outBuf := memWrite s.outBuf 0 out, outLen := out.length })) ∧
      (∀ e, decodeBits bits s.ct = .error e → e = .duplicateCode ∨ e = .incompleteCode) ∧
      (bits = [] → hasDuplicate s.ct = false → decodeBits bits s.ct = .ok [])

/-- 70_reset_and_hazards.md R276, 40_commands.md R115, 30_encoding.md R92: a command that the host starts and polls ends.
From an idle block whose host runs `RUN i`, the steps of the machine reach the first statement after it, in the state
`runCommand` gives; POLL has returned STATUS any number of times with BUSY = 1 and DONE = 0, and last with DONE = 1. A
step is one host access or one phase (00_scope.md R6), so each of those reads is a step. The spec gives no count: the bound
of 263 steps beside the reads with DONE = 0 is the model's. It rests on the host as data in the state, one statement a step
(log 3), on finitely many reads of a polling host before each phase, their number a free value (log 7), and on the MERGE
step that leaves one node live going on to DERIVE (log 9). -/
def Obligations.RunReachesCompletion : Prop :=
  ∀ (s : State) (i : Instr) (rest : List Statement),
    i = .compress ∨ i = .encode ∨ i = .decompress ∨ i = .decode →
    s.busy = false → s.phase = .idle → s.script = scriptRun i ++ rest →
    (i ≠ .decode → (inputBytes s).isSome = true) → (i = .decode → (bitstream s).isSome = true) →
    ∃ (n : Nat) (s0 u t : State) (polled : List PortWord),
      n ≤ 263 + polled.length ∧ exec i { s with script := rest } = .next s0 ∧ runCommand s0 = .next u ∧
      Host.Core.run Sys2Proof.core n s = .next t ∧ u.sameBlock t ∧ t.script = rest ∧
      t.reads = s.reads ++ polled ++ [(statusWord t).setWidth 264] ∧
      (∀ w ∈ polled, w.getLsbD 0 = true ∧ w.getLsbD 1 = false) ∧ (statusWord t).getLsbD 1 = true ∧
      t.busy = false ∧ t.done = true ∧ t.phase = .idle

/-! ### Guarantees -/

/-- 48_guarantees.md R210: the round trip through the container. -/
def Obligations.RoundTripContainer : Prop :=
  ∀ bytes : List Byte, 2 ≤ symbolCount bytes →
    (∀ container tbl, compressBytes bytes = some (.ok (container, tbl)) → decompressBytes container tbl = .ok bytes) ∧
    ((∃ container tbl, compressBytes bytes = some (.ok (container, tbl))) ∨
      compressBytes bytes = some (.error .headerOverflow))

/-- 48_guarantees.md R219: the round trip through the bitstream, and what an input of one distinct symbol gives. -/
def Obligations.RoundTripBitstream : Prop :=
  (∀ bytes : List Byte, 2 ≤ symbolCount bytes →
    ∃ bits tbl, encodeBytes bytes = some (.ok (bits, tbl)) ∧ decodeBits bits tbl = .ok bytes) ∧
  (∀ (sym : Byte) (n : Nat), 0 < n →
    ∃ tbl, encodeBytes (List.replicate n sym) = some (.ok ([], tbl)) ∧
      (∀ x, tbl.at x = if x = sym then { v := true, len := 0, code := 0 } else { v := false, len := 0, code := 0 }) ∧
      decodeBits [] tbl = .ok [])

/-- ENCODE followed at once by DECODE, and COMPRESS followed by DECOMPRESS of its container with its table, give the input
back in OUT, when the encoder reported neither an error nor DEGEN (40_commands.md R105 to R108; 48_guarantees.md R210,
R219). -/
def Obligations.BlockRoundTrip : Prop :=
  ∀ (s t : State) (bytes : List Byte), s.busy = false → inputBytes s = some bytes → t.err = false → t.degen = false →
    ((∃ s0, exec .encode s = .next s0 ∧ runCommand s0 = .next t) →
      ∃ t0 v, exec .decode t = .next t0 ∧ runCommand t0 = .next v ∧ v.err = false ∧
        memRead v.outBuf 0 v.outLen = some bytes) ∧
    ((∃ s0, exec .compress s = .next s0 ∧ runCommand s0 = .next t) →
      ∀ u : State, u.busy = false → u.ct = t.ct → inputBytes u = memRead t.outBuf 0 t.outLen →
        ∃ u0 v, exec .decompress u = .next u0 ∧ runCommand u0 = .next v ∧ v.err = false ∧
          memRead v.outBuf 0 v.outLen = some bytes)

/-- 48_guarantees.md R222 and R212: the result of a command is a function of its inputs alone: two runs on equal inputs,
whatever the block held before, leave equal results. -/
def Obligations.ResultDependsOnInputsAlone : Prop :=
  ∀ (s s' t t' : State) (i : Instr), s.busy = false → s'.busy = false →
    (∃ s0, exec i s = .next s0 ∧ runCommand s0 = .next t) → (∃ s0, exec i s' = .next s0 ∧ runCommand s0 = .next t') →
    ((i = .compress ∨ i = .encode) → inputBytes s = inputBytes s' → t.SameEncoding t') ∧
    (i = .decompress → inputBytes s = inputBytes s' → s.ct = s'.ct → t.SameDecoding t') ∧
    (i = .decode → s.bsLen = s'.bsLen → bitstream s = bitstream s' → s.ct = s'.ct → t.SameDecoding t')

end Slice0Obligations
end

