-- ==== Sys2Proof/Laws/Bits.lean ====
section
/-!
SUPPORT. Sys2Proof/Laws/Bits.lean: `val` and `bits_n` are inverse (00_scope.md R10), a CT entry holds the code it was
made from (30_encoding.md R88), and the record words give the records back (R89, R90).
-/

namespace Sys2Proof.Machine

@[simp] theorem bitsOf_length (n v : Nat) : (bitsOf n v).length = n := by
  induction n with
  | zero => rfl
  | succ n ih => simp [bitsOf, ih]

theorem bitsVal_lt (s : List Bit) : bitsVal s < 2 ^ s.length := by
  induction s with
  | nil => simp [bitsVal]
  | cons b s ih => cases b <;> simp [bitsVal, pow_succ] <;> omega

theorem bitsVal_bitsOf (n v : Nat) : bitsVal (bitsOf n v) = v % 2 ^ n := by
  induction n with
  | zero => simp [bitsOf, bitsVal, Nat.mod_one]
  | succ n ih =>
    simp only [bitsOf, bitsVal, bitsOf_length, ih]
    rw [Nat.mod_pow_succ, Nat.testBit_eq_decide_div_mod_eq]
    rcases Nat.mod_two_eq_zero_or_one (v / 2 ^ n) with h | h <;> simp [h, Nat.add_comm]

theorem bitsOf_add_mul (n m v : Nat) (h : n ≤ m) (k : Nat) : bitsOf n (k * 2 ^ m + v) = bitsOf n v := by
  induction n with
  | zero => rfl
  | succ n ih =>
    simp only [bitsOf, ih (by omega), List.cons.injEq, and_true]
    rw [Nat.testBit_eq_decide_div_mod_eq, Nat.testBit_eq_decide_div_mod_eq]
    have h1 : k * 2 ^ m + v = v + 2 ^ n * (k * 2 ^ (m - n - 1) * 2) := by
      have : 2 ^ m = 2 ^ n * (2 ^ (m - n - 1) * 2) := by
        rw [← pow_succ, ← pow_add]; congr 1; omega
      rw [this]; ring
    rw [h1, Nat.add_mul_div_left _ _ (by positivity)]
    congr 1
    rw [Nat.add_mul_mod_self_right]

theorem bitsOf_mod (n v : Nat) : bitsOf n (v % 2 ^ n) = bitsOf n v := by
  conv => rhs; rw [← Nat.div_add_mod v (2 ^ n), Nat.mul_comm]
  exact (bitsOf_add_mul n n (v % 2 ^ n) (le_refl n) (v / 2 ^ n)).symm

theorem bitsOf_bitsVal (s : List Bit) : bitsOf s.length (bitsVal s) = s := by
  induction s with
  | nil => rfl
  | cons b s ih =>
    have hlt := bitsVal_lt s
    simp only [List.length_cons, bitsOf, bitsVal]
    rw [bitsOf_add_mul _ _ _ (le_refl _), ih, Nat.testBit_eq_decide_div_mod_eq]
    congr 1
    rw [Nat.add_comm, Nat.add_mul_div_right _ _ (by positivity), Nat.div_eq_of_lt hlt]
    cases b <;> simp

@[simp] theorem byteBits_length (b : Byte) : (byteBits b).length = 8 := by simp [byteBits]

theorem byteBits_ofNat_bitsVal (s : List Bit) (h : s.length = 8) : byteBits (BitVec.ofNat 8 (bitsVal s)) = s := by
  have hlt := bitsVal_lt s
  rw [byteBits, BitVec.toNat_ofNat, Nat.mod_eq_of_lt (by rw [h] at hlt; simpa using hlt)]
  conv => lhs; rw [← h]
  exact bitsOf_bitsVal s

theorem ofNat_bitsVal_byteBits (b : Byte) : BitVec.ofNat 8 (bitsVal (byteBits b)) = b := by
  rw [byteBits, bitsVal_bitsOf]
  apply BitVec.eq_of_toNat_eq
  have := b.isLt
  simp [Nat.mod_eq_of_lt this]

theorem codeBits_length (e : CtEntry) : (codeBits e).length = e.len.toNat := by simp [codeBits]

theorem codeBits_length_le (e : CtEntry) : (codeBits e).length ≤ 255 := by
  rw [codeBits_length]; have := e.len.isLt; omega

/-- The code an entry was made from is the code it holds (R88). -/
theorem codeBits_entryOfCode (c : List Bit) (h : c.length ≤ 255) : codeBits (entryOfCode c) = c := by
  have hlt : bitsVal c < 2 ^ 255 :=
    lt_of_lt_of_le (bitsVal_lt c) (Nat.pow_le_pow_right (by omega) h)
  have hlen : (BitVec.ofNat 8 c.length).toNat = c.length := by simp; omega
  have hcode : (BitVec.ofNat 255 (bitsVal c)).toNat = bitsVal c := by
    rw [BitVec.toNat_ofNat, Nat.mod_eq_of_lt hlt]
  simp only [codeBits, entryOfCode, hlen, hcode, bitsOf_mod, bitsOf_bitsVal]

@[simp] theorem entryOfCode_v (c : List Bit) : (entryOfCode c).v = true := rfl

theorem getLsbD_packEntry (e : CtEntry) (i : Nat) :
    (packEntry e).getLsbD i =
      if i < 255 then e.code.getLsbD i else if i < 263 then e.len.getLsbD (i - 255) else decide (i = 263) && e.v := by
  have h : (packEntry e).getLsbD i = (BitVec.ofBool e.v ++ e.len ++ e.code : BitVec (1 + 8 + 255)).getLsbD i := rfl
  rw [h, BitVec.getLsbD_append, BitVec.getLsbD_append]
  by_cases h1 : i < 255
  · simp [h1]
  · by_cases h2 : i < 263
    · simp [h1, h2, show i - 255 < 8 by omega]
    · by_cases h3 : i = 263
      · subst h3; simp
      · simp [h1, h2, h3, show ¬ i - 255 < 8 by omega, show i - 255 - 8 ≠ 0 by omega]

/-- The CT record word gives the record back (R89). -/
theorem unpackEntry_packEntry (e : CtEntry) : unpackEntry (packEntry e) = e := by
  obtain ⟨v, len, code⟩ := e
  simp only [unpackEntry, CtEntry.mk.injEq]
  refine ⟨?_, ?_, ?_⟩
  · rw [getLsbD_packEntry]; simp
  · ext i hi
    rw [BitVec.getElem_extractLsb', getLsbD_packEntry, if_neg (by omega), if_pos (by omega),
      show 255 + i - 255 = i by omega, BitVec.getLsbD_eq_getElem hi]
  · ext i hi
    rw [BitVec.getElem_extractLsb', getLsbD_packEntry, if_pos (by omega), Nat.zero_add, BitVec.getLsbD_eq_getElem hi]

/-- Every 264-bit word is the word of its record (R89): a host read of a CT entry returns it as written (U15). -/
theorem packEntry_unpackEntry (w : PortWord) : packEntry (unpackEntry w) = w := by
  apply BitVec.eq_of_getLsbD_eq
  intro i hi
  rw [getLsbD_packEntry]
  by_cases h1 : i < 255
  · simp [h1, unpackEntry]
  · by_cases h2 : i < 263
    · rw [if_neg h1, if_pos h2]
      simp [unpackEntry, show i - 255 < 8 by omega, show 255 + (i - 255) = i by omega]
    · obtain rfl : i = 263 := by omega
      simp [unpackEntry]

end Sys2Proof.Machine
end

