-- ==== Sys2Proof/Laws/Buffer.lean ====
section
/-!
SUPPORT. Sys2Proof/Laws/Buffer.lean: reading and writing buffers (20_memory.md R77): a write is read back, leaves every
other element alone, and keeps the canonical form.
-/

namespace Sys2Proof.Machine

variable {α : Type}

@[simp] theorem bufRead_nil (j : Nat) : bufRead ([] : List (Nat × α)) j = none := rfl

theorem bufRead_cons (c : Nat × α) (b : List (Nat × α)) (j : Nat) :
    bufRead (c :: b) j = if c.1 = j then some c.2 else bufRead b j := by
  by_cases h : c.1 = j <;> simp [bufRead, h]

theorem bufRead_append (b d : List (Nat × α)) (j : Nat) :
    bufRead (b ++ d) j = (bufRead b j).or (bufRead d j) := by
  induction b with
  | nil => simp
  | cons c b ih => by_cases h : c.1 = j <;> simp [bufRead_cons, h, ih]

theorem bufRead_filter (b : List (Nat × α)) (p : Nat → Bool) (j : Nat) :
    bufRead (b.filter fun c => p c.1) j = if p j then bufRead b j else none := by
  induction b with
  | nil => simp
  | cons c b ih =>
    by_cases hc : c.1 = j
    · subst hc
      by_cases hp : p c.1 <;> simp_all [bufRead_cons]
    · by_cases hp : p c.1 <;> simp [bufRead_cons, hp, hc, ih]

@[simp] theorem cellsFrom_length (i : Nat) (vs : List α) : (cellsFrom i vs).length = vs.length := by
  induction vs generalizing i with
  | nil => rfl
  | cons v vs ih => simp [cellsFrom, ih]

@[simp] theorem cellsFrom_fst (i : Nat) (vs : List α) :
    (cellsFrom i vs).map Prod.fst = List.range' i vs.length := by
  induction vs generalizing i with
  | nil => rfl
  | cons v vs ih => simp [cellsFrom, ih, List.range'_succ]

@[simp] theorem cellsFrom_snd (i : Nat) (vs : List α) : (cellsFrom i vs).map Prod.snd = vs := by
  induction vs generalizing i with
  | nil => rfl
  | cons v vs ih => simp [cellsFrom, ih]

theorem mem_cellsFrom_range {i : Nat} {vs : List α} {c : Nat × α} (h : c ∈ cellsFrom i vs) :
    i ≤ c.1 ∧ c.1 < i + vs.length := by
  have : c.1 ∈ (cellsFrom i vs).map Prod.fst := List.mem_map_of_mem h
  simpa using this

theorem bufRead_cellsFrom (i : Nat) (vs : List α) (j : Nat) :
    bufRead (cellsFrom i vs) j = if i ≤ j then vs[j - i]? else none := by
  induction vs generalizing i with
  | nil => simp [cellsFrom]
  | cons v vs ih =>
    simp only [cellsFrom, bufRead_cons, ih]
    by_cases h : i = j
    · subst h; simp
    · by_cases h2 : i + 1 ≤ j
      · have : j - i = (j - (i + 1)) + 1 := by omega
        simp [h, h2, this, show i ≤ j by omega]
      · simp [h, h2, show ¬ i ≤ j by omega]

/-- One element after a MemWrite: the written one inside the run, the old one outside. -/
theorem bufRead_memWrite (b : List (Nat × α)) (i : Nat) (vs : List α) (j : Nat) :
    bufRead (memWrite b i vs) j = if i ≤ j ∧ j < i + vs.length then vs[j - i]? else bufRead b j := by
  unfold memWrite
  rw [bufRead_append, bufRead_append, bufRead_filter b (fun a => decide (a < i)),
    bufRead_filter b (fun a => decide (i + vs.length ≤ a)), bufRead_cellsFrom]
  by_cases h1 : j < i
  · simp [h1, show ¬ i ≤ j by omega, show ¬ i + vs.length ≤ j by omega]
  · by_cases h2 : j < i + vs.length
    · simp [h1, h2, show i ≤ j by omega, show ¬ i + vs.length ≤ j by omega]
    · have : vs[j - i]? = none := by simp; omega
      simp [h1, h2, show i ≤ j by omega, show i + vs.length ≤ j by omega, this]

/-- A MemWrite leaves every element outside its run alone. -/
theorem bufRead_memWrite_outside (b : List (Nat × α)) (i : Nat) (vs : List α) (j : Nat)
    (h : j < i ∨ i + vs.length ≤ j) : bufRead (memWrite b i vs) j = bufRead b j := by
  rw [bufRead_memWrite, if_neg (by omega)]

/-- The canonical form says that addresses strictly rise. -/
theorem bufWf_iff (b : List (Nat × α)) : bufWf b = true ↔ b.Pairwise (fun c d => c.1 < d.1) := by
  induction b with
  | nil => simp [bufWf]
  | cons c b ih => simp [bufWf, ih]

@[simp] theorem bufWf_nil : bufWf ([] : List (Nat × α)) = true := rfl

theorem cellsFrom_pairwise (i : Nat) (vs : List α) : (cellsFrom i vs).Pairwise (fun c d => c.1 < d.1) := by
  induction vs generalizing i with
  | nil => simp [cellsFrom]
  | cons v vs ih =>
    simp only [cellsFrom, List.pairwise_cons]
    exact ⟨fun c hc => (mem_cellsFrom_range hc).1, ih (i + 1)⟩

/-- A MemWrite keeps the canonical form. -/
theorem bufWf_memWrite {b : List (Nat × α)} (h : bufWf b = true) (i : Nat) (vs : List α) :
    bufWf (memWrite b i vs) = true := by
  rw [bufWf_iff] at *
  unfold memWrite
  rw [List.pairwise_append, List.pairwise_append]
  refine ⟨⟨h.filter _, cellsFrom_pairwise i vs, ?_⟩, h.filter _, ?_⟩
  · intro c hc d hd
    have := mem_cellsFrom_range hd
    simp at hc; omega
  · intro c hc d hd
    simp only [List.mem_append, List.mem_filter, decide_eq_true_eq] at hc hd
    rcases hc with hc | hc
    · omega
    · have := mem_cellsFrom_range hc; omega

/-- Every address of a buffer after a MemWrite was there before or lies in the run. -/
theorem mem_memWrite_addr {b : List (Nat × α)} {i : Nat} {vs : List α} {c : Nat × α} (h : c ∈ memWrite b i vs) :
    c ∈ b ∨ (i ≤ c.1 ∧ c.1 < i + vs.length) := by
  simp only [memWrite, List.mem_append, List.mem_filter] at h
  rcases h with (h | h) | h
  · exact .inl h.1
  · exact .inr (mem_cellsFrom_range h)
  · exact .inl h.1

theorem memRead_length {b : List (Nat × α)} {i n : Nat} {vs : List α} (h : memRead b i n = some vs) :
    vs.length = n := by
  simp only [memRead] at h
  split at h
  · rename_i hr
    have := congrArg List.length hr
    cases h
    simpa using this
  · cases h

@[simp] theorem memRead_zero (b : List (Nat × α)) (i : Nat) : memRead b i 0 = some [] := by
  have : b.filter (fun c => decide (i ≤ c.1 ∧ c.1 < i + 0)) = [] := by
    rw [List.filter_eq_nil_iff]; intro c _; simp
  simp only [memRead, this]; simp

/-- What a MemWrite stored, a MemRead of the same run gives back. -/
theorem memRead_memWrite_same (b : List (Nat × α)) (i : Nat) (vs : List α) :
    memRead (memWrite b i vs) i vs.length = some vs := by
  have h1 : (b.filter (fun c => decide (c.1 < i))).filter
      (fun c => decide (i ≤ c.1 ∧ c.1 < i + vs.length)) = [] := by
    rw [List.filter_filter, List.filter_eq_nil_iff]; intro c _; simp; omega
  have h2 : (b.filter (fun c => decide (i + vs.length ≤ c.1))).filter
      (fun c => decide (i ≤ c.1 ∧ c.1 < i + vs.length)) = [] := by
    rw [List.filter_filter, List.filter_eq_nil_iff]; intro c _; simp
  have h3 : (cellsFrom i vs).filter (fun c => decide (i ≤ c.1 ∧ c.1 < i + vs.length)) = cellsFrom i vs := by
    rw [List.filter_eq_self]; intro c hc; simpa using mem_cellsFrom_range hc
  simp only [memRead, memWrite, List.filter_append, h1, h2, h3]
  simp

/-- A MemRead of a run a MemWrite does not touch is what it was. -/
theorem memRead_memWrite_disjoint (b : List (Nat × α)) (i : Nat) (vs : List α) (j n : Nat)
    (h : j + n ≤ i ∨ i + vs.length ≤ j) : memRead (memWrite b i vs) j n = memRead b j n := by
  have key : (memWrite b i vs).filter (fun c => decide (j ≤ c.1 ∧ c.1 < j + n)) =
      b.filter (fun c => decide (j ≤ c.1 ∧ c.1 < j + n)) := by
    have h3 : (cellsFrom i vs).filter (fun c => decide (j ≤ c.1 ∧ c.1 < j + n)) = [] := by
      rw [List.filter_eq_nil_iff]; intro c hc
      have := mem_cellsFrom_range hc
      simp; omega
    simp only [memWrite, List.filter_append, h3, List.filter_filter, List.append_nil]
    clear h3
    rcases h with h | h
    · have e2 : b.filter (fun c => decide (j ≤ c.1 ∧ c.1 < j + n) && decide (i + vs.length ≤ c.1)) = [] := by
        rw [List.filter_eq_nil_iff]; intro c _; simp; omega
      rw [e2, List.append_nil]
      apply List.filter_congr; intro c _; simp; omega
    · have e2 : b.filter (fun c => decide (j ≤ c.1 ∧ c.1 < j + n) && decide (c.1 < i)) = [] := by
        rw [List.filter_eq_nil_iff]; intro c _; simp; omega
      rw [e2, List.nil_append]
      apply List.filter_congr; intro c _; simp; omega
  simp only [memRead, key]

/-- A MemRead that answers, element by element. -/
theorem memRead_getElem {b : List (Nat × α)} {i n : Nat} {vs : List α}
    (h : memRead b i n = some vs) (k : Nat) (hk : k < n) : bufRead b (i + k) = vs[k]? := by
  have hl := memRead_length h
  simp only [memRead] at h
  split at h
  case isFalse => cases h
  case isTrue hr =>
    cases h
    have hread : bufRead (b.filter fun c => decide (i ≤ c.1 ∧ c.1 < i + n)) (i + k) = bufRead b (i + k) := by
      have := bufRead_filter b (fun a => decide (i ≤ a ∧ a < i + n)) (i + k)
      simpa [hk] using this
    rw [← hread]
    generalize hrun : (b.filter fun c => decide (i ≤ c.1 ∧ c.1 < i + n)) = run at *
    clear hrun hread
    induction run generalizing i n k with
    | nil => simp at hl; omega
    | cons c run ih =>
      obtain ⟨m, rfl⟩ : ∃ m, n = m + 1 := ⟨n - 1, by omega⟩
      simp only [List.map_cons, List.range'_succ, List.cons.injEq] at hr
      rw [bufRead_cons]
      cases k with
      | zero => simp [hr.1]
      | succ k =>
        have := ih (i := i + 1) (n := m) k (by omega) hr.2 (by simpa using hl)
        rw [if_neg (by omega), show i + (k + 1) = i + 1 + k by omega, this]
        simp

end Sys2Proof.Machine
end

