-- ==== Sys2Proof/Laws/Files.lean ====
section
/-!
SUPPORT. Sys2Proof/Laws/Files.lean: reading and writing the register files and the live set (10_state.md R38 to R41),
counting (41_frequency_counter.md).
-/

namespace Sys2Proof.Machine

/-! ### Register files -/

theorem toNat_ne_of_ne {s t : Byte} (h : s ≠ t) : s.toNat ≠ t.toNat := fun h' => h (BitVec.eq_of_toNat_eq h')

@[simp] theorem FreqFile.at_bump (f : FreqFile) (s t : Byte) :
    (f.bump s).at t = f.at t + if s = t then 1 else 0 := by
  unfold FreqFile.bump FreqFile.at
  rw [Vector.getElem_set]
  by_cases h : s = t
  · subst h; simp
  · simp [toNat_ne_of_ne h, h]

@[simp] theorem FreqFile.at_zero (s : Byte) : FreqFile.zero.at s = 0 := by simp [FreqFile.at, FreqFile.zero]

@[simp] theorem CodeTable.at_put (tbl : CodeTable) (s t : Byte) (e : CtEntry) :
    (tbl.put s e).at t = if s = t then e else tbl.at t := by
  unfold CodeTable.put CodeTable.at
  rw [Vector.getElem_set]
  by_cases h : s = t
  · subst h; simp
  · simp [toNat_ne_of_ne h, h]

@[simp] theorem CodeTable.at_zero (s : Byte) : CodeTable.zero.at s = CtEntry.zero := by
  simp [CodeTable.at, CodeTable.zero]

@[simp] theorem NodeFile.at_put (n : NodeFile) (i j : NodeId) (r : Node) :
    (n.put i r).at j = if i = j then r else n.at j := by
  unfold NodeFile.put NodeFile.at
  rw [Vector.getElem_set]
  by_cases h : i = j
  · subst h; simp
  · simp [Fin.val_ne_of_ne h, h]

@[simp] theorem NodeFile.at_zero (i : NodeId) : NodeFile.zero.at i = Node.zero := by
  simp [NodeFile.at, NodeFile.zero]

theorem CodeTable.ext_at {c d : CodeTable} (h : ∀ s, c.at s = d.at s) : c = d := by
  apply Vector.ext
  intro i hi
  have := h (BitVec.ofNat 8 i)
  simpa [CodeTable.at, Nat.mod_eq_of_lt hi] using this

/-! ### Symbols -/

@[simp] theorem mem_allSymbols (s : Byte) : s ∈ allSymbols := by
  rw [allSymbols, List.mem_map]
  exact ⟨s.toNat, List.mem_range.2 s.isLt, by simp⟩

theorem allSymbols_nodup : allSymbols.Nodup := by
  rw [allSymbols]
  apply List.Nodup.map_on _ List.nodup_range
  intro x hx y hy h
  rw [List.mem_range] at hx hy
  have := congrArg BitVec.toNat h
  simpa [Nat.mod_eq_of_lt hx, Nat.mod_eq_of_lt hy] using this

@[simp] theorem allSymbols_length : allSymbols.length = 256 := by simp [allSymbols]

/-! ### The live set -/

theorem mem_pqSet {pq : List NodeId} {i j : NodeId} : j ∈ pqSet pq i ↔ j = i ∨ j ∈ pq := by
  induction pq with
  | nil => simp [pqSet]
  | cons k pq ih =>
    unfold pqSet
    split
    · simp
    · split
      · rename_i h; subst h; simp
      · simp [ih]; tauto

/-- Setting a bit keeps the live set ascending, each id once. -/
theorem pqSet_sorted {pq : List NodeId} (h : pq.Pairwise (· < ·)) (i : NodeId) : (pqSet pq i).Pairwise (· < ·) := by
  induction pq with
  | nil => simp [pqSet]
  | cons k pq ih =>
    rw [List.pairwise_cons] at h
    unfold pqSet
    split
    · rename_i hik
      rw [List.pairwise_cons, List.pairwise_cons]
      exact ⟨fun a ha => by
        rcases List.mem_cons.1 ha with rfl | ha
        · exact hik
        · exact lt_trans hik (h.1 a ha), h⟩
    · split
      · rw [List.pairwise_cons]; exact h
      · rename_i h1 h2
        rw [List.pairwise_cons]
        refine ⟨fun a ha => ?_, ih h.2⟩
        rcases mem_pqSet.1 ha with rfl | ha
        · exact lt_of_le_of_ne (not_lt.1 h1) (Ne.symm h2)
        · exact h.1 a ha

/-- An id above every live one is set at the end. -/
theorem pqSet_of_lt {pq : List NodeId} {i : NodeId} (h : ∀ j ∈ pq, j < i) : pqSet pq i = pq ++ [i] := by
  induction pq with
  | nil => rfl
  | cons k pq ih =>
    have hk := h k (by simp)
    unfold pqSet
    rw [if_neg (not_lt.2 hk.le), if_neg (ne_of_gt hk), ih fun j hj => h j (by simp [hj])]
    rfl

theorem mem_pqClear {pq : List NodeId} {i j : NodeId} : j ∈ pqClear pq i ↔ j ∈ pq ∧ j ≠ i := by
  simp [pqClear]

theorem pqClear_sorted {pq : List NodeId} (h : pq.Pairwise (· < ·)) (i : NodeId) :
    (pqClear pq i).Pairwise (· < ·) := h.filter _

theorem sorted_nodup {pq : List NodeId} (h : pq.Pairwise (· < ·)) : pq.Nodup :=
  h.imp fun hab => ne_of_lt hab

/-- Clearing a live bit takes one id out. -/
theorem pqClear_length {pq : List NodeId} (h : pq.Nodup) {i : NodeId} (hi : i ∈ pq) :
    (pqClear pq i).length + 1 = pq.length := by
  have : pqClear pq i = pq.erase i := by rw [h.erase_eq_filter]; rfl
  rw [this, List.length_erase_of_mem hi]
  have := List.length_pos_of_mem hi
  omega

/-- A live node's weight is its share of the sum over the live nodes. -/
theorem sum_pqClear {pq : List NodeId} (h : pq.Nodup) {i : NodeId} (hi : i ∈ pq) (w : NodeId → Nat) :
    w i + ((pqClear pq i).map w).sum = (pq.map w).sum := by
  induction pq with
  | nil => cases hi
  | cons k pq ih =>
    rw [List.nodup_cons] at h
    by_cases hk : k = i
    · subst hk
      have : pqClear (k :: pq) k = pq := by
        simp only [pqClear, List.filter_cons, bne_self_eq_false, Bool.false_eq_true, if_false]
        rw [List.filter_eq_self]
        intro a ha
        simp only [bne_iff_ne, ne_eq]
        rintro rfl
        exact h.1 ha
      simp [this]
    · have hi' : i ∈ pq := by simpa [Ne.symm hk] using hi
      have : pqClear (k :: pq) i = k :: pqClear pq i := by simp [pqClear, hk]
      have := ih h.2 hi'
      simp_all; omega

/-! ### Counting (41_frequency_counter.md R120, R121) -/

/-- After counting, each counter has gone up by the number of occurrences of its symbol. -/
theorem countBytes_at (f : FreqFile) (bytes : List Byte) (s : Byte) :
    (countBytes f bytes).at s = f.at s + bytes.count s := by
  induction bytes generalizing f with
  | nil => simp [countBytes]
  | cons b bytes ih =>
    rw [countBytes, ih, FreqFile.at_bump, List.count_cons]
    simp only [beq_iff_eq]
    omega

theorem freqOf_at (bytes : List Byte) (s : Byte) : (freqOf bytes).at s = bytes.count s := by
  simp [freqOf, countBytes_at]

theorem FreqFile.sum_bump (f : FreqFile) (s : Byte) : (f.bump s).sum = f.sum + 1 := by
  have key : ∀ l : List Byte, l.Nodup → (l.map (f.bump s).at).sum = (l.map f.at).sum + if s ∈ l then 1 else 0 := by
    intro l hl
    induction l with
    | nil => simp
    | cons a l ih =>
      rw [List.nodup_cons] at hl
      by_cases h : s = a
      · subst h
        simp [ih hl.2, hl.1]; omega
      · simp [ih hl.2, h]; omega
  rw [FreqFile.sum, FreqFile.sum, key allSymbols allSymbols_nodup, if_pos (mem_allSymbols s)]

/-- The counts add up to the number of bytes counted (R121). -/
theorem countBytes_sum (f : FreqFile) (bytes : List Byte) : (countBytes f bytes).sum = f.sum + bytes.length := by
  induction bytes generalizing f with
  | nil => rw [countBytes, List.length_nil, Nat.add_zero]
  | cons b bytes ih => rw [countBytes, ih, FreqFile.sum_bump, List.length_cons]; omega

theorem FreqFile.sum_zero : FreqFile.zero.sum = 0 := by
  apply List.sum_eq_zero
  intro x hx
  obtain ⟨s, _, rfl⟩ := List.mem_map.1 hx
  simp

theorem freqOf_sum (bytes : List Byte) : (freqOf bytes).sum = bytes.length := by
  rw [freqOf, countBytes_sum, FreqFile.sum_zero, Nat.zero_add]

/-- One counter is at most the sum. -/
theorem FreqFile.at_le_sum (f : FreqFile) (s : Byte) : f.at s ≤ f.sum :=
  List.single_le_sum (by simp) _ (List.mem_map_of_mem (mem_allSymbols s))

end Sys2Proof.Machine
end

