-- ==== Sys2Proof/Laws/Tree.lean ====
section
/-!
SUPPORT. Sys2Proof/Laws/Tree.lean: the Tree Builder: the priority order (42_tree_builder.md R131), what LEAVES, ExtractMin
and one MERGE iteration can do (R130, R132, R133), and that each keeps the forest good (R136 to R140).
-/

namespace Sys2Proof.Machine

/-! ### The priority order -/

theorem before_iff (node : NodeFile) (i j : NodeId) :
    before node i j = true ↔
      (node.at i).weight < (node.at j).weight ∨
        ((node.at i).weight = (node.at j).weight ∧ i.val < j.val) := by
  simp [before]

theorem before_trans {node : NodeFile} {i j k : NodeId} (h1 : before node i j = true) (h2 : before node j k = true) :
    before node i k = true := by
  have h1' := (before_iff node i j).1 h1
  have h2' := (before_iff node j k).1 h2
  rw [before_iff]
  omega

/-- The order is total on distinct nodes (R131). -/
theorem before_total {node : NodeFile} {i j : NodeId} (h : i ≠ j) (h' : before node i j = false) :
    before node j i = true := by
  rw [before_iff]
  have := (before_iff node i j).not.1 (by simp [h'])
  have hne : i.val ≠ j.val := Fin.val_ne_of_ne h
  omega

/-- The least node of a list is in it and before every other (R132). -/
theorem leastNode_spec (node : NodeFile) (l : List NodeId) :
    (leastNode node l = none ∧ l = []) ∨
      ∃ a ∈ l, leastNode node l = some a ∧ ∀ j ∈ l, j ≠ a → before node a j = true := by
  induction l with
  | nil => exact .inl ⟨rfl, rfl⟩
  | cons i l ih =>
    right
    rcases ih with ⟨hn, rfl⟩ | ⟨a, ha, hs, hmin⟩
    · exact ⟨i, by simp, by simp [leastNode], by simp⟩
    · by_cases hb : before node i a = true
      · refine ⟨i, by simp, by simp [leastNode, hs, hb], fun j hj hne => ?_⟩
        rcases List.mem_cons.1 hj with rfl | hj
        · exact absurd rfl hne
        · by_cases hja : j = a
          · subst hja; exact hb
          · exact before_trans hb (hmin j hj hja)
      · refine ⟨a, by simp [ha], by simp [leastNode, hs, hb], fun j hj hne => ?_⟩
        rcases List.mem_cons.1 hj with rfl | hj
        · exact before_total hne (by simpa using hb)
        · exact hmin j hj hne

/-- What ExtractMin does (R132): it takes the live node that is before every other; it fails only with none live. -/
theorem extractMin_spec (t : Forest) :
    (t.pq = [] ∧ extractMin t = .error .noLiveNode) ∨
      ∃ a ∈ t.pq, extractMin t = .ok (a, { t with pq := pqClear t.pq a }) ∧
        ∀ j ∈ t.pq, j ≠ a → before t.node a j = true := by
  rcases leastNode_spec t.node t.pq with ⟨hn, hnil⟩ | ⟨a, ha, hs, hmin⟩
  · exact .inl ⟨hnil, by simp [extractMin, hn]⟩
  · exact .inr ⟨a, ha, by simp [extractMin, hs], hmin⟩

/-! ### Insertion -/

/-- What inserting a node does (R130, R133): it fails only when the arena is full. -/
theorem Forest.insert_spec (t : Forest) (n : Node) :
    (511 ≤ t.nnodes ∧ t.insert n = .error .arenaFull) ∨
      ∃ h : t.nnodes < 511, t.insert n =
        .ok { node := t.node.put ⟨t.nnodes, h⟩ n, pq := pqSet t.pq ⟨t.nnodes, h⟩, nnodes := t.nnodes + 1 } := by
  by_cases h : t.nnodes < 511
  · exact .inr ⟨h, by simp [Forest.insert, h]⟩
  · exact .inl ⟨by omega, by simp [Forest.insert, h]⟩

/-! ### LEAVES (R130) -/

/-- What the leaf loop leaves: one leaf for each present symbol, in the order of the list, after the nodes there were;
the live set grows by exactly these (R130, R138). -/
theorem insertLeaves_spec (f : FreqFile) (syms : List Byte) (t : Forest)
    (hlive : ∀ i ∈ t.pq, i.val < t.nnodes)
    (hroom : t.nnodes + (syms.filter fun s => 0 < f.at s).length ≤ 511) :
    ∃ t', insertLeaves f syms t = .ok t' ∧
      t'.nnodes = t.nnodes + (syms.filter fun s => 0 < f.at s).length ∧
      (∀ i : NodeId, i.val < t.nnodes → t'.node.at i = t.node.at i) ∧
      (∀ (k : Nat) (s : Byte), (syms.filter fun s => 0 < f.at s)[k]? = some s → ∀ i : NodeId, i.val = t.nnodes + k →
        t'.node.at i = leafNode s (f.at s)) ∧
      (∀ i : NodeId, t.nnodes + (syms.filter fun s => 0 < f.at s).length ≤ i.val → t'.node.at i = t.node.at i) ∧
      t'.pq.map Fin.val = t.pq.map Fin.val ++ List.range' t.nnodes (syms.filter fun s => 0 < f.at s).length := by
  induction syms generalizing t with
  | nil => exact ⟨t, rfl, by simp, by simp, by simp, by simp, by simp⟩
  | cons s syms ih =>
    by_cases hs : 0 < f.at s
    · have hfil : (s :: syms).filter (fun s => decide (0 < f.at s)) = s :: syms.filter fun s => 0 < f.at s := by
        simp [hs]
      rw [hfil] at hroom ⊢
      rw [List.length_cons] at hroom
      rcases t.insert_spec (leafNode s (f.at s)) with ⟨h, _⟩ | ⟨h, hins⟩
      · omega
      · have hset : pqSet t.pq ⟨t.nnodes, h⟩ = t.pq ++ [⟨t.nnodes, h⟩] :=
          pqSet_of_lt fun j hj => hlive j hj
        rw [hset] at hins
        obtain ⟨t', ht', hnn, hold, hnew, hrest, hpq⟩ := ih
          { node := t.node.put ⟨t.nnodes, h⟩ (leafNode s (f.at s)), pq := t.pq ++ [⟨t.nnodes, h⟩],
            nnodes := t.nnodes + 1 }
          (by intro i hi; simp only [List.mem_append, List.mem_singleton] at hi
              rcases hi with hi | rfl
              · have := hlive i hi; simp; omega
              · simp)
          (by simp; omega)
        refine ⟨t', by simp only [insertLeaves, if_pos hs, hins]; exact ht', ?_, ?_, ?_, ?_, ?_⟩
        · simp only at hnn; rw [hnn, List.length_cons]; omega
        · intro i hi
          rw [hold i (by simp; omega), NodeFile.at_put, if_neg]
          rintro rfl; simp at hi
        · intro k u hk i hi
          cases k with
          | zero =>
            simp only [List.getElem?_cons_zero, Option.some.injEq] at hk
            subst hk
            obtain rfl : i = ⟨t.nnodes, h⟩ := Fin.ext (by simpa using hi)
            rw [hold _ (by simp), NodeFile.at_put, if_pos rfl]
          | succ k =>
            exact hnew k u (by simpa using hk) i (by simp; omega)
        · intro i hi
          simp only [List.length_cons] at hi
          rw [hrest i (by simp only; omega), NodeFile.at_put, if_neg]
          rintro rfl; simp at hi
        · rw [hpq]; simp [List.range'_succ]
    · have hfil : (s :: syms).filter (fun s => decide (0 < f.at s)) = syms.filter fun s => 0 < f.at s := by
        simp [hs]
      rw [hfil] at hroom ⊢
      simpa [insertLeaves, hs] using ih t hlive hroom

theorem presentSymbols_length_le (f : FreqFile) : (presentSymbols f).length ≤ 256 := by
  have := List.length_filter_le (fun s => decide (0 < f.at s)) allSymbols
  simpa [presentSymbols] using this

theorem mem_presentSymbols (f : FreqFile) (s : Byte) : s ∈ presentSymbols f ↔ 0 < f.at s := by
  simp [presentSymbols]

/-- What LEAVES builds from the empty forest (R130, R138): leaf i is the i-th present symbol with its count. -/
theorem insertLeaves_empty (f : FreqFile) :
    ∃ t, insertLeaves f allSymbols Forest.empty = .ok t ∧
      t.nnodes = (presentSymbols f).length ∧
      (∀ (k : Nat) (s : Byte), (presentSymbols f)[k]? = some s → ∀ i : NodeId, i.val = k →
        t.node.at i = leafNode s (f.at s)) ∧
      (∀ i : NodeId, (presentSymbols f).length ≤ i.val → t.node.at i = Node.zero) ∧
      t.pq.map Fin.val = List.range (presentSymbols f).length := by
  obtain ⟨t, h1, h2, _, h4, h5, h6⟩ := insertLeaves_spec f allSymbols Forest.empty (by simp [Forest.empty])
    (by have := presentSymbols_length_le f; simp [Forest.empty]; unfold presentSymbols at this; omega)
  refine ⟨t, h1, by simpa [Forest.empty, presentSymbols] using h2, fun k s hk i hi => h4 k s hk i (by simpa [Forest.empty] using hi),
    fun i hi => ?_, ?_⟩
  · rw [h5 i (by simpa [Forest.empty, presentSymbols] using hi)]; simp [Forest.empty]
  · rw [h6, List.range_eq_range']; simp [Forest.empty, presentSymbols]

/-! ### The forest stays good -/

theorem LeafBelow.mono {node node' : NodeFile} {n : Nat}
    (hsame : ∀ i : NodeId, i.val < n → node'.at i = node.at i)
    (hchild : ∀ i : NodeId, i.val < n → (node.at i).leaf = false →
      (node.at i).left.val < n ∧ (node.at i).right.val < n)
    {s : Byte} {i : NodeId} {path : List Bit} (h : LeafBelow node s i path) (hi : i.val < n) :
    LeafBelow node' s i path := by
  induction h with
  | here hv hl hs => exact .here (by rw [hsame _ hi]; exact hv) (by rw [hsame _ hi]; exact hl) (by rw [hsame _ hi]; exact hs)
  | left hv hl _ ih =>
    have := (hchild _ hi hl).1
    exact .left (by rw [hsame _ hi]; exact hv) (by rw [hsame _ hi]; exact hl) (by rw [hsame _ hi]; exact ih this)
  | right hv hl _ ih =>
    have := (hchild _ hi hl).2
    exact .right (by rw [hsame _ hi]; exact hv) (by rw [hsame _ hi]; exact hl) (by rw [hsame _ hi]; exact ih this)

theorem Forest.Good.length_le {f : FreqFile} {k : Nat} {t : Forest} (h : t.Good f k) : t.pq.length ≤ k := by
  have := h.balance; have := h.leaves_le; omega

theorem Forest.Good.children {f : FreqFile} {k : Nat} {t : Forest} (h : t.Good f k) (i : NodeId)
    (hi : i.val < t.nnodes) (hl : (t.node.at i).leaf = false) :
    k ≤ i.val ∧ (t.node.at i).left < i ∧ (t.node.at i).right < i := by
  have hk : ¬ i.val < k := fun hlt => by simpa [hl] using (h.isLeaf i hi).2 hlt
  exact ⟨by omega, h.child_lt i (by omega) hi⟩

/-- LEAVES leaves a good forest when a symbol is present (R130, R137, R138). -/
theorem insertLeaves_good (f : FreqFile) (t : Forest) (h : insertLeaves f allSymbols Forest.empty = .ok t)
    (hpos : 0 < t.nnodes) : t.Good f t.nnodes := by
  obtain ⟨t', ht', hnn, hnode, _, hpq⟩ := insertLeaves_empty f
  rw [h] at ht'
  cases ht'
  have hmem : ∀ i : NodeId, i ∈ t.pq ↔ i.val < t.nnodes := by
    intro i
    rw [hnn, ← List.mem_range, ← hpq]
    constructor
    · exact fun hi => List.mem_map_of_mem hi
    · intro hi
      obtain ⟨j, hj, hji⟩ := List.mem_map.1 hi
      rwa [← Fin.ext hji]
  have hlen : t.pq.length = t.nnodes := by
    have := congrArg List.length hpq
    simpa [hnn] using this
  have hget : ∀ i : NodeId, i.val < t.nnodes → ∃ s, (presentSymbols f)[i.val]? = some s ∧
      t.node.at i = leafNode s (f.at s) := by
    intro i hi
    refine ⟨(presentSymbols f)[i.val]'(by omega), by simp, ?_⟩
    exact hnode i.val _ (by simp) i rfl
  have hle := presentSymbols_length_le f
  have hnopar : ∀ p i : NodeId, ¬ t.Parent t.nnodes p i := by
    rintro p i ⟨h1, h2, _⟩; omega
  refine ⟨by omega, ?_, le_refl _, by omega, ?_, fun i hi => (hmem i).1 hi, ?_, ?_, ?_, ?_, ?_, ?_, ?_, ?_, ?_, ?_, ?_,
    ?_⟩
  · intro hnil; rw [hnil] at hlen; simp at hlen; omega
  · have : (t.pq.map Fin.val).Pairwise (· < ·) := by rw [hpq]; exact List.pairwise_lt_range
    rw [List.pairwise_map] at this
    exact this
  · intro i hi; obtain ⟨s, _, hs⟩ := hget i hi; rw [hs]; rfl
  · intro i hi; obtain ⟨s, _, hs⟩ := hget i hi; rw [hs]; simp [leafNode, hi]
  · intro i h1 h2; omega
  · intro i hi
    obtain ⟨s, hks, hs⟩ := hget i hi
    have hmem' : s ∈ presentSymbols f := List.mem_of_getElem? hks
    rw [hs]
    exact ⟨(mem_presentSymbols f s).1 hmem', rfl⟩
  · intro i j hi hj hij
    obtain ⟨s, hks, hs⟩ := hget i hi
    obtain ⟨u, hku, hu⟩ := hget j hj
    rw [hs, hu] at hij
    obtain rfl : s = u := hij
    have hnd : (presentSymbols f).Nodup := allSymbols_nodup.filter _
    exact Fin.ext ((List.getElem?_inj (by omega) hnd).1 (hks.trans hku.symm))
  · intro i h1 h2; omega
  · exact ⟨⟨t.nnodes - 1, by omega⟩, (hmem _).2 (by simp only; omega), by simp only; omega⟩
  · intro i hi
    exact ⟨fun _ p => hnopar p i, fun _ => (hmem i).2 hi⟩
  · intro p q i hp; exact absurd hp (hnopar p i)
  · intro p h1 h2; omega
  · intro s hs
    obtain ⟨k, hk⟩ := List.mem_iff_getElem?.1 ((mem_presentSymbols f s).2 hs)
    have hkl : k < (presentSymbols f).length := by
      by_contra hc
      rw [List.getElem?_eq_none (by omega)] at hk
      cases hk
    have hn := hnode k s hk ⟨k, by omega⟩ rfl
    exact ⟨⟨k, by omega⟩, (hmem _).2 (by simp; omega), [], .here (by rw [hn]; rfl) (by rw [hn]; rfl) (by rw [hn]; rfl)⟩
  · have e1 : t.pq.map (fun i => (t.node.at i).weight) = (presentSymbols f).map f.at := by
      apply List.ext_getElem?
      intro k
      by_cases hk : k < t.pq.length
      · have hv : (t.pq[k]).val = k := by
          have := congrArg (fun l => l[k]?) hpq
          simpa [hk, show k < (presentSymbols f).length by omega] using this
        have hk2 : k < (presentSymbols f).length := by omega
        have := hnode k (presentSymbols f)[k] (by simp [hk2]) t.pq[k] hv
        simp [hk, hk2, this, leafNode]
      · rw [List.getElem?_eq_none (by simp; omega), List.getElem?_eq_none (by simp; omega)]
    rw [e1]
    unfold presentSymbols FreqFile.sum
    generalize allSymbols = l
    induction l with
    | nil => rfl
    | cons a l ih =>
      by_cases ha : 0 < f.at a
      · simp [ha, ih]
      · simp [ha, ih]; omega

/-- What one MERGE iteration does to a good forest with more than one live node (R133): the two least nodes `a`, then
`b`, become the children of the new node, and the forest stays good with one live node fewer. -/
theorem mergeOnce_good {f : FreqFile} {k : Nat} {t : Forest} (h : t.Good f k) (hmany : 1 < t.pq.length) :
    ∃ (a b i : NodeId) (t' : Forest),
      a ∈ t.pq ∧ b ∈ t.pq ∧ a ≠ b ∧ i.val = t.nnodes ∧
      (∀ j ∈ t.pq, j ≠ a → before t.node a j = true) ∧
      (∀ j ∈ t.pq, j ≠ a → j ≠ b → before t.node b j = true) ∧
      mergeOnce t = .ok t' ∧
      t' = { node := t.node.put i (innerNode t.node a b), pq := pqClear (pqClear t.pq a) b ++ [i],
             nnodes := t.nnodes + 1 } ∧
      t'.pq.length + 1 = t.pq.length ∧ t'.Good f k := by
  have hnd := sorted_nodup h.sorted
  rcases extractMin_spec t with ⟨hnil, _⟩ | ⟨a, ha, hea, hmina⟩
  · exact absurd hnil h.live
  have hlen1 := pqClear_length hnd ha
  rcases extractMin_spec { t with pq := pqClear t.pq a } with ⟨hnil, _⟩ | ⟨b, hb, heb, hminb⟩
  · simp only at hnil; rw [hnil] at hlen1; simp at hlen1; omega
  simp only at hb heb hminb
  obtain ⟨hb', hba⟩ := mem_pqClear.1 hb
  have hnd1 := sorted_nodup (pqClear_sorted h.sorted a)
  have hlen2 := pqClear_length hnd1 hb
  have hroom : t.nnodes < 511 := by
    have := h.balance; have := h.bound; omega
  have hlt : ∀ j ∈ pqClear (pqClear t.pq a) b, j < (⟨t.nnodes, hroom⟩ : NodeId) := by
    intro j hj
    exact h.live_lt j (mem_pqClear.1 (mem_pqClear.1 hj).1).1
  have hins : Forest.insert { t with pq := pqClear (pqClear t.pq a) b } (innerNode t.node a b) =
      .ok { node := t.node.put ⟨t.nnodes, hroom⟩ (innerNode t.node a b),
            pq := pqClear (pqClear t.pq a) b ++ [⟨t.nnodes, hroom⟩], nnodes := t.nnodes + 1 } := by
    rcases Forest.insert_spec { t with pq := pqClear (pqClear t.pq a) b } (innerNode t.node a b) with ⟨hf, _⟩ | ⟨_, he⟩
    · simp only at hf; omega
    · rw [he]; simp only [pqSet_of_lt hlt]
  have hsame : ∀ j : NodeId, j.val < t.nnodes →
      (t.node.put ⟨t.nnodes, hroom⟩ (innerNode t.node a b)).at j = t.node.at j := by
    intro j hj
    rw [NodeFile.at_put, if_neg]
    rintro rfl; simp at hj
  have hnew : (t.node.put ⟨t.nnodes, hroom⟩ (innerNode t.node a b)).at ⟨t.nnodes, hroom⟩ = innerNode t.node a b := by
    simp
  have hchild : ∀ j : NodeId, j.val < t.nnodes → (t.node.at j).leaf = false →
      (t.node.at j).left.val < t.nnodes ∧ (t.node.at j).right.val < t.nnodes := by
    intro j hj hl
    have hc := (h.children j hj hl).2
    have h1 : (t.node.at j).left.val < j.val := hc.1
    have h2 : (t.node.at j).right.val < j.val := hc.2
    omega
  have hla := h.live_lt a ha
  have hlb := h.live_lt b hb'
  refine ⟨a, b, ⟨t.nnodes, hroom⟩, _, ha, hb', hba.symm, rfl, hmina,
    fun j hj h1 h2 => hminb j (mem_pqClear.2 ⟨hj, h1⟩) h2, ?_, rfl, by simp; omega, ?_⟩
  · simp only [mergeOnce, hea, heb]; exact hins
  · have hle := h.leaves_le
    have hcases : ∀ j : NodeId, j.val < t.nnodes + 1 → j.val < t.nnodes ∨ j = ⟨t.nnodes, hroom⟩ := by
      intro j hj
      by_cases hjn : j.val < t.nnodes
      · exact .inl hjn
      · exact .inr (Fin.ext (by simp; omega))
    have hpar : ∀ p j : NodeId, Forest.Parent k
        { node := t.node.put ⟨t.nnodes, hroom⟩ (innerNode t.node a b), pq := pqClear (pqClear t.pq a) b ++ [⟨t.nnodes, hroom⟩],
          nnodes := t.nnodes + 1 } p j ↔ t.Parent k p j ∨ (p = ⟨t.nnodes, hroom⟩ ∧ (j = a ∨ j = b)) := by
      intro p j
      unfold Forest.Parent
      constructor
      · rintro ⟨h1, h2, h3⟩
        rcases hcases p h2 with hp | rfl
        · rw [hsame p hp] at h3; exact .inl ⟨h1, hp, h3⟩
        · rw [hnew] at h3
          simp only [innerNode] at h3
          exact .inr ⟨rfl, by tauto⟩
      · rintro (⟨h1, h2, h3⟩ | ⟨rfl, h3⟩)
        · exact ⟨h1, by simp only; omega, by rw [hsame p h2]; exact h3⟩
        · refine ⟨hle, by simp, ?_⟩
          rw [hnew]; simp only [innerNode]; tauto
    have hpar_lt : ∀ p j : NodeId, t.Parent k p j → j.val < t.nnodes := by
      rintro p j ⟨h1, h2, h3⟩
      have := h.child_lt p h1 h2
      rcases h3 with rfl | rfl
      · have h4 : (t.node.at p).left.val < p.val := this.1
        omega
      · have h4 : (t.node.at p).right.val < p.val := this.2
        omega
    refine ⟨?_, by simp, by simp; omega, h.bound, ?_, ?_, ?_, ?_, ?_, ?_, ?_, ?_, ?_, ?_, ?_, ?_, ?_, ?_⟩
    · have := h.balance; simp; omega
    · simp only [List.pairwise_append, List.pairwise_cons, List.not_mem_nil, false_imp_iff, implies_true,
        List.Pairwise.nil, and_self, true_and, List.mem_singleton, forall_eq]
      exact ⟨pqClear_sorted (pqClear_sorted h.sorted a) b, hlt⟩
    · intro j hj
      simp only [List.mem_append, List.mem_singleton] at hj
      rcases hj with hj | rfl
      · have := hlt j hj
        have h2 : j.val < t.nnodes := this
        simp only; omega
      · simp
    · intro j hj
      by_cases hjn : j.val < t.nnodes
      · rw [hsame j hjn]; exact h.valid j hjn
      · obtain rfl : j = ⟨t.nnodes, hroom⟩ := Fin.ext (by simp at hj ⊢; omega)
        rw [hnew]; rfl
    · intro j hj
      by_cases hjn : j.val < t.nnodes
      · rw [hsame j hjn]; exact h.isLeaf j hjn
      · obtain rfl : j = ⟨t.nnodes, hroom⟩ := Fin.ext (by simp at hj ⊢; omega)
        rw [hnew]
        have := h.leaves_le
        simp [innerNode]; omega
    · intro j hk hj
      by_cases hjn : j.val < t.nnodes
      · rw [hsame j hjn]; exact h.child_lt j hk hjn
      · obtain rfl : j = ⟨t.nnodes, hroom⟩ := Fin.ext (by simp at hj ⊢; omega)
        rw [hnew]
        exact ⟨hla, hlb⟩
    · intro j hj
      rw [hsame j (by omega)]; exact h.leaf_count j hj
    · intro i j hi hj
      rw [hsame i (by omega), hsame j (by omega)]; exact h.leaf_inj i j hi hj
    · intro j hk hj
      rcases hcases j hj with hjn | rfl
      · have hc := h.child_lt j hk hjn
        have h1 : (t.node.at j).left.val < j.val := hc.1
        have h2 : (t.node.at j).right.val < j.val := hc.2
        rw [hsame j hjn, hsame _ (by omega), hsame _ (by omega)]
        exact h.inner_weight j hk hjn
      · rw [hnew]
        show (t.node.at a).weight + (t.node.at b).weight = _
        rw [show (innerNode t.node a b).left = a from rfl, show (innerNode t.node a b).right = b from rfl,
          hsame a hla, hsame b hlb]
    · exact ⟨⟨t.nnodes, hroom⟩, by simp, rfl⟩
    · intro j hj
      simp only [hpar, List.mem_append, mem_pqClear, List.mem_singleton]
      rcases hcases j hj with hjn | rfl
      · have hne : j ≠ ⟨t.nnodes, hroom⟩ := by rintro rfl; simp at hjn
        have := h.orphan j hjn
        constructor
        · rintro (⟨⟨h1, h2⟩, h3⟩ | h1)
          · rintro p (hp | ⟨_, hp | hp⟩)
            · exact this.1 h1 p hp
            · exact h2 hp
            · exact h3 hp
          · exact absurd h1 hne
        · intro hno
          have h1 : j ∈ t.pq := this.2 fun p hp => hno p (.inl hp)
          exact .inl ⟨⟨h1, fun e => hno _ (.inr ⟨rfl, .inl e⟩)⟩, fun e => hno _ (.inr ⟨rfl, .inr e⟩)⟩
      · refine ⟨fun _ p hp => ?_, fun _ => .inr rfl⟩
        rcases hp with hp | ⟨_, hp | hp⟩
        · have := hpar_lt p _ hp; simp at this
        · rw [← hp] at hla; simp at hla
        · rw [← hp] at hlb; simp at hlb
    · intro p q j
      simp only [hpar]
      have hlive : ∀ p, (j = a ∨ j = b) → ¬ t.Parent k p j := by
        intro p hj
        rcases hj with rfl | rfl
        · exact (h.orphan j hla).1 ha p
        · exact (h.orphan j hlb).1 hb' p
      rintro (hp | ⟨hp, hj⟩) (hq | ⟨hq, hj'⟩)
      · exact h.one_parent p q j hp hq
      · exact absurd hp (hlive p hj')
      · exact absurd hq (hlive q hj)
      · rw [hp, hq]
    · intro p hk hp
      rcases hcases p hp with hpn | rfl
      · rw [hsame p hpn]; exact h.two_children p hk hpn
      · rw [hnew]; exact hba.symm
    · intro s hs
      obtain ⟨r, hr, path, hp⟩ := h.reached s hs
      have hp' := hp.mono hsame hchild (h.live_lt r hr)
      by_cases hra : r = a
      · subst hra
        refine ⟨⟨t.nnodes, hroom⟩, by simp, false :: path, .left (by rw [hnew]; rfl) (by rw [hnew]; rfl) ?_⟩
        rw [hnew]; exact hp'
      · by_cases hrb : r = b
        · subst hrb
          refine ⟨⟨t.nnodes, hroom⟩, by simp, true :: path, .right (by rw [hnew]; rfl) (by rw [hnew]; rfl) ?_⟩
          rw [hnew]; exact hp'
        · exact ⟨r, by simp [mem_pqClear, hr, hra, hrb], path, hp'⟩
    · have e1 := sum_pqClear hnd ha (fun i => (t.node.at i).weight)
      have e2 := sum_pqClear hnd1 hb (fun i => (t.node.at i).weight)
      have e3 : (pqClear (pqClear t.pq a) b).map
          (fun i => ((t.node.put ⟨t.nnodes, hroom⟩ (innerNode t.node a b)).at i).weight) =
          (pqClear (pqClear t.pq a) b).map fun i => (t.node.at i).weight :=
        List.map_congr_left fun j hj => by rw [hsame j (hlt j hj)]
      have e4 := h.weight
      rw [List.map_append, List.sum_append, e3]
      rw [List.map_cons, List.map_nil, List.sum_cons, List.sum_nil, hnew]
      simp only [innerNode]
      omega

/-- A MERGE iteration keeps the forest good, and lowers the number of live nodes while it is above one (R134). -/
theorem mergeIfMany_good {f : FreqFile} {k : Nat} {t : Forest} (h : t.Good f k) :
    ∃ t', mergeIfMany t = .ok t' ∧ t'.Good f k ∧ t'.pq.length = max 1 (t.pq.length - 1) := by
  by_cases hm : 1 < t.pq.length
  · obtain ⟨_, _, _, t', _, _, _, _, _, _, he, _, hl, hg⟩ := mergeOnce_good h hm
    exact ⟨t', by simp [mergeIfMany, hm, he], hg, by omega⟩
  · have := List.length_pos_iff.2 h.live
    exact ⟨t, by simp [mergeIfMany, hm], h, by omega⟩

end Sys2Proof.Machine
end

