-- ==== Sys2Proof/Laws/Codes.lean ====
section
/-!
SUPPORT. Sys2Proof/Laws/Codes.lean: the Code Table Deriver: the paths it finds are the paths of the leaves
(43_code_table_deriver.md R150), a good forest gives it a tree (R155 (c)), and the table it writes is prefix-free
(R155 (a)).
-/

namespace Sys2Proof.Machine

/-- A path from one node leads to one leaf: a path that begins another is that other (R155 (a)). -/
theorem LeafBelow.eq_of_prefix {node : NodeFile} {s t : Byte} {i : NodeId} {p q : List Bit}
    (hp : LeafBelow node s i p) (hq : LeafBelow node t i q) (h : p <+: q) : p = q ∧ s = t := by
  induction hp generalizing q with
  | here _ hl hs =>
    cases hq with
    | here _ _ ht => exact ⟨rfl, by rw [← hs, ← ht]⟩
    | left _ hl' _ => rw [hl] at hl'; cases hl'
    | right _ hl' _ => rw [hl] at hl'; cases hl'
  | left _ hl _ ih =>
    cases hq with
    | here _ hl' _ => rw [hl] at hl'; cases hl'
    | left _ _ hq =>
      have := ih hq (by simpa [List.cons_prefix_cons] using h)
      exact ⟨by rw [this.1], this.2⟩
    | right _ _ hq => simp [List.cons_prefix_cons] at h
  | right _ hl _ ih =>
    cases hq with
    | here _ hl' _ => rw [hl] at hl'; cases hl'
    | left _ _ hq => simp [List.cons_prefix_cons] at h
    | right _ _ hq =>
      have := ih hq (by simpa [List.cons_prefix_cons] using h)
      exact ⟨by rw [this.1], this.2⟩

/-- What the traversal finds: exactly the leaves below the node, each with its path (R150). -/
theorem leafPaths_spec (node : NodeFile) (levels : Nat) (i : NodeId) (path : List Bit) (l : List (Byte × List Bit))
    (h : leafPaths node levels i path = some l) (s : Byte) (q : List Bit) :
    (s, q) ∈ l ↔ ∃ p, q = path ++ p ∧ LeafBelow node s i p ∧ p.length < levels := by
  induction levels generalizing i path l q with
  | zero => simp [leafPaths] at h
  | succ n ih =>
    unfold leafPaths at h
    by_cases hv : (node.at i).v = false
    · simp [hv] at h
    have hv' : (node.at i).v = true := by simpa using hv
    by_cases hl : (node.at i).leaf = true
    · simp only [hv', hl, if_true, if_false, reduceCtorEq, Option.some.injEq] at h
      subst h
      simp only [List.mem_singleton, Prod.mk.injEq]
      constructor
      · rintro ⟨rfl, rfl⟩; exact ⟨[], by simp, .here hv' hl rfl, by simp⟩
      · rintro ⟨p, rfl, hb, _⟩
        cases hb with
        | here _ _ hs => exact ⟨hs.symm, by simp⟩
        | left _ hl' _ => rw [hl] at hl'; cases hl'
        | right _ hl' _ => rw [hl] at hl'; cases hl'
    · have hl' : (node.at i).leaf = false := by simpa using hl
      simp only [hv', hl', if_false, reduceCtorEq, Bool.false_eq_true] at h
      cases hL : leafPaths node n (node.at i).left (path ++ [false]) with
      | none => simp [hL] at h
      | some ls =>
        cases hR : leafPaths node n (node.at i).right (path ++ [true]) with
        | none => simp [hL, hR] at h
        | some rs =>
          simp only [hL, hR, Option.some.injEq] at h
          subst h
          rw [List.mem_append, ih _ _ _ hL, ih _ _ _ hR]
          constructor
          · rintro (⟨p, rfl, hb, hp⟩ | ⟨p, rfl, hb, hp⟩)
            · exact ⟨false :: p, by simp, .left hv' hl' hb, by simp; omega⟩
            · exact ⟨true :: p, by simp, .right hv' hl' hb, by simp; omega⟩
          · rintro ⟨p, rfl, hb, hp⟩
            cases hb with
            | here _ hl'' _ => rw [hl'] at hl''; cases hl''
            | left _ _ hb => exact .inl ⟨_, by simp, hb, by simp at hp; omega⟩
            | right _ _ hb => exact .inr ⟨_, by simp, hb, by simp at hp; omega⟩

/-- A traversal that answers reached every leaf: no path is longer than the levels it had. -/
theorem leafPaths_depth (node : NodeFile) (levels : Nat) (i : NodeId) (path : List Bit) (l : List (Byte × List Bit))
    (h : leafPaths node levels i path = some l) {s : Byte} {p : List Bit} (hb : LeafBelow node s i p) :
    p.length < levels := by
  induction levels generalizing i path l p with
  | zero => simp [leafPaths] at h
  | succ n ih =>
    unfold leafPaths at h
    cases hb with
    | here => simp
    | left hv hl hb =>
      simp only [hv, hl, if_false, reduceCtorEq, Bool.false_eq_true] at h
      cases hL : leafPaths node n (node.at i).left (path ++ [false]) with
      | none => simp [hL] at h
      | some ls => have := ih _ _ _ hL hb; simp; omega
    | right hv hl hb =>
      simp only [hv, hl, if_false, reduceCtorEq, Bool.false_eq_true] at h
      cases hL : leafPaths node n (node.at i).left (path ++ [false]) with
      | none => simp [hL] at h
      | some ls =>
        cases hR : leafPaths node n (node.at i).right (path ++ [true]) with
        | none => simp [hL, hR] at h
        | some rs => have := ih _ _ _ hR hb; simp; omega

/-- A good forest is a tree below each of its nodes: an internal node's path passes through internal nodes of smaller
and smaller id, of which there are fewer than K (R155 (c)). -/
theorem leafPaths_isSome {f : FreqFile} {k : Nat} {t : Forest} (h : t.Good f k) (levels : Nat) (i : NodeId)
    (path : List Bit) (hi : i.val < t.nnodes) (hlev : (i.val < k ∧ 1 ≤ levels) ∨ (k ≤ i.val ∧ i.val + 2 ≤ levels + k)) :
    ∃ l, leafPaths t.node levels i path = some l := by
  induction levels generalizing i path with
  | zero => omega
  | succ n ih =>
    unfold leafPaths
    have hv := h.valid i hi
    by_cases hl : (t.node.at i).leaf = true
    · simp [hv, hl]
    · have hl' : (t.node.at i).leaf = false := by simpa using hl
      obtain ⟨hk, hL, hR⟩ := h.children i hi hl'
      have hL' : (t.node.at i).left.val < i.val := hL
      have hR' : (t.node.at i).right.val < i.val := hR
      have key : ∀ c : NodeId, c.val < i.val → (c.val < k ∧ 1 ≤ n) ∨ (k ≤ c.val ∧ c.val + 2 ≤ n + k) := by
        omega
      obtain ⟨ls, hls⟩ := ih (t.node.at i).left (path ++ [false]) (by omega) (key _ hL')
      obtain ⟨rs, hrs⟩ := ih (t.node.at i).right (path ++ [true]) (by omega) (key _ hR')
      simp [hv, hl', hls, hrs]

/-- The entry of a symbol after the codes are written: its last path, or what it was. -/
theorem writeCodes_at (tbl : CodeTable) (l : List (Byte × List Bit)) (s : Byte) :
    ((∀ p, (s, p) ∉ l) ∧ (writeCodes tbl l).at s = tbl.at s) ∨
      ∃ p, (s, p) ∈ l ∧ (writeCodes tbl l).at s = entryOfCode p := by
  induction l generalizing tbl with
  | nil => exact .inl ⟨by simp, rfl⟩
  | cons e l ih =>
    obtain ⟨u, q⟩ := e
    rcases ih (tbl.put u (entryOfCode q)) with ⟨hno, hat⟩ | ⟨p, hp, hat⟩
    · by_cases hu : u = s
      · subst hu
        exact .inr ⟨q, by simp, by simp [writeCodes, hat]⟩
      · refine .inl ⟨fun p hp => ?_, by simp [writeCodes, hat, hu]⟩
        rcases List.mem_cons.1 hp with hp | hp
        · exact hu (by simpa using (congrArg Prod.fst hp).symm)
        · exact hno p hp
    · exact .inr ⟨p, by simp [hp], by simp [writeCodes, hat]⟩

/-- A table that holds exactly the paths of the leaves below a node (R154). -/
def CodeTable.OfTree (tbl : CodeTable) (node : NodeFile) (root : NodeId) : Prop :=
  ∀ s : Byte,
    ((∀ p, ¬ LeafBelow node s root p) ∧ tbl.at s = CtEntry.zero) ∨
      ∃ p, LeafBelow node s root p ∧ p.length ≤ 255 ∧ tbl.at s = entryOfCode p

/-- What DERIVE writes into an invalid table is the table of the tree (R150, R154). -/
theorem writeCodes_ofTree {node : NodeFile} {root : NodeId} {l : List (Byte × List Bit)}
    (h : leafPaths node (Config.depthMax + 1) root [] = some l) :
    (writeCodes CodeTable.zero l).OfTree node root := by
  intro s
  rcases writeCodes_at CodeTable.zero l s with ⟨hno, hat⟩ | ⟨p, hp, hat⟩
  · refine .inl ⟨fun p hb => hno p ?_, by simpa using hat⟩
    exact (leafPaths_spec _ _ _ _ _ h s p).2 ⟨p, by simp, hb, leafPaths_depth _ _ _ _ _ h hb⟩
  · obtain ⟨q, hq, hb, hlen⟩ := (leafPaths_spec _ _ _ _ _ h s p).1 hp
    obtain rfl : p = q := by simpa using hq
    exact .inr ⟨p, hb, by simp [Config.depthMax] at hlen; omega, hat⟩

theorem CodeTable.OfTree.valid_iff {tbl : CodeTable} {node : NodeFile} {root : NodeId} (h : tbl.OfTree node root)
    (s : Byte) : (tbl.at s).v = true ↔ ∃ p, LeafBelow node s root p := by
  rcases h s with ⟨hno, hat⟩ | ⟨p, hb, _, hat⟩
  · simp [hat, CtEntry.zero, hno]
  · simp only [hat, entryOfCode_v, true_iff]; exact ⟨p, hb⟩

theorem CodeTable.OfTree.code {tbl : CodeTable} {node : NodeFile} {root : NodeId} (h : tbl.OfTree node root)
    {s : Byte} (hv : (tbl.at s).v = true) : LeafBelow node s root (codeBits (tbl.at s)) := by
  rcases h s with ⟨_, hat⟩ | ⟨p, hb, hlen, hat⟩
  · simp [hat, CtEntry.zero] at hv
  · rw [hat, codeBits_entryOfCode p hlen]; exact hb

/-- The table of a tree is prefix-free (R155 (a)). -/
theorem CodeTable.OfTree.prefixFree {tbl : CodeTable} {node : NodeFile} {root : NodeId} (h : tbl.OfTree node root) :
    tbl.PrefixFree := by
  intro s t hs ht hne hpre
  exact hne ((h.code hs).eq_of_prefix (h.code ht) hpre).2

/-- With two symbols below the root no code is empty (R155 (b)). -/
theorem CodeTable.OfTree.nonEmpty {tbl : CodeTable} {node : NodeFile} {root : NodeId} (h : tbl.OfTree node root)
    {a b : Byte} (ha : (tbl.at a).v = true) (hb : (tbl.at b).v = true) (hne : a ≠ b) : tbl.NonEmptyCodes := by
  intro s hs hnil
  have hroot := h.code hs
  rw [hnil] at hroot
  have h1 := (hroot.eq_of_prefix (h.code ha) (List.nil_prefix)).2
  have h2 := (hroot.eq_of_prefix (h.code hb) (List.nil_prefix)).2
  exact hne (h1.symm.trans h2)

end Sys2Proof.Machine
end

