-- ==== Sys2Proof/Laws/Packer.lean ====
section
/-!
SUPPORT. Sys2Proof/Laws/Packer.lean: padding, leading zeros and bytes (44_bit_packer.md R162 to R165, 45_bit_unpacker.md
R182 to R185).
-/

namespace Sys2Proof.Machine

/-- PAD is in 0 to 7 (R162). -/
theorem padCount_le (n : Nat) : padCount n ≤ 7 := by unfold padCount; split <;> omega

/-- The padded length is a multiple of 8 (R162). -/
theorem add_padCount_mod (n : Nat) : (n + padCount n) % 8 = 0 := by unfold padCount; split <;> omega

@[simp] theorem padBits_length (s : List Bit) : (padBits s).length = s.length + padCount s.length := by
  simp [padBits]

theorem leadingZeros_le (s : List Bit) : leadingZeros s ≤ s.length := by
  induction s with
  | nil => simp [leadingZeros]
  | cons b s ih => cases b <;> simp [leadingZeros, ih]

/-- The leading zeros and the minimal string make up the sequence (R183). -/
theorem replicate_append_minimalBits (s : List Bit) :
    List.replicate (leadingZeros s) false ++ minimalBits s = s := by
  induction s with
  | nil => rfl
  | cons b s ih =>
    cases b
    · simp [leadingZeros, minimalBits, List.replicate_succ, ih]
    · simp [leadingZeros, minimalBits]

theorem minimalBits_length (s : List Bit) : (minimalBits s).length + leadingZeros s = s.length := by
  have := congrArg List.length (replicate_append_minimalBits s)
  simp at this; omega

/-- The minimal string is empty exactly when there is no 1 bit (R185). -/
theorem minimalBits_eq_nil_iff (s : List Bit) : minimalBits s = [] ↔ ∀ b ∈ s, b = false := by
  induction s with
  | nil => simp [minimalBits]
  | cons b s ih => cases b <;> simp [minimalBits, ih]

/-- Zeros appended at the end do not shorten the bits before the first 1, when there is one (R163). -/
theorem minimalBits_append_of_ne {s : List Bit} (t : List Bit) (h : minimalBits s ≠ []) :
    minimalBits (s ++ t) = minimalBits s ++ t := by
  induction s with
  | nil => simp [minimalBits] at h
  | cons b s ih => cases b <;> simp_all [minimalBits]

theorem leadingZeros_append_of_ne {s : List Bit} (t : List Bit) (h : minimalBits s ≠ []) :
    leadingZeros (s ++ t) = leadingZeros s := by
  induction s with
  | nil => simp [minimalBits] at h
  | cons b s ih => cases b <;> simp_all [minimalBits, leadingZeros]

/-- The leading zeros of a sequence without a 1 bit are all of it (R163). -/
theorem leadingZeros_of_nil {s : List Bit} (h : minimalBits s = []) : leadingZeros s = s.length := by
  have := minimalBits_length s
  simp [h] at this; omega

/-- The bytes of a whole number of bytes hold its bits (R87, R165, R182). -/
theorem payloadBits_packBytes (p : List Bit) (h : p.length % 8 = 0) : payloadBits (packBytes p) = p := by
  induction p using packBytes.induct with
  | case1 b7 b6 b5 b4 b3 b2 b1 b0 rest ih =>
    have : rest.length % 8 = 0 := by simp at h; omega
    simp only [packBytes, payloadBits, List.flatMap_cons]
    rw [byteBits_ofNat_bitsVal _ rfl]
    have := ih this
    unfold payloadBits at this
    rw [this]; rfl
  | case2 p hp =>
    match p, hp with
    | [], _ => rfl
    | [_], _ => simp at h
    | [_, _], _ => simp at h
    | [_, _, _], _ => simp at h
    | [_, _, _, _], _ => simp at h
    | [_, _, _, _, _], _ => simp at h
    | [_, _, _, _, _, _], _ => simp at h
    | [_, _, _, _, _, _, _], _ => simp at h
    | a :: b :: c :: d :: e :: f :: g :: i :: r, hp => exact absurd rfl (hp a b c d e f g i r)

@[simp] theorem payloadBits_length (bs : List Byte) : (payloadBits bs).length = 8 * bs.length := by
  induction bs with
  | nil => rfl
  | cons b bs ih =>
    unfold payloadBits at *
    simp only [List.flatMap_cons, List.length_append, byteBits_length, ih, List.length_cons]; omega

/-- The number of payload bytes (R165). -/
theorem packBytes_length (p : List Bit) (h : p.length % 8 = 0) : (packBytes p).length = p.length / 8 := by
  have := congrArg List.length (payloadBits_packBytes p h)
  simp at this; omega

/-- The bits of bytes pack to these bytes (R87). -/
theorem packBytes_payloadBits (bs : List Byte) : packBytes (payloadBits bs) = bs := by
  induction bs with
  | nil => rfl
  | cons b bs ih =>
    have : payloadBits (b :: bs) = byteBits b ++ payloadBits bs := rfl
    rw [this]
    have h8 := ofNat_bitsVal_byteBits b
    have hl : (byteBits b).length = 8 := byteBits_length b
    match hb : byteBits b, hl with
    | [b7, b6, b5, b4, b3, b2, b1, b0], _ =>
      rw [hb] at h8
      simp only [List.cons_append, List.nil_append, packBytes, h8, ih]

theorem containerBytes_length (pad lzc : Nat) (s : List Bit) :
    (containerBytes pad lzc s).length = 2 + (s.length + padCount s.length) / 8 := by
  have h : (padBits s).length % 8 = 0 := by rw [padBits_length]; exact add_padCount_mod _
  simp only [containerBytes, List.length_cons, packBytes_length _ h, padBits_length]; omega

/-- What steps 3 and 4 answer (R184). -/
theorem restoreBits_length {pad lzc : Nat} {t r : List Bit} (h : restoreBits pad lzc t = some r) :
    r.length + pad = lzc + t.length := by
  unfold restoreBits at h
  split at h
  · cases h
  · simp only at h
    split at h
    · cases h
    · cases h; simp at *; omega

end Sys2Proof.Machine
end

