-- ==== Sys2Proof/Laws/Scan.lean ====
section
/-!
SUPPORT. Sys2Proof/Laws/Scan.lean: the inverse table, its check and the scan (46_decoder.md R190, R193), and the encoding
of a sequence of symbols (44_bit_packer.md R160).
-/

namespace Sys2Proof.Machine

theorem mem_validCodes (tbl : CodeTable) (s : Byte) (c : List Bit) :
    (s, c) ∈ validCodes tbl ↔ (tbl.at s).v = true ∧ c = codeBits (tbl.at s) := by
  simp only [validCodes, List.mem_map, List.mem_filter, mem_allSymbols, true_and, Prod.mk.injEq]
  constructor
  · rintro ⟨u, hu, rfl, rfl⟩; exact ⟨hu, rfl⟩
  · rintro ⟨hv, rfl⟩; exact ⟨s, hv, rfl, rfl⟩

theorem hasRepeat_iff (l : List (List Bit)) : hasRepeat l = false ↔ l.Nodup := by
  induction l with
  | nil => simp [hasRepeat]
  | cons c l ih => simp [hasRepeat, ih]

/-- The check of INVERT says what R190 says: two symbols with valid entries hold the same code. -/
theorem hasDuplicate_iff (tbl : CodeTable) :
    hasDuplicate tbl = true ↔
      ∃ s t : Byte, s ≠ t ∧ (tbl.at s).v = true ∧ (tbl.at t).v = true ∧ codeBits (tbl.at s) = codeBits (tbl.at t) := by
  have hnd : (allSymbols.filter fun s => (tbl.at s).v).Nodup := allSymbols_nodup.filter _
  have key : (validCodes tbl).map Prod.snd = (allSymbols.filter fun s => (tbl.at s).v).map fun s => codeBits (tbl.at s) := by
    simp [validCodes, Function.comp_def]
  rw [hasDuplicate, key, ← not_iff_not, Bool.not_eq_true, hasRepeat_iff, List.nodup_map_iff_inj_on hnd]
  constructor
  · rintro h ⟨s, t, hne, hs, ht, he⟩
    exact hne (h s (by simp [hs]) t (by simp [ht]) he)
  · intro h s hs t ht he
    by_contra hne
    exact h ⟨s, t, hne, by simpa using hs, by simpa using ht, he⟩

theorem inverseCode_some {codes : List (Byte × List Bit)} {c : List Bit} {s : Byte}
    (h : inverseCode codes c = some s) : (s, c) ∈ codes := by
  induction codes with
  | nil => cases h
  | cons e codes ih =>
    obtain ⟨u, d⟩ := e
    by_cases hd : d = c
    · simp [inverseCode, hd] at h; simp [h, hd]
    · simp [inverseCode, hd] at h; exact List.mem_cons_of_mem _ (ih h)

theorem inverseCode_none {codes : List (Byte × List Bit)} {c : List Bit} :
    inverseCode codes c = none ↔ ∀ s, (s, c) ∉ codes := by
  induction codes with
  | nil => simp [inverseCode]
  | cons e codes ih =>
    obtain ⟨u, d⟩ := e
    by_cases hd : d = c
    · subst hd
      simp only [inverseCode, if_true, reduceCtorEq, false_iff, not_forall, not_not]
      exact ⟨u, by simp⟩
    · simp [inverseCode, hd, ih, Ne.symm hd]

/-- The inverse table at the code of a valid symbol, when no two valid entries share a code (R190). -/
theorem inverseCode_code {tbl : CodeTable} (h : hasDuplicate tbl = false) {s : Byte} (hv : (tbl.at s).v = true) :
    inverseCode (validCodes tbl) (codeBits (tbl.at s)) = some s := by
  cases hi : inverseCode (validCodes tbl) (codeBits (tbl.at s)) with
  | none => exact absurd ((mem_validCodes tbl s _).2 ⟨hv, rfl⟩) (inverseCode_none.1 hi s)
  | some t =>
    obtain ⟨ht, he⟩ := (mem_validCodes tbl t _).1 (inverseCode_some hi)
    by_contra hne
    have hst : s ≠ t := fun e => hne (by rw [e])
    have := (hasDuplicate_iff tbl).2 ⟨s, t, hst, hv, ht, he⟩
    rw [h] at this; cases this

/-- A prefix-free table has no duplicate (R233). -/
theorem CodeTable.PrefixFree.hasDuplicate {tbl : CodeTable} (h : tbl.PrefixFree) : hasDuplicate tbl = false := by
  by_contra hd
  obtain ⟨s, t, hne, hs, ht, he⟩ := (hasDuplicate_iff tbl).1 (by simpa using hd)
  exact h s t hs ht hne (by rw [he])

theorem scanBits_nil (codes : List (Byte × List Bit)) (cand : List Bit) : scanBits codes cand [] = ([], cand) := rfl

/-- One round of the scan that matches (R193). -/
theorem scanBits_cons_some {codes : List (Byte × List Bit)} {cand : List Bit} {b : Bit} {s : Byte} (rest : List Bit)
    (h : inverseCode codes (cand ++ [b]) = some s) :
    scanBits codes cand (b :: rest) = (s :: (scanBits codes [] rest).1, (scanBits codes [] rest).2) := by
  rw [scanBits, h]

/-- One round of the scan that does not match (R193). -/
theorem scanBits_cons_none {codes : List (Byte × List Bit)} {cand : List Bit} {b : Bit} (rest : List Bit)
    (h : inverseCode codes (cand ++ [b]) = none) :
    scanBits codes cand (b :: rest) = scanBits codes (cand ++ [b]) rest := by
  rw [scanBits, h]

/-- At most one symbol is emitted per scanned bit (R194), and the candidate grows by at most the bits scanned. -/
theorem scanBits_length (codes : List (Byte × List Bit)) (cand bits : List Bit) :
    (scanBits codes cand bits).1.length ≤ bits.length ∧
      (scanBits codes cand bits).2.length ≤ cand.length + bits.length := by
  induction bits generalizing cand with
  | nil => simp [scanBits]
  | cons b bits ih =>
    cases hi : inverseCode codes (cand ++ [b]) with
    | none => rw [scanBits_cons_none _ hi]; have := ih (cand ++ [b]); simp at *; omega
    | some s => rw [scanBits_cons_some _ hi]; have := ih []; simp at *; omega

/-- Scanning the rest of a code whose proper prefixes are no codes emits its symbol (R200). -/
theorem scanBits_code {codes : List (Byte × List Bit)} {s : Byte} (u w rest : List Bit) (hw : w ≠ [])
    (hno : ∀ v, v <+: u ++ w → v ≠ u ++ w → inverseCode codes v = none)
    (hyes : inverseCode codes (u ++ w) = some s) :
    scanBits codes u (w ++ rest) = (s :: (scanBits codes [] rest).1, (scanBits codes [] rest).2) := by
  induction w generalizing u with
  | nil => exact absurd rfl hw
  | cons b w ih =>
    rw [List.cons_append]
    by_cases hw' : w = []
    · subst hw'
      exact scanBits_cons_some rest hyes
    · have hassoc : (u ++ [b]) ++ w = u ++ b :: w := by simp
      have : inverseCode codes (u ++ [b]) = none := by
        apply hno
        · exact ⟨w, hassoc⟩
        · intro he
          have := congrArg List.length he
          simp at this
          exact hw' this
      rw [scanBits_cons_none _ this]
      exact ih (u ++ [b]) hw' (by rw [hassoc]; exact hno) (by rw [hassoc]; exact hyes)

/-- What EMIT appends: every byte has a valid entry, and the codes follow in order (R160, R161). -/
theorem encodeSymbols_eq (tbl : CodeTable) (bytes : List Byte) (bits : List Bit) :
    encodeSymbols tbl bytes = some bits ↔
      (∀ b ∈ bytes, (tbl.at b).v = true) ∧ bits = bytes.flatMap fun b => codeBits (tbl.at b) := by
  induction bytes generalizing bits with
  | nil =>
    simp only [encodeSymbols, Option.some.injEq, List.not_mem_nil, false_imp_iff, implies_true, true_and,
      List.flatMap_nil]
    exact eq_comm
  | cons b bytes ih =>
    by_cases hv : (tbl.at b).v = true
    · cases he : encodeSymbols tbl bytes with
      | none =>
        simp only [encodeSymbols, hv, he, if_true, reduceCtorEq, false_iff, List.mem_cons, forall_eq_or_imp,
          true_and, List.flatMap_cons, not_and]
        intro hall
        have := (ih (bytes.flatMap fun b => codeBits (tbl.at b))).2 ⟨hall, rfl⟩
        rw [he] at this; cases this
      | some r =>
        obtain ⟨h1, h2⟩ := (ih r).1 he
        simp only [encodeSymbols, hv, he, if_true, Option.some.injEq, List.mem_cons, forall_eq_or_imp, true_and,
          List.flatMap_cons, ← h2]
        exact ⟨fun h => ⟨h1, h.symm⟩, fun h => h.2.symm⟩
    · simp [encodeSymbols, hv]

/-- The length of the bitstream: at most 255 bits a byte (20_memory.md R69). -/
theorem encodeSymbols_length_le {tbl : CodeTable} {bytes : List Byte} {bits : List Bit}
    (h : encodeSymbols tbl bytes = some bits) : bits.length ≤ 255 * bytes.length := by
  obtain ⟨_, rfl⟩ := (encodeSymbols_eq tbl bytes bits).1 h
  clear h
  induction bytes with
  | nil => simp
  | cons b bytes ih =>
    have := codeBits_length_le (tbl.at b)
    simp_all; omega

end Sys2Proof.Machine
end

