-- ==== Sys2Proof/Laws/State.lean ====
section
/-!
SUPPORT. Sys2Proof/Laws/State.lean: what each named update does to each field of the state, one lemma per field, so
that no proof unfolds a record update.
-/

namespace Sys2Proof.Machine

/-! ### flagsStarted -/

@[simp] theorem flagsStarted_cap (s : State) : s.flagsStarted.cap = s.cap := rfl
@[simp] theorem flagsStarted_inBuf (s : State) : s.flagsStarted.inBuf = s.inBuf := rfl
@[simp] theorem flagsStarted_outBuf (s : State) : s.flagsStarted.outBuf = s.outBuf := rfl
@[simp] theorem flagsStarted_bsBuf (s : State) : s.flagsStarted.bsBuf = s.bsBuf := rfl
@[simp] theorem flagsStarted_bsStale (s : State) : s.flagsStarted.bsStale = s.bsStale := rfl
@[simp] theorem flagsStarted_busy (s : State) : s.flagsStarted.busy = true := rfl
@[simp] theorem flagsStarted_done (s : State) : s.flagsStarted.done = false := rfl
@[simp] theorem flagsStarted_err (s : State) : s.flagsStarted.err = false := rfl
@[simp] theorem flagsStarted_degen (s : State) : s.flagsStarted.degen = false := rfl
@[simp] theorem flagsStarted_ecode (s : State) : s.flagsStarted.ecode = none := rfl
@[simp] theorem flagsStarted_phase (s : State) : s.flagsStarted.phase = s.phase := rfl
@[simp] theorem flagsStarted_inLen (s : State) : s.flagsStarted.inLen = s.inLen := rfl
@[simp] theorem flagsStarted_outLen (s : State) : s.flagsStarted.outLen = s.outLen := rfl
@[simp] theorem flagsStarted_bsLen (s : State) : s.flagsStarted.bsLen = s.bsLen := rfl
@[simp] theorem flagsStarted_pad (s : State) : s.flagsStarted.pad = s.pad := rfl
@[simp] theorem flagsStarted_lzc (s : State) : s.flagsStarted.lzc = s.lzc := rfl
@[simp] theorem flagsStarted_total (s : State) : s.flagsStarted.total = s.total := rfl
@[simp] theorem flagsStarted_nsym (s : State) : s.flagsStarted.nsym = s.nsym := rfl
@[simp] theorem flagsStarted_root (s : State) : s.flagsStarted.root = s.root := rfl
@[simp] theorem flagsStarted_nnodes (s : State) : s.flagsStarted.nnodes = s.nnodes := rfl
@[simp] theorem flagsStarted_cand (s : State) : s.flagsStarted.cand = s.cand := rfl
@[simp] theorem flagsStarted_candLen (s : State) : s.flagsStarted.candLen = s.candLen := rfl
@[simp] theorem flagsStarted_freq (s : State) : s.flagsStarted.freq = s.freq := rfl
@[simp] theorem flagsStarted_node (s : State) : s.flagsStarted.node = s.node := rfl
@[simp] theorem flagsStarted_pq (s : State) : s.flagsStarted.pq = s.pq := rfl
@[simp] theorem flagsStarted_ct (s : State) : s.flagsStarted.ct = s.ct := rfl
@[simp] theorem flagsStarted_running (s : State) : s.flagsStarted.running = s.running := rfl
@[simp] theorem flagsStarted_script (s : State) : s.flagsStarted.script = s.script := rfl
@[simp] theorem flagsStarted_reads (s : State) : s.flagsStarted.reads = s.reads := rfl
@[simp] theorem flagsStarted_pollsLeft (s : State) : s.flagsStarted.pollsLeft = s.pollsLeft := rfl
@[simp] theorem flagsStarted_tick (s : State) : s.flagsStarted.tick = s.tick := rfl
@[simp] theorem flagsStarted_ended (s : State) : s.flagsStarted.ended = s.ended := rfl

/-! ### flagsCompleted -/

@[simp] theorem flagsCompleted_cap (s : State) : s.flagsCompleted.cap = s.cap := rfl
@[simp] theorem flagsCompleted_inBuf (s : State) : s.flagsCompleted.inBuf = s.inBuf := rfl
@[simp] theorem flagsCompleted_outBuf (s : State) : s.flagsCompleted.outBuf = s.outBuf := rfl
@[simp] theorem flagsCompleted_bsBuf (s : State) : s.flagsCompleted.bsBuf = s.bsBuf := rfl
@[simp] theorem flagsCompleted_bsStale (s : State) : s.flagsCompleted.bsStale = s.bsStale := rfl
@[simp] theorem flagsCompleted_busy (s : State) : s.flagsCompleted.busy = false := rfl
@[simp] theorem flagsCompleted_done (s : State) : s.flagsCompleted.done = true := rfl
@[simp] theorem flagsCompleted_err (s : State) : s.flagsCompleted.err = s.err := rfl
@[simp] theorem flagsCompleted_degen (s : State) : s.flagsCompleted.degen = s.degen := rfl
@[simp] theorem flagsCompleted_ecode (s : State) : s.flagsCompleted.ecode = s.ecode := rfl
@[simp] theorem flagsCompleted_phase (s : State) : s.flagsCompleted.phase = .idle := rfl
@[simp] theorem flagsCompleted_inLen (s : State) : s.flagsCompleted.inLen = s.inLen := rfl
@[simp] theorem flagsCompleted_outLen (s : State) : s.flagsCompleted.outLen = s.outLen := rfl
@[simp] theorem flagsCompleted_bsLen (s : State) : s.flagsCompleted.bsLen = s.bsLen := rfl
@[simp] theorem flagsCompleted_pad (s : State) : s.flagsCompleted.pad = s.pad := rfl
@[simp] theorem flagsCompleted_lzc (s : State) : s.flagsCompleted.lzc = s.lzc := rfl
@[simp] theorem flagsCompleted_total (s : State) : s.flagsCompleted.total = s.total := rfl
@[simp] theorem flagsCompleted_nsym (s : State) : s.flagsCompleted.nsym = s.nsym := rfl
@[simp] theorem flagsCompleted_root (s : State) : s.flagsCompleted.root = s.root := rfl
@[simp] theorem flagsCompleted_nnodes (s : State) : s.flagsCompleted.nnodes = s.nnodes := rfl
@[simp] theorem flagsCompleted_cand (s : State) : s.flagsCompleted.cand = s.cand := rfl
@[simp] theorem flagsCompleted_candLen (s : State) : s.flagsCompleted.candLen = s.candLen := rfl
@[simp] theorem flagsCompleted_freq (s : State) : s.flagsCompleted.freq = s.freq := rfl
@[simp] theorem flagsCompleted_node (s : State) : s.flagsCompleted.node = s.node := rfl
@[simp] theorem flagsCompleted_pq (s : State) : s.flagsCompleted.pq = s.pq := rfl
@[simp] theorem flagsCompleted_ct (s : State) : s.flagsCompleted.ct = s.ct := rfl
@[simp] theorem flagsCompleted_running (s : State) : s.flagsCompleted.running = none := rfl
@[simp] theorem flagsCompleted_script (s : State) : s.flagsCompleted.script = s.script := rfl
@[simp] theorem flagsCompleted_reads (s : State) : s.flagsCompleted.reads = s.reads := rfl
@[simp] theorem flagsCompleted_pollsLeft (s : State) : s.flagsCompleted.pollsLeft = s.pollsLeft := rfl
@[simp] theorem flagsCompleted_tick (s : State) : s.flagsCompleted.tick = s.tick := rfl
@[simp] theorem flagsCompleted_ended (s : State) : s.flagsCompleted.ended = s.ended := rfl

/-! ### flagsFaulted -/

@[simp] theorem flagsFaulted_cap (s : State) (e : CodecError) : (s.flagsFaulted e).cap = s.cap := rfl
@[simp] theorem flagsFaulted_inBuf (s : State) (e : CodecError) : (s.flagsFaulted e).inBuf = s.inBuf := rfl
@[simp] theorem flagsFaulted_outBuf (s : State) (e : CodecError) : (s.flagsFaulted e).outBuf = s.outBuf := rfl
@[simp] theorem flagsFaulted_bsBuf (s : State) (e : CodecError) : (s.flagsFaulted e).bsBuf = s.bsBuf := rfl
@[simp] theorem flagsFaulted_bsStale (s : State) (e : CodecError) : (s.flagsFaulted e).bsStale = s.bsStale := rfl
@[simp] theorem flagsFaulted_busy (s : State) (e : CodecError) : (s.flagsFaulted e).busy = false := rfl
@[simp] theorem flagsFaulted_done (s : State) (e : CodecError) : (s.flagsFaulted e).done = true := rfl
@[simp] theorem flagsFaulted_err (s : State) (e : CodecError) : (s.flagsFaulted e).err = true := rfl
@[simp] theorem flagsFaulted_degen (s : State) (e : CodecError) : (s.flagsFaulted e).degen = s.degen := rfl
@[simp] theorem flagsFaulted_ecode (s : State) (e : CodecError) : (s.flagsFaulted e).ecode = some e := rfl
@[simp] theorem flagsFaulted_phase (s : State) (e : CodecError) : (s.flagsFaulted e).phase = .idle := rfl
@[simp] theorem flagsFaulted_inLen (s : State) (e : CodecError) : (s.flagsFaulted e).inLen = s.inLen := rfl
@[simp] theorem flagsFaulted_outLen (s : State) (e : CodecError) : (s.flagsFaulted e).outLen = s.outLen := rfl
@[simp] theorem flagsFaulted_bsLen (s : State) (e : CodecError) : (s.flagsFaulted e).bsLen = s.bsLen := rfl
@[simp] theorem flagsFaulted_pad (s : State) (e : CodecError) : (s.flagsFaulted e).pad = s.pad := rfl
@[simp] theorem flagsFaulted_lzc (s : State) (e : CodecError) : (s.flagsFaulted e).lzc = s.lzc := rfl
@[simp] theorem flagsFaulted_total (s : State) (e : CodecError) : (s.flagsFaulted e).total = s.total := rfl
@[simp] theorem flagsFaulted_nsym (s : State) (e : CodecError) : (s.flagsFaulted e).nsym = s.nsym := rfl
@[simp] theorem flagsFaulted_root (s : State) (e : CodecError) : (s.flagsFaulted e).root = s.root := rfl
@[simp] theorem flagsFaulted_nnodes (s : State) (e : CodecError) : (s.flagsFaulted e).nnodes = s.nnodes := rfl
@[simp] theorem flagsFaulted_cand (s : State) (e : CodecError) : (s.flagsFaulted e).cand = s.cand := rfl
@[simp] theorem flagsFaulted_candLen (s : State) (e : CodecError) : (s.flagsFaulted e).candLen = s.candLen := rfl
@[simp] theorem flagsFaulted_freq (s : State) (e : CodecError) : (s.flagsFaulted e).freq = s.freq := rfl
@[simp] theorem flagsFaulted_node (s : State) (e : CodecError) : (s.flagsFaulted e).node = s.node := rfl
@[simp] theorem flagsFaulted_pq (s : State) (e : CodecError) : (s.flagsFaulted e).pq = s.pq := rfl
@[simp] theorem flagsFaulted_ct (s : State) (e : CodecError) : (s.flagsFaulted e).ct = s.ct := rfl
@[simp] theorem flagsFaulted_running (s : State) (e : CodecError) : (s.flagsFaulted e).running = none := rfl
@[simp] theorem flagsFaulted_script (s : State) (e : CodecError) : (s.flagsFaulted e).script = s.script := rfl
@[simp] theorem flagsFaulted_reads (s : State) (e : CodecError) : (s.flagsFaulted e).reads = s.reads := rfl
@[simp] theorem flagsFaulted_pollsLeft (s : State) (e : CodecError) : (s.flagsFaulted e).pollsLeft = s.pollsLeft := rfl
@[simp] theorem flagsFaulted_tick (s : State) (e : CodecError) : (s.flagsFaulted e).tick = s.tick := rfl
@[simp] theorem flagsFaulted_ended (s : State) (e : CodecError) : (s.flagsFaulted e).ended = s.ended := rfl

/-! ### flagDegen -/

@[simp] theorem flagDegen_cap (s : State) : s.flagDegen.cap = s.cap := rfl
@[simp] theorem flagDegen_inBuf (s : State) : s.flagDegen.inBuf = s.inBuf := rfl
@[simp] theorem flagDegen_outBuf (s : State) : s.flagDegen.outBuf = s.outBuf := rfl
@[simp] theorem flagDegen_bsBuf (s : State) : s.flagDegen.bsBuf = s.bsBuf := rfl
@[simp] theorem flagDegen_bsStale (s : State) : s.flagDegen.bsStale = s.bsStale := rfl
@[simp] theorem flagDegen_busy (s : State) : s.flagDegen.busy = s.busy := rfl
@[simp] theorem flagDegen_done (s : State) : s.flagDegen.done = s.done := rfl
@[simp] theorem flagDegen_err (s : State) : s.flagDegen.err = s.err := rfl
@[simp] theorem flagDegen_degen (s : State) : s.flagDegen.degen = (s.nsym == 1) := rfl
@[simp] theorem flagDegen_ecode (s : State) : s.flagDegen.ecode = s.ecode := rfl
@[simp] theorem flagDegen_phase (s : State) : s.flagDegen.phase = s.phase := rfl
@[simp] theorem flagDegen_inLen (s : State) : s.flagDegen.inLen = s.inLen := rfl
@[simp] theorem flagDegen_outLen (s : State) : s.flagDegen.outLen = s.outLen := rfl
@[simp] theorem flagDegen_bsLen (s : State) : s.flagDegen.bsLen = s.bsLen := rfl
@[simp] theorem flagDegen_pad (s : State) : s.flagDegen.pad = s.pad := rfl
@[simp] theorem flagDegen_lzc (s : State) : s.flagDegen.lzc = s.lzc := rfl
@[simp] theorem flagDegen_total (s : State) : s.flagDegen.total = s.total := rfl
@[simp] theorem flagDegen_nsym (s : State) : s.flagDegen.nsym = s.nsym := rfl
@[simp] theorem flagDegen_root (s : State) : s.flagDegen.root = s.root := rfl
@[simp] theorem flagDegen_nnodes (s : State) : s.flagDegen.nnodes = s.nnodes := rfl
@[simp] theorem flagDegen_cand (s : State) : s.flagDegen.cand = s.cand := rfl
@[simp] theorem flagDegen_candLen (s : State) : s.flagDegen.candLen = s.candLen := rfl
@[simp] theorem flagDegen_freq (s : State) : s.flagDegen.freq = s.freq := rfl
@[simp] theorem flagDegen_node (s : State) : s.flagDegen.node = s.node := rfl
@[simp] theorem flagDegen_pq (s : State) : s.flagDegen.pq = s.pq := rfl
@[simp] theorem flagDegen_ct (s : State) : s.flagDegen.ct = s.ct := rfl
@[simp] theorem flagDegen_running (s : State) : s.flagDegen.running = s.running := rfl
@[simp] theorem flagDegen_script (s : State) : s.flagDegen.script = s.script := rfl
@[simp] theorem flagDegen_reads (s : State) : s.flagDegen.reads = s.reads := rfl
@[simp] theorem flagDegen_pollsLeft (s : State) : s.flagDegen.pollsLeft = s.pollsLeft := rfl
@[simp] theorem flagDegen_tick (s : State) : s.flagDegen.tick = s.tick := rfl
@[simp] theorem flagDegen_ended (s : State) : s.flagDegen.ended = s.ended := rfl

/-! ### setForest -/

@[simp] theorem setForest_cap (s : State) (t : Forest) : (s.setForest t).cap = s.cap := rfl
@[simp] theorem setForest_inBuf (s : State) (t : Forest) : (s.setForest t).inBuf = s.inBuf := rfl
@[simp] theorem setForest_outBuf (s : State) (t : Forest) : (s.setForest t).outBuf = s.outBuf := rfl
@[simp] theorem setForest_bsBuf (s : State) (t : Forest) : (s.setForest t).bsBuf = s.bsBuf := rfl
@[simp] theorem setForest_bsStale (s : State) (t : Forest) : (s.setForest t).bsStale = s.bsStale := rfl
@[simp] theorem setForest_busy (s : State) (t : Forest) : (s.setForest t).busy = s.busy := rfl
@[simp] theorem setForest_done (s : State) (t : Forest) : (s.setForest t).done = s.done := rfl
@[simp] theorem setForest_err (s : State) (t : Forest) : (s.setForest t).err = s.err := rfl
@[simp] theorem setForest_degen (s : State) (t : Forest) : (s.setForest t).degen = s.degen := rfl
@[simp] theorem setForest_ecode (s : State) (t : Forest) : (s.setForest t).ecode = s.ecode := rfl
@[simp] theorem setForest_phase (s : State) (t : Forest) : (s.setForest t).phase = s.phase := rfl
@[simp] theorem setForest_inLen (s : State) (t : Forest) : (s.setForest t).inLen = s.inLen := rfl
@[simp] theorem setForest_outLen (s : State) (t : Forest) : (s.setForest t).outLen = s.outLen := rfl
@[simp] theorem setForest_bsLen (s : State) (t : Forest) : (s.setForest t).bsLen = s.bsLen := rfl
@[simp] theorem setForest_pad (s : State) (t : Forest) : (s.setForest t).pad = s.pad := rfl
@[simp] theorem setForest_lzc (s : State) (t : Forest) : (s.setForest t).lzc = s.lzc := rfl
@[simp] theorem setForest_total (s : State) (t : Forest) : (s.setForest t).total = s.total := rfl
@[simp] theorem setForest_nsym (s : State) (t : Forest) : (s.setForest t).nsym = s.nsym := rfl
@[simp] theorem setForest_root (s : State) (t : Forest) : (s.setForest t).root = s.root := rfl
@[simp] theorem setForest_nnodes (s : State) (t : Forest) : (s.setForest t).nnodes = t.nnodes := rfl
@[simp] theorem setForest_cand (s : State) (t : Forest) : (s.setForest t).cand = s.cand := rfl
@[simp] theorem setForest_candLen (s : State) (t : Forest) : (s.setForest t).candLen = s.candLen := rfl
@[simp] theorem setForest_freq (s : State) (t : Forest) : (s.setForest t).freq = s.freq := rfl
@[simp] theorem setForest_node (s : State) (t : Forest) : (s.setForest t).node = t.node := rfl
@[simp] theorem setForest_pq (s : State) (t : Forest) : (s.setForest t).pq = t.pq := rfl
@[simp] theorem setForest_ct (s : State) (t : Forest) : (s.setForest t).ct = s.ct := rfl
@[simp] theorem setForest_running (s : State) (t : Forest) : (s.setForest t).running = s.running := rfl
@[simp] theorem setForest_script (s : State) (t : Forest) : (s.setForest t).script = s.script := rfl
@[simp] theorem setForest_reads (s : State) (t : Forest) : (s.setForest t).reads = s.reads := rfl
@[simp] theorem setForest_pollsLeft (s : State) (t : Forest) : (s.setForest t).pollsLeft = s.pollsLeft := rfl
@[simp] theorem setForest_tick (s : State) (t : Forest) : (s.setForest t).tick = s.tick := rfl
@[simp] theorem setForest_ended (s : State) (t : Forest) : (s.setForest t).ended = s.ended := rfl

/-! ### startEncoder -/

@[simp] theorem startEncoder_cap (c : Command) (s : State) : (startEncoder c s).cap = s.cap := rfl
@[simp] theorem startEncoder_inBuf (c : Command) (s : State) : (startEncoder c s).inBuf = s.inBuf := rfl
@[simp] theorem startEncoder_outBuf (c : Command) (s : State) : (startEncoder c s).outBuf = s.outBuf := rfl
@[simp] theorem startEncoder_bsBuf (c : Command) (s : State) : (startEncoder c s).bsBuf = s.bsBuf := rfl
@[simp] theorem startEncoder_bsStale (c : Command) (s : State) : (startEncoder c s).bsStale = s.bsStale := rfl
@[simp] theorem startEncoder_busy (c : Command) (s : State) : (startEncoder c s).busy = true := rfl
@[simp] theorem startEncoder_done (c : Command) (s : State) : (startEncoder c s).done = false := rfl
@[simp] theorem startEncoder_err (c : Command) (s : State) : (startEncoder c s).err = false := rfl
@[simp] theorem startEncoder_degen (c : Command) (s : State) : (startEncoder c s).degen = false := rfl
@[simp] theorem startEncoder_ecode (c : Command) (s : State) : (startEncoder c s).ecode = none := rfl
@[simp] theorem startEncoder_phase (c : Command) (s : State) : (startEncoder c s).phase = .count := rfl
@[simp] theorem startEncoder_inLen (c : Command) (s : State) : (startEncoder c s).inLen = s.inLen := rfl
@[simp] theorem startEncoder_outLen (c : Command) (s : State) : (startEncoder c s).outLen = 0 := rfl
@[simp] theorem startEncoder_bsLen (c : Command) (s : State) : (startEncoder c s).bsLen = 0 := rfl
@[simp] theorem startEncoder_pad (c : Command) (s : State) : (startEncoder c s).pad = 0 := rfl
@[simp] theorem startEncoder_lzc (c : Command) (s : State) : (startEncoder c s).lzc = 0 := rfl
@[simp] theorem startEncoder_total (c : Command) (s : State) : (startEncoder c s).total = 0 := rfl
@[simp] theorem startEncoder_nsym (c : Command) (s : State) : (startEncoder c s).nsym = 0 := rfl
@[simp] theorem startEncoder_root (c : Command) (s : State) : (startEncoder c s).root = 0 := rfl
@[simp] theorem startEncoder_nnodes (c : Command) (s : State) : (startEncoder c s).nnodes = 0 := rfl
@[simp] theorem startEncoder_cand (c : Command) (s : State) : (startEncoder c s).cand = [] := rfl
@[simp] theorem startEncoder_candLen (c : Command) (s : State) : (startEncoder c s).candLen = 0 := rfl
@[simp] theorem startEncoder_freq (c : Command) (s : State) : (startEncoder c s).freq = FreqFile.zero := rfl
@[simp] theorem startEncoder_node (c : Command) (s : State) : (startEncoder c s).node = NodeFile.zero := rfl
@[simp] theorem startEncoder_pq (c : Command) (s : State) : (startEncoder c s).pq = [] := rfl
@[simp] theorem startEncoder_ct (c : Command) (s : State) : (startEncoder c s).ct = CodeTable.zero := rfl
@[simp] theorem startEncoder_running (c : Command) (s : State) : (startEncoder c s).running = some c := rfl
@[simp] theorem startEncoder_script (c : Command) (s : State) : (startEncoder c s).script = s.script := rfl
@[simp] theorem startEncoder_reads (c : Command) (s : State) : (startEncoder c s).reads = s.reads := rfl
@[simp] theorem startEncoder_pollsLeft (c : Command) (s : State) : (startEncoder c s).pollsLeft = s.pollsLeft := rfl
@[simp] theorem startEncoder_tick (c : Command) (s : State) : (startEncoder c s).tick = s.tick := rfl
@[simp] theorem startEncoder_ended (c : Command) (s : State) : (startEncoder c s).ended = s.ended := rfl

/-! ### startDecompress -/

@[simp] theorem startDecompress_cap (s : State) : (startDecompress s).cap = s.cap := rfl
@[simp] theorem startDecompress_inBuf (s : State) : (startDecompress s).inBuf = s.inBuf := rfl
@[simp] theorem startDecompress_outBuf (s : State) : (startDecompress s).outBuf = s.outBuf := rfl
@[simp] theorem startDecompress_bsBuf (s : State) : (startDecompress s).bsBuf = s.bsBuf := rfl
@[simp] theorem startDecompress_bsStale (s : State) : (startDecompress s).bsStale = s.bsStale := rfl
@[simp] theorem startDecompress_busy (s : State) : (startDecompress s).busy = true := rfl
@[simp] theorem startDecompress_done (s : State) : (startDecompress s).done = false := rfl
@[simp] theorem startDecompress_err (s : State) : (startDecompress s).err = false := rfl
@[simp] theorem startDecompress_degen (s : State) : (startDecompress s).degen = false := rfl
@[simp] theorem startDecompress_ecode (s : State) : (startDecompress s).ecode = none := rfl
@[simp] theorem startDecompress_phase (s : State) : (startDecompress s).phase = .header := rfl
@[simp] theorem startDecompress_inLen (s : State) : (startDecompress s).inLen = s.inLen := rfl
@[simp] theorem startDecompress_outLen (s : State) : (startDecompress s).outLen = 0 := rfl
@[simp] theorem startDecompress_bsLen (s : State) : (startDecompress s).bsLen = 0 := rfl
@[simp] theorem startDecompress_pad (s : State) : (startDecompress s).pad = 0 := rfl
@[simp] theorem startDecompress_lzc (s : State) : (startDecompress s).lzc = 0 := rfl
@[simp] theorem startDecompress_total (s : State) : (startDecompress s).total = s.total := rfl
@[simp] theorem startDecompress_nsym (s : State) : (startDecompress s).nsym = s.nsym := rfl
@[simp] theorem startDecompress_root (s : State) : (startDecompress s).root = s.root := rfl
@[simp] theorem startDecompress_nnodes (s : State) : (startDecompress s).nnodes = s.nnodes := rfl
@[simp] theorem startDecompress_cand (s : State) : (startDecompress s).cand = [] := rfl
@[simp] theorem startDecompress_candLen (s : State) : (startDecompress s).candLen = 0 := rfl
@[simp] theorem startDecompress_freq (s : State) : (startDecompress s).freq = s.freq := rfl
@[simp] theorem startDecompress_node (s : State) : (startDecompress s).node = s.node := rfl
@[simp] theorem startDecompress_pq (s : State) : (startDecompress s).pq = s.pq := rfl
@[simp] theorem startDecompress_ct (s : State) : (startDecompress s).ct = s.ct := rfl
@[simp] theorem startDecompress_running (s : State) : (startDecompress s).running = some .decompress := rfl
@[simp] theorem startDecompress_script (s : State) : (startDecompress s).script = s.script := rfl
@[simp] theorem startDecompress_reads (s : State) : (startDecompress s).reads = s.reads := rfl
@[simp] theorem startDecompress_pollsLeft (s : State) : (startDecompress s).pollsLeft = s.pollsLeft := rfl
@[simp] theorem startDecompress_tick (s : State) : (startDecompress s).tick = s.tick := rfl
@[simp] theorem startDecompress_ended (s : State) : (startDecompress s).ended = s.ended := rfl

/-! ### startDecode -/

@[simp] theorem startDecode_cap (s : State) : (startDecode s).cap = s.cap := rfl
@[simp] theorem startDecode_inBuf (s : State) : (startDecode s).inBuf = s.inBuf := rfl
@[simp] theorem startDecode_outBuf (s : State) : (startDecode s).outBuf = s.outBuf := rfl
@[simp] theorem startDecode_bsBuf (s : State) : (startDecode s).bsBuf = s.bsBuf := rfl
@[simp] theorem startDecode_bsStale (s : State) : (startDecode s).bsStale = s.bsStale := rfl
@[simp] theorem startDecode_busy (s : State) : (startDecode s).busy = true := rfl
@[simp] theorem startDecode_done (s : State) : (startDecode s).done = false := rfl
@[simp] theorem startDecode_err (s : State) : (startDecode s).err = false := rfl
@[simp] theorem startDecode_degen (s : State) : (startDecode s).degen = false := rfl
@[simp] theorem startDecode_ecode (s : State) : (startDecode s).ecode = none := rfl
@[simp] theorem startDecode_phase (s : State) : (startDecode s).phase = .invert := rfl
@[simp] theorem startDecode_inLen (s : State) : (startDecode s).inLen = s.inLen := rfl
@[simp] theorem startDecode_outLen (s : State) : (startDecode s).outLen = 0 := rfl
@[simp] theorem startDecode_bsLen (s : State) : (startDecode s).bsLen = s.bsLen := rfl
@[simp] theorem startDecode_pad (s : State) : (startDecode s).pad = 0 := rfl
@[simp] theorem startDecode_lzc (s : State) : (startDecode s).lzc = 0 := rfl
@[simp] theorem startDecode_total (s : State) : (startDecode s).total = s.total := rfl
@[simp] theorem startDecode_nsym (s : State) : (startDecode s).nsym = s.nsym := rfl
@[simp] theorem startDecode_root (s : State) : (startDecode s).root = s.root := rfl
@[simp] theorem startDecode_nnodes (s : State) : (startDecode s).nnodes = s.nnodes := rfl
@[simp] theorem startDecode_cand (s : State) : (startDecode s).cand = [] := rfl
@[simp] theorem startDecode_candLen (s : State) : (startDecode s).candLen = 0 := rfl
@[simp] theorem startDecode_freq (s : State) : (startDecode s).freq = s.freq := rfl
@[simp] theorem startDecode_node (s : State) : (startDecode s).node = s.node := rfl
@[simp] theorem startDecode_pq (s : State) : (startDecode s).pq = s.pq := rfl
@[simp] theorem startDecode_ct (s : State) : (startDecode s).ct = s.ct := rfl
@[simp] theorem startDecode_running (s : State) : (startDecode s).running = some .decode := rfl
@[simp] theorem startDecode_script (s : State) : (startDecode s).script = s.script := rfl
@[simp] theorem startDecode_reads (s : State) : (startDecode s).reads = s.reads := rfl
@[simp] theorem startDecode_pollsLeft (s : State) : (startDecode s).pollsLeft = s.pollsLeft := rfl
@[simp] theorem startDecode_tick (s : State) : (startDecode s).tick = s.tick := rfl
@[simp] theorem startDecode_ended (s : State) : (startDecode s).ended = s.ended := rfl

/-! ### writeBits -/

@[simp] theorem writeBits_cap (s : State) (idx : Nat) (vs : List Bit) : (s.writeBits idx vs).cap = s.cap := rfl
@[simp] theorem writeBits_inBuf (s : State) (idx : Nat) (vs : List Bit) : (s.writeBits idx vs).inBuf = s.inBuf := rfl
@[simp] theorem writeBits_outBuf (s : State) (idx : Nat) (vs : List Bit) : (s.writeBits idx vs).outBuf = s.outBuf := rfl
@[simp] theorem writeBits_bsBuf (s : State) (idx : Nat) (vs : List Bit) : (s.writeBits idx vs).bsBuf = memWrite s.bsBuf idx vs := rfl
@[simp] theorem writeBits_busy (s : State) (idx : Nat) (vs : List Bit) : (s.writeBits idx vs).busy = s.busy := rfl
@[simp] theorem writeBits_done (s : State) (idx : Nat) (vs : List Bit) : (s.writeBits idx vs).done = s.done := rfl
@[simp] theorem writeBits_err (s : State) (idx : Nat) (vs : List Bit) : (s.writeBits idx vs).err = s.err := rfl
@[simp] theorem writeBits_degen (s : State) (idx : Nat) (vs : List Bit) : (s.writeBits idx vs).degen = s.degen := rfl
@[simp] theorem writeBits_ecode (s : State) (idx : Nat) (vs : List Bit) : (s.writeBits idx vs).ecode = s.ecode := rfl
@[simp] theorem writeBits_phase (s : State) (idx : Nat) (vs : List Bit) : (s.writeBits idx vs).phase = s.phase := rfl
@[simp] theorem writeBits_inLen (s : State) (idx : Nat) (vs : List Bit) : (s.writeBits idx vs).inLen = s.inLen := rfl
@[simp] theorem writeBits_outLen (s : State) (idx : Nat) (vs : List Bit) : (s.writeBits idx vs).outLen = s.outLen := rfl
@[simp] theorem writeBits_bsLen (s : State) (idx : Nat) (vs : List Bit) : (s.writeBits idx vs).bsLen = s.bsLen := rfl
@[simp] theorem writeBits_pad (s : State) (idx : Nat) (vs : List Bit) : (s.writeBits idx vs).pad = s.pad := rfl
@[simp] theorem writeBits_lzc (s : State) (idx : Nat) (vs : List Bit) : (s.writeBits idx vs).lzc = s.lzc := rfl
@[simp] theorem writeBits_total (s : State) (idx : Nat) (vs : List Bit) : (s.writeBits idx vs).total = s.total := rfl
@[simp] theorem writeBits_nsym (s : State) (idx : Nat) (vs : List Bit) : (s.writeBits idx vs).nsym = s.nsym := rfl
@[simp] theorem writeBits_root (s : State) (idx : Nat) (vs : List Bit) : (s.writeBits idx vs).root = s.root := rfl
@[simp] theorem writeBits_nnodes (s : State) (idx : Nat) (vs : List Bit) : (s.writeBits idx vs).nnodes = s.nnodes := rfl
@[simp] theorem writeBits_cand (s : State) (idx : Nat) (vs : List Bit) : (s.writeBits idx vs).cand = s.cand := rfl
@[simp] theorem writeBits_candLen (s : State) (idx : Nat) (vs : List Bit) : (s.writeBits idx vs).candLen = s.candLen := rfl
@[simp] theorem writeBits_freq (s : State) (idx : Nat) (vs : List Bit) : (s.writeBits idx vs).freq = s.freq := rfl
@[simp] theorem writeBits_node (s : State) (idx : Nat) (vs : List Bit) : (s.writeBits idx vs).node = s.node := rfl
@[simp] theorem writeBits_pq (s : State) (idx : Nat) (vs : List Bit) : (s.writeBits idx vs).pq = s.pq := rfl
@[simp] theorem writeBits_ct (s : State) (idx : Nat) (vs : List Bit) : (s.writeBits idx vs).ct = s.ct := rfl
@[simp] theorem writeBits_running (s : State) (idx : Nat) (vs : List Bit) : (s.writeBits idx vs).running = s.running := rfl
@[simp] theorem writeBits_script (s : State) (idx : Nat) (vs : List Bit) : (s.writeBits idx vs).script = s.script := rfl
@[simp] theorem writeBits_reads (s : State) (idx : Nat) (vs : List Bit) : (s.writeBits idx vs).reads = s.reads := rfl
@[simp] theorem writeBits_pollsLeft (s : State) (idx : Nat) (vs : List Bit) : (s.writeBits idx vs).pollsLeft = s.pollsLeft := rfl
@[simp] theorem writeBits_tick (s : State) (idx : Nat) (vs : List Bit) : (s.writeBits idx vs).tick = s.tick := rfl
@[simp] theorem writeBits_ended (s : State) (idx : Nat) (vs : List Bit) : (s.writeBits idx vs).ended = s.ended := rfl

/-! ### markStale -/

@[simp] theorem markStale_cap (s : State) : s.markStale.cap = s.cap := rfl
@[simp] theorem markStale_inBuf (s : State) : s.markStale.inBuf = s.inBuf := rfl
@[simp] theorem markStale_outBuf (s : State) : s.markStale.outBuf = s.outBuf := rfl
@[simp] theorem markStale_bsBuf (s : State) : s.markStale.bsBuf = s.bsBuf := rfl
@[simp] theorem markStale_busy (s : State) : s.markStale.busy = s.busy := rfl
@[simp] theorem markStale_done (s : State) : s.markStale.done = s.done := rfl
@[simp] theorem markStale_err (s : State) : s.markStale.err = s.err := rfl
@[simp] theorem markStale_degen (s : State) : s.markStale.degen = s.degen := rfl
@[simp] theorem markStale_ecode (s : State) : s.markStale.ecode = s.ecode := rfl
@[simp] theorem markStale_phase (s : State) : s.markStale.phase = s.phase := rfl
@[simp] theorem markStale_inLen (s : State) : s.markStale.inLen = s.inLen := rfl
@[simp] theorem markStale_outLen (s : State) : s.markStale.outLen = s.outLen := rfl
@[simp] theorem markStale_bsLen (s : State) : s.markStale.bsLen = s.bsLen := rfl
@[simp] theorem markStale_pad (s : State) : s.markStale.pad = s.pad := rfl
@[simp] theorem markStale_lzc (s : State) : s.markStale.lzc = s.lzc := rfl
@[simp] theorem markStale_total (s : State) : s.markStale.total = s.total := rfl
@[simp] theorem markStale_nsym (s : State) : s.markStale.nsym = s.nsym := rfl
@[simp] theorem markStale_root (s : State) : s.markStale.root = s.root := rfl
@[simp] theorem markStale_nnodes (s : State) : s.markStale.nnodes = s.nnodes := rfl
@[simp] theorem markStale_cand (s : State) : s.markStale.cand = s.cand := rfl
@[simp] theorem markStale_candLen (s : State) : s.markStale.candLen = s.candLen := rfl
@[simp] theorem markStale_freq (s : State) : s.markStale.freq = s.freq := rfl
@[simp] theorem markStale_node (s : State) : s.markStale.node = s.node := rfl
@[simp] theorem markStale_pq (s : State) : s.markStale.pq = s.pq := rfl
@[simp] theorem markStale_ct (s : State) : s.markStale.ct = s.ct := rfl
@[simp] theorem markStale_running (s : State) : s.markStale.running = s.running := rfl
@[simp] theorem markStale_script (s : State) : s.markStale.script = s.script := rfl
@[simp] theorem markStale_reads (s : State) : s.markStale.reads = s.reads := rfl
@[simp] theorem markStale_pollsLeft (s : State) : s.markStale.pollsLeft = s.pollsLeft := rfl
@[simp] theorem markStale_tick (s : State) : s.markStale.tick = s.tick := rfl
@[simp] theorem markStale_ended (s : State) : s.markStale.ended = s.ended + 1 := rfl

/-! ### completeCommand -/

@[simp] theorem completeCommand_cap (s : State) : (completeCommand s).cap = s.cap := rfl
@[simp] theorem completeCommand_inBuf (s : State) : (completeCommand s).inBuf = s.inBuf := rfl
@[simp] theorem completeCommand_outBuf (s : State) : (completeCommand s).outBuf = s.outBuf := rfl
@[simp] theorem completeCommand_bsBuf (s : State) : (completeCommand s).bsBuf = s.bsBuf := rfl
@[simp] theorem completeCommand_bsStale (s : State) : (completeCommand s).bsStale = s.markStale.bsStale := rfl
@[simp] theorem completeCommand_busy (s : State) : (completeCommand s).busy = false := rfl
@[simp] theorem completeCommand_done (s : State) : (completeCommand s).done = true := rfl
@[simp] theorem completeCommand_err (s : State) : (completeCommand s).err = s.err := rfl
@[simp] theorem completeCommand_degen (s : State) : (completeCommand s).degen = s.degen := rfl
@[simp] theorem completeCommand_ecode (s : State) : (completeCommand s).ecode = s.ecode := rfl
@[simp] theorem completeCommand_phase (s : State) : (completeCommand s).phase = .idle := rfl
@[simp] theorem completeCommand_inLen (s : State) : (completeCommand s).inLen = s.inLen := rfl
@[simp] theorem completeCommand_outLen (s : State) : (completeCommand s).outLen = s.outLen := rfl
@[simp] theorem completeCommand_bsLen (s : State) : (completeCommand s).bsLen = s.bsLen := rfl
@[simp] theorem completeCommand_pad (s : State) : (completeCommand s).pad = s.pad := rfl
@[simp] theorem completeCommand_lzc (s : State) : (completeCommand s).lzc = s.lzc := rfl
@[simp] theorem completeCommand_total (s : State) : (completeCommand s).total = s.total := rfl
@[simp] theorem completeCommand_nsym (s : State) : (completeCommand s).nsym = s.nsym := rfl
@[simp] theorem completeCommand_root (s : State) : (completeCommand s).root = s.root := rfl
@[simp] theorem completeCommand_nnodes (s : State) : (completeCommand s).nnodes = s.nnodes := rfl
@[simp] theorem completeCommand_cand (s : State) : (completeCommand s).cand = s.cand := rfl
@[simp] theorem completeCommand_candLen (s : State) : (completeCommand s).candLen = s.candLen := rfl
@[simp] theorem completeCommand_freq (s : State) : (completeCommand s).freq = s.freq := rfl
@[simp] theorem completeCommand_node (s : State) : (completeCommand s).node = s.node := rfl
@[simp] theorem completeCommand_pq (s : State) : (completeCommand s).pq = s.pq := rfl
@[simp] theorem completeCommand_ct (s : State) : (completeCommand s).ct = s.ct := rfl
@[simp] theorem completeCommand_running (s : State) : (completeCommand s).running = none := rfl
@[simp] theorem completeCommand_script (s : State) : (completeCommand s).script = s.script := rfl
@[simp] theorem completeCommand_reads (s : State) : (completeCommand s).reads = s.reads := rfl
@[simp] theorem completeCommand_pollsLeft (s : State) : (completeCommand s).pollsLeft = s.pollsLeft := rfl
@[simp] theorem completeCommand_tick (s : State) : (completeCommand s).tick = s.tick := rfl
@[simp] theorem completeCommand_ended (s : State) : (completeCommand s).ended = s.ended + 1 := rfl

/-! ### raiseIllegalCommand -/

@[simp] theorem raiseIllegalCommand_cap (s : State) : (raiseIllegalCommand s).cap = s.cap := rfl
@[simp] theorem raiseIllegalCommand_inBuf (s : State) : (raiseIllegalCommand s).inBuf = s.inBuf := rfl
@[simp] theorem raiseIllegalCommand_outBuf (s : State) : (raiseIllegalCommand s).outBuf = s.outBuf := rfl
@[simp] theorem raiseIllegalCommand_bsBuf (s : State) : (raiseIllegalCommand s).bsBuf = s.bsBuf := rfl
@[simp] theorem raiseIllegalCommand_bsStale (s : State) : (raiseIllegalCommand s).bsStale = s.bsStale := rfl
@[simp] theorem raiseIllegalCommand_busy (s : State) : (raiseIllegalCommand s).busy = false := rfl
@[simp] theorem raiseIllegalCommand_done (s : State) : (raiseIllegalCommand s).done = true := rfl
@[simp] theorem raiseIllegalCommand_err (s : State) : (raiseIllegalCommand s).err = true := rfl
@[simp] theorem raiseIllegalCommand_degen (s : State) : (raiseIllegalCommand s).degen = false := rfl
@[simp] theorem raiseIllegalCommand_ecode (s : State) : (raiseIllegalCommand s).ecode = some .illegalCommand := rfl
@[simp] theorem raiseIllegalCommand_phase (s : State) : (raiseIllegalCommand s).phase = .idle := rfl
@[simp] theorem raiseIllegalCommand_inLen (s : State) : (raiseIllegalCommand s).inLen = s.inLen := rfl
@[simp] theorem raiseIllegalCommand_outLen (s : State) : (raiseIllegalCommand s).outLen = 0 := rfl
@[simp] theorem raiseIllegalCommand_bsLen (s : State) : (raiseIllegalCommand s).bsLen = s.bsLen := rfl
@[simp] theorem raiseIllegalCommand_pad (s : State) : (raiseIllegalCommand s).pad = s.pad := rfl
@[simp] theorem raiseIllegalCommand_lzc (s : State) : (raiseIllegalCommand s).lzc = s.lzc := rfl
@[simp] theorem raiseIllegalCommand_total (s : State) : (raiseIllegalCommand s).total = s.total := rfl
@[simp] theorem raiseIllegalCommand_nsym (s : State) : (raiseIllegalCommand s).nsym = s.nsym := rfl
@[simp] theorem raiseIllegalCommand_root (s : State) : (raiseIllegalCommand s).root = s.root := rfl
@[simp] theorem raiseIllegalCommand_nnodes (s : State) : (raiseIllegalCommand s).nnodes = s.nnodes := rfl
@[simp] theorem raiseIllegalCommand_cand (s : State) : (raiseIllegalCommand s).cand = s.cand := rfl
@[simp] theorem raiseIllegalCommand_candLen (s : State) : (raiseIllegalCommand s).candLen = s.candLen := rfl
@[simp] theorem raiseIllegalCommand_freq (s : State) : (raiseIllegalCommand s).freq = s.freq := rfl
@[simp] theorem raiseIllegalCommand_node (s : State) : (raiseIllegalCommand s).node = s.node := rfl
@[simp] theorem raiseIllegalCommand_pq (s : State) : (raiseIllegalCommand s).pq = s.pq := rfl
@[simp] theorem raiseIllegalCommand_ct (s : State) : (raiseIllegalCommand s).ct = s.ct := rfl
@[simp] theorem raiseIllegalCommand_running (s : State) : (raiseIllegalCommand s).running = none := rfl
@[simp] theorem raiseIllegalCommand_script (s : State) : (raiseIllegalCommand s).script = s.script := rfl
@[simp] theorem raiseIllegalCommand_reads (s : State) : (raiseIllegalCommand s).reads = s.reads := rfl
@[simp] theorem raiseIllegalCommand_pollsLeft (s : State) : (raiseIllegalCommand s).pollsLeft = s.pollsLeft := rfl
@[simp] theorem raiseIllegalCommand_tick (s : State) : (raiseIllegalCommand s).tick = s.tick := rfl
@[simp] theorem raiseIllegalCommand_ended (s : State) : (raiseIllegalCommand s).ended = s.ended := rfl

/-! ### clearState -/

@[simp] theorem clearState_cap (s : State) : (clearState s).cap = s.cap := rfl
@[simp] theorem clearState_inBuf (s : State) : (clearState s).inBuf = s.inBuf := rfl
@[simp] theorem clearState_outBuf (s : State) : (clearState s).outBuf = s.outBuf := rfl
@[simp] theorem clearState_bsBuf (s : State) : (clearState s).bsBuf = s.bsBuf := rfl
@[simp] theorem clearState_bsStale (s : State) : (clearState s).bsStale = (State.markStale { s with bsLen := 0 }).bsStale := rfl
@[simp] theorem clearState_busy (s : State) : (clearState s).busy = false := rfl
@[simp] theorem clearState_done (s : State) : (clearState s).done = false := rfl
@[simp] theorem clearState_err (s : State) : (clearState s).err = false := rfl
@[simp] theorem clearState_degen (s : State) : (clearState s).degen = false := rfl
@[simp] theorem clearState_ecode (s : State) : (clearState s).ecode = none := rfl
@[simp] theorem clearState_phase (s : State) : (clearState s).phase = .idle := rfl
@[simp] theorem clearState_inLen (s : State) : (clearState s).inLen = 0 := rfl
@[simp] theorem clearState_outLen (s : State) : (clearState s).outLen = 0 := rfl
@[simp] theorem clearState_bsLen (s : State) : (clearState s).bsLen = 0 := rfl
@[simp] theorem clearState_pad (s : State) : (clearState s).pad = 0 := rfl
@[simp] theorem clearState_lzc (s : State) : (clearState s).lzc = 0 := rfl
@[simp] theorem clearState_total (s : State) : (clearState s).total = 0 := rfl
@[simp] theorem clearState_nsym (s : State) : (clearState s).nsym = 0 := rfl
@[simp] theorem clearState_root (s : State) : (clearState s).root = 0 := rfl
@[simp] theorem clearState_nnodes (s : State) : (clearState s).nnodes = 0 := rfl
@[simp] theorem clearState_cand (s : State) : (clearState s).cand = [] := rfl
@[simp] theorem clearState_candLen (s : State) : (clearState s).candLen = 0 := rfl
@[simp] theorem clearState_freq (s : State) : (clearState s).freq = FreqFile.zero := rfl
@[simp] theorem clearState_node (s : State) : (clearState s).node = NodeFile.zero := rfl
@[simp] theorem clearState_pq (s : State) : (clearState s).pq = [] := rfl
@[simp] theorem clearState_ct (s : State) : (clearState s).ct = CodeTable.zero := rfl
@[simp] theorem clearState_running (s : State) : (clearState s).running = none := rfl
@[simp] theorem clearState_script (s : State) : (clearState s).script = s.script := rfl
@[simp] theorem clearState_reads (s : State) : (clearState s).reads = s.reads := rfl
@[simp] theorem clearState_pollsLeft (s : State) : (clearState s).pollsLeft = s.pollsLeft := rfl
@[simp] theorem clearState_tick (s : State) : (clearState s).tick = s.tick := rfl
@[simp] theorem clearState_ended (s : State) : (clearState s).ended = s.ended + 1 := rfl

/-! ### applyReset -/

@[simp] theorem applyReset_cap (s : State) : (applyReset s).cap = s.cap := rfl
@[simp] theorem applyReset_inBuf (s : State) : (applyReset s).inBuf = [] := rfl
@[simp] theorem applyReset_outBuf (s : State) : (applyReset s).outBuf = [] := rfl
@[simp] theorem applyReset_bsBuf (s : State) : (applyReset s).bsBuf = [] := rfl
@[simp] theorem applyReset_bsStale (s : State) : (applyReset s).bsStale = [] := rfl
@[simp] theorem applyReset_busy (s : State) : (applyReset s).busy = false := rfl
@[simp] theorem applyReset_done (s : State) : (applyReset s).done = false := rfl
@[simp] theorem applyReset_err (s : State) : (applyReset s).err = false := rfl
@[simp] theorem applyReset_degen (s : State) : (applyReset s).degen = false := rfl
@[simp] theorem applyReset_ecode (s : State) : (applyReset s).ecode = none := rfl
@[simp] theorem applyReset_phase (s : State) : (applyReset s).phase = .idle := rfl
@[simp] theorem applyReset_inLen (s : State) : (applyReset s).inLen = 0 := rfl
@[simp] theorem applyReset_outLen (s : State) : (applyReset s).outLen = 0 := rfl
@[simp] theorem applyReset_bsLen (s : State) : (applyReset s).bsLen = 0 := rfl
@[simp] theorem applyReset_pad (s : State) : (applyReset s).pad = 0 := rfl
@[simp] theorem applyReset_lzc (s : State) : (applyReset s).lzc = 0 := rfl
@[simp] theorem applyReset_total (s : State) : (applyReset s).total = 0 := rfl
@[simp] theorem applyReset_nsym (s : State) : (applyReset s).nsym = 0 := rfl
@[simp] theorem applyReset_root (s : State) : (applyReset s).root = 0 := rfl
@[simp] theorem applyReset_nnodes (s : State) : (applyReset s).nnodes = 0 := rfl
@[simp] theorem applyReset_cand (s : State) : (applyReset s).cand = [] := rfl
@[simp] theorem applyReset_candLen (s : State) : (applyReset s).candLen = 0 := rfl
@[simp] theorem applyReset_freq (s : State) : (applyReset s).freq = FreqFile.zero := rfl
@[simp] theorem applyReset_node (s : State) : (applyReset s).node = NodeFile.zero := rfl
@[simp] theorem applyReset_pq (s : State) : (applyReset s).pq = [] := rfl
@[simp] theorem applyReset_ct (s : State) : (applyReset s).ct = CodeTable.zero := rfl
@[simp] theorem applyReset_running (s : State) : (applyReset s).running = none := rfl
@[simp] theorem applyReset_script (s : State) : (applyReset s).script = s.script := rfl
@[simp] theorem applyReset_reads (s : State) : (applyReset s).reads = s.reads := rfl
@[simp] theorem applyReset_pollsLeft (s : State) : (applyReset s).pollsLeft = s.pollsLeft := rfl
@[simp] theorem applyReset_tick (s : State) : (applyReset s).tick = s.tick := rfl
@[simp] theorem applyReset_ended (s : State) : (applyReset s).ended = s.ended := rfl

/-! ### returnRead -/

@[simp] theorem returnRead_cap (s : State) (v : PortWord) : (returnRead s v).cap = s.cap := rfl
@[simp] theorem returnRead_inBuf (s : State) (v : PortWord) : (returnRead s v).inBuf = s.inBuf := rfl
@[simp] theorem returnRead_outBuf (s : State) (v : PortWord) : (returnRead s v).outBuf = s.outBuf := rfl
@[simp] theorem returnRead_bsBuf (s : State) (v : PortWord) : (returnRead s v).bsBuf = s.bsBuf := rfl
@[simp] theorem returnRead_bsStale (s : State) (v : PortWord) : (returnRead s v).bsStale = s.bsStale := rfl
@[simp] theorem returnRead_busy (s : State) (v : PortWord) : (returnRead s v).busy = s.busy := rfl
@[simp] theorem returnRead_done (s : State) (v : PortWord) : (returnRead s v).done = s.done := rfl
@[simp] theorem returnRead_err (s : State) (v : PortWord) : (returnRead s v).err = s.err := rfl
@[simp] theorem returnRead_degen (s : State) (v : PortWord) : (returnRead s v).degen = s.degen := rfl
@[simp] theorem returnRead_ecode (s : State) (v : PortWord) : (returnRead s v).ecode = s.ecode := rfl
@[simp] theorem returnRead_phase (s : State) (v : PortWord) : (returnRead s v).phase = s.phase := rfl
@[simp] theorem returnRead_inLen (s : State) (v : PortWord) : (returnRead s v).inLen = s.inLen := rfl
@[simp] theorem returnRead_outLen (s : State) (v : PortWord) : (returnRead s v).outLen = s.outLen := rfl
@[simp] theorem returnRead_bsLen (s : State) (v : PortWord) : (returnRead s v).bsLen = s.bsLen := rfl
@[simp] theorem returnRead_pad (s : State) (v : PortWord) : (returnRead s v).pad = s.pad := rfl
@[simp] theorem returnRead_lzc (s : State) (v : PortWord) : (returnRead s v).lzc = s.lzc := rfl
@[simp] theorem returnRead_total (s : State) (v : PortWord) : (returnRead s v).total = s.total := rfl
@[simp] theorem returnRead_nsym (s : State) (v : PortWord) : (returnRead s v).nsym = s.nsym := rfl
@[simp] theorem returnRead_root (s : State) (v : PortWord) : (returnRead s v).root = s.root := rfl
@[simp] theorem returnRead_nnodes (s : State) (v : PortWord) : (returnRead s v).nnodes = s.nnodes := rfl
@[simp] theorem returnRead_cand (s : State) (v : PortWord) : (returnRead s v).cand = s.cand := rfl
@[simp] theorem returnRead_candLen (s : State) (v : PortWord) : (returnRead s v).candLen = s.candLen := rfl
@[simp] theorem returnRead_freq (s : State) (v : PortWord) : (returnRead s v).freq = s.freq := rfl
@[simp] theorem returnRead_node (s : State) (v : PortWord) : (returnRead s v).node = s.node := rfl
@[simp] theorem returnRead_pq (s : State) (v : PortWord) : (returnRead s v).pq = s.pq := rfl
@[simp] theorem returnRead_ct (s : State) (v : PortWord) : (returnRead s v).ct = s.ct := rfl
@[simp] theorem returnRead_running (s : State) (v : PortWord) : (returnRead s v).running = s.running := rfl
@[simp] theorem returnRead_script (s : State) (v : PortWord) : (returnRead s v).script = s.script := rfl
@[simp] theorem returnRead_reads (s : State) (v : PortWord) : (returnRead s v).reads = s.reads ++ [v] := rfl
@[simp] theorem returnRead_pollsLeft (s : State) (v : PortWord) : (returnRead s v).pollsLeft = s.pollsLeft := rfl
@[simp] theorem returnRead_tick (s : State) (v : PortWord) : (returnRead s v).tick = s.tick := rfl
@[simp] theorem returnRead_ended (s : State) (v : PortWord) : (returnRead s v).ended = s.ended := rfl

/-! ### raiseError: the fields no command makes differ -/

@[simp] theorem raiseError_cap (c : Option Command) (e : CodecError) (s : State) : (raiseError c e s).cap = s.cap := by
  cases c with
  | none => rfl
  | some c => cases c <;> rfl
@[simp] theorem raiseError_inBuf (c : Option Command) (e : CodecError) (s : State) : (raiseError c e s).inBuf = s.inBuf := by
  cases c with
  | none => rfl
  | some c => cases c <;> rfl
@[simp] theorem raiseError_outBuf (c : Option Command) (e : CodecError) (s : State) : (raiseError c e s).outBuf = s.outBuf := by
  cases c with
  | none => rfl
  | some c => cases c <;> rfl
@[simp] theorem raiseError_bsBuf (c : Option Command) (e : CodecError) (s : State) : (raiseError c e s).bsBuf = s.bsBuf := by
  cases c with
  | none => rfl
  | some c => cases c <;> rfl
@[simp] theorem raiseError_busy (c : Option Command) (e : CodecError) (s : State) : (raiseError c e s).busy = false := by
  cases c with
  | none => rfl
  | some c => cases c <;> rfl
@[simp] theorem raiseError_done (c : Option Command) (e : CodecError) (s : State) : (raiseError c e s).done = true := by
  cases c with
  | none => rfl
  | some c => cases c <;> rfl
@[simp] theorem raiseError_err (c : Option Command) (e : CodecError) (s : State) : (raiseError c e s).err = true := by
  cases c with
  | none => rfl
  | some c => cases c <;> rfl
@[simp] theorem raiseError_degen (c : Option Command) (e : CodecError) (s : State) : (raiseError c e s).degen = s.degen := by
  cases c with
  | none => rfl
  | some c => cases c <;> rfl
@[simp] theorem raiseError_ecode (c : Option Command) (e : CodecError) (s : State) : (raiseError c e s).ecode = some e := by
  cases c with
  | none => rfl
  | some c => cases c <;> rfl
@[simp] theorem raiseError_phase (c : Option Command) (e : CodecError) (s : State) : (raiseError c e s).phase = .idle := by
  cases c with
  | none => rfl
  | some c => cases c <;> rfl
@[simp] theorem raiseError_inLen (c : Option Command) (e : CodecError) (s : State) : (raiseError c e s).inLen = s.inLen := by
  cases c with
  | none => rfl
  | some c => cases c <;> rfl
@[simp] theorem raiseError_outLen (c : Option Command) (e : CodecError) (s : State) : (raiseError c e s).outLen = 0 := by
  cases c with
  | none => rfl
  | some c => cases c <;> rfl
@[simp] theorem raiseError_pad (c : Option Command) (e : CodecError) (s : State) : (raiseError c e s).pad = s.pad := by
  cases c with
  | none => rfl
  | some c => cases c <;> rfl
@[simp] theorem raiseError_lzc (c : Option Command) (e : CodecError) (s : State) : (raiseError c e s).lzc = s.lzc := by
  cases c with
  | none => rfl
  | some c => cases c <;> rfl
@[simp] theorem raiseError_total (c : Option Command) (e : CodecError) (s : State) : (raiseError c e s).total = s.total := by
  cases c with
  | none => rfl
  | some c => cases c <;> rfl
@[simp] theorem raiseError_nsym (c : Option Command) (e : CodecError) (s : State) : (raiseError c e s).nsym = s.nsym := by
  cases c with
  | none => rfl
  | some c => cases c <;> rfl
@[simp] theorem raiseError_root (c : Option Command) (e : CodecError) (s : State) : (raiseError c e s).root = s.root := by
  cases c with
  | none => rfl
  | some c => cases c <;> rfl
@[simp] theorem raiseError_nnodes (c : Option Command) (e : CodecError) (s : State) : (raiseError c e s).nnodes = s.nnodes := by
  cases c with
  | none => rfl
  | some c => cases c <;> rfl
@[simp] theorem raiseError_cand (c : Option Command) (e : CodecError) (s : State) : (raiseError c e s).cand = s.cand := by
  cases c with
  | none => rfl
  | some c => cases c <;> rfl
@[simp] theorem raiseError_candLen (c : Option Command) (e : CodecError) (s : State) : (raiseError c e s).candLen = s.candLen := by
  cases c with
  | none => rfl
  | some c => cases c <;> rfl
@[simp] theorem raiseError_freq (c : Option Command) (e : CodecError) (s : State) : (raiseError c e s).freq = s.freq := by
  cases c with
  | none => rfl
  | some c => cases c <;> rfl
@[simp] theorem raiseError_node (c : Option Command) (e : CodecError) (s : State) : (raiseError c e s).node = s.node := by
  cases c with
  | none => rfl
  | some c => cases c <;> rfl
@[simp] theorem raiseError_pq (c : Option Command) (e : CodecError) (s : State) : (raiseError c e s).pq = s.pq := by
  cases c with
  | none => rfl
  | some c => cases c <;> rfl
@[simp] theorem raiseError_running (c : Option Command) (e : CodecError) (s : State) : (raiseError c e s).running = none := by
  cases c with
  | none => rfl
  | some c => cases c <;> rfl
@[simp] theorem raiseError_script (c : Option Command) (e : CodecError) (s : State) : (raiseError c e s).script = s.script := by
  cases c with
  | none => rfl
  | some c => cases c <;> rfl
@[simp] theorem raiseError_reads (c : Option Command) (e : CodecError) (s : State) : (raiseError c e s).reads = s.reads := by
  cases c with
  | none => rfl
  | some c => cases c <;> rfl
@[simp] theorem raiseError_pollsLeft (c : Option Command) (e : CodecError) (s : State) : (raiseError c e s).pollsLeft = s.pollsLeft := by
  cases c with
  | none => rfl
  | some c => cases c <;> rfl
@[simp] theorem raiseError_tick (c : Option Command) (e : CodecError) (s : State) : (raiseError c e s).tick = s.tick := by
  cases c with
  | none => rfl
  | some c => cases c <;> rfl

@[simp] theorem raiseError_compress_bsLen (e : CodecError) (s : State) : (raiseError (some .compress) e s).bsLen = 0 := rfl
@[simp] theorem raiseError_compress_ct (e : CodecError) (s : State) : (raiseError (some .compress) e s).ct = CodeTable.zero := rfl
@[simp] theorem raiseError_encode_bsLen (e : CodecError) (s : State) : (raiseError (some .encode) e s).bsLen = 0 := rfl
@[simp] theorem raiseError_encode_ct (e : CodecError) (s : State) : (raiseError (some .encode) e s).ct = CodeTable.zero := rfl
@[simp] theorem raiseError_decompress_bsLen (e : CodecError) (s : State) : (raiseError (some .decompress) e s).bsLen = 0 := rfl
@[simp] theorem raiseError_decompress_ct (e : CodecError) (s : State) : (raiseError (some .decompress) e s).ct = s.ct := rfl
@[simp] theorem raiseError_decode_bsLen (e : CodecError) (s : State) : (raiseError (some .decode) e s).bsLen = s.bsLen := rfl
@[simp] theorem raiseError_decode_ct (e : CodecError) (s : State) : (raiseError (some .decode) e s).ct = s.ct := rfl
@[simp] theorem raiseError_none_bsLen (e : CodecError) (s : State) : (raiseError none e s).bsLen = s.bsLen := rfl
@[simp] theorem raiseError_none_ct (e : CodecError) (s : State) : (raiseError none e s).ct = s.ct := rfl
@[simp] theorem raiseError_compress_bsStale (e : CodecError) (s : State) :
    (raiseError (some .compress) e s).bsStale = (State.markStale { s with bsLen := 0 }).bsStale := rfl
@[simp] theorem raiseError_encode_bsStale (e : CodecError) (s : State) :
    (raiseError (some .encode) e s).bsStale = (State.markStale { s with bsLen := 0 }).bsStale := rfl
@[simp] theorem raiseError_decompress_bsStale (e : CodecError) (s : State) :
    (raiseError (some .decompress) e s).bsStale = (State.markStale { s with bsLen := 0 }).bsStale := rfl
@[simp] theorem raiseError_decode_bsStale (e : CodecError) (s : State) : (raiseError (some .decode) e s).bsStale = s.markStale.bsStale := rfl
@[simp] theorem raiseError_none_bsStale (e : CodecError) (s : State) : (raiseError none e s).bsStale = s.bsStale := rfl
@[simp] theorem raiseError_some_ended (c : Command) (e : CodecError) (s : State) : (raiseError (some c) e s).ended = s.ended + 1 := by cases c <;> rfl
@[simp] theorem raiseError_none_ended (e : CodecError) (s : State) : (raiseError none e s).ended = s.ended := rfl

/-! ### State.resetWith -/

@[simp] theorem resetWith_cap (cap : Capacity) : (State.resetWith cap).cap = cap := rfl
@[simp] theorem resetWith_inBuf (cap : Capacity) : (State.resetWith cap).inBuf = [] := rfl
@[simp] theorem resetWith_outBuf (cap : Capacity) : (State.resetWith cap).outBuf = [] := rfl
@[simp] theorem resetWith_bsBuf (cap : Capacity) : (State.resetWith cap).bsBuf = [] := rfl
@[simp] theorem resetWith_bsStale (cap : Capacity) : (State.resetWith cap).bsStale = [] := rfl
@[simp] theorem resetWith_busy (cap : Capacity) : (State.resetWith cap).busy = false := rfl
@[simp] theorem resetWith_done (cap : Capacity) : (State.resetWith cap).done = false := rfl
@[simp] theorem resetWith_err (cap : Capacity) : (State.resetWith cap).err = false := rfl
@[simp] theorem resetWith_degen (cap : Capacity) : (State.resetWith cap).degen = false := rfl
@[simp] theorem resetWith_ecode (cap : Capacity) : (State.resetWith cap).ecode = none := rfl
@[simp] theorem resetWith_phase (cap : Capacity) : (State.resetWith cap).phase = .idle := rfl
@[simp] theorem resetWith_inLen (cap : Capacity) : (State.resetWith cap).inLen = 0 := rfl
@[simp] theorem resetWith_outLen (cap : Capacity) : (State.resetWith cap).outLen = 0 := rfl
@[simp] theorem resetWith_bsLen (cap : Capacity) : (State.resetWith cap).bsLen = 0 := rfl
@[simp] theorem resetWith_pad (cap : Capacity) : (State.resetWith cap).pad = 0 := rfl
@[simp] theorem resetWith_lzc (cap : Capacity) : (State.resetWith cap).lzc = 0 := rfl
@[simp] theorem resetWith_total (cap : Capacity) : (State.resetWith cap).total = 0 := rfl
@[simp] theorem resetWith_nsym (cap : Capacity) : (State.resetWith cap).nsym = 0 := rfl
@[simp] theorem resetWith_root (cap : Capacity) : (State.resetWith cap).root = 0 := rfl
@[simp] theorem resetWith_nnodes (cap : Capacity) : (State.resetWith cap).nnodes = 0 := rfl
@[simp] theorem resetWith_cand (cap : Capacity) : (State.resetWith cap).cand = [] := rfl
@[simp] theorem resetWith_candLen (cap : Capacity) : (State.resetWith cap).candLen = 0 := rfl
@[simp] theorem resetWith_freq (cap : Capacity) : (State.resetWith cap).freq = FreqFile.zero := rfl
@[simp] theorem resetWith_node (cap : Capacity) : (State.resetWith cap).node = NodeFile.zero := rfl
@[simp] theorem resetWith_pq (cap : Capacity) : (State.resetWith cap).pq = [] := rfl
@[simp] theorem resetWith_ct (cap : Capacity) : (State.resetWith cap).ct = CodeTable.zero := rfl
@[simp] theorem resetWith_running (cap : Capacity) : (State.resetWith cap).running = none := rfl
@[simp] theorem resetWith_script (cap : Capacity) : (State.resetWith cap).script = [] := rfl
@[simp] theorem resetWith_reads (cap : Capacity) : (State.resetWith cap).reads = [] := rfl
@[simp] theorem resetWith_pollsLeft (cap : Capacity) : (State.resetWith cap).pollsLeft = none := rfl
@[simp] theorem resetWith_tick (cap : Capacity) : (State.resetWith cap).tick = 0 := rfl
@[simp] theorem resetWith_ended (cap : Capacity) : (State.resetWith cap).ended = 0 := rfl

/-! ### State.forest -/

@[simp] theorem forest_node (s : State) : s.forest.node = s.node := rfl
@[simp] theorem forest_pq (s : State) : s.forest.pq = s.pq := rfl
@[simp] theorem forest_nnodes (s : State) : s.forest.nnodes = s.nnodes := rfl
@[simp] theorem setForest_forest (s : State) (t : Forest) : (s.setForest t).forest = t := rfl

end Sys2Proof.Machine
end

