-- ==== Sys2Proof/Laws/Stale.lean ====
section
/-!
SUPPORT. Sys2Proof/Laws/Stale.lean: what the elements of BS hold (70_reset_and_hazards.md R273): what was written, until a
command ends with the element at or beyond BS_LEN; from then on a free bit, until it is written again.
-/

namespace Sys2Proof.Machine

/-- One element of BS: what it holds; none where none was written. -/
theorem bufRead_heldBits (buf : List (Nat × Bit)) (stale : List (Nat × Nat)) (i : Nat) :
    bufRead (heldBits buf stale) i = (bufRead buf i).map (heldBit stale i) := by
  induction buf with
  | nil => rfl
  | cons c buf ih =>
    simp only [heldBits, List.map_cons] at ih ⊢
    rw [bufRead_cons, bufRead_cons, ih]
    by_cases h : c.1 = i
    · subst h; simp
    · simp [h]

/-- A run of BS depends on the record inside the run alone. -/
theorem memRead_heldBits_congr (buf : List (Nat × Bit)) {stale stale' : List (Nat × Nat)} {i n : Nat}
    (h : ∀ j, i ≤ j → j < i + n → bufRead stale j = bufRead stale' j) :
    memRead (heldBits buf stale) i n = memRead (heldBits buf stale') i n := by
  have key : ∀ st : List (Nat × Nat), (heldBits buf st).filter (fun c => decide (i ≤ c.1 ∧ c.1 < i + n)) =
      heldBits (buf.filter fun c => decide (i ≤ c.1 ∧ c.1 < i + n)) st := by
    intro st
    simp only [heldBits, List.filter_map]
    rfl
  have : heldBits (buf.filter fun c => decide (i ≤ c.1 ∧ c.1 < i + n)) stale =
      heldBits (buf.filter fun c => decide (i ≤ c.1 ∧ c.1 < i + n)) stale' := by
    apply List.map_congr_left
    intro c hc
    simp only [List.mem_filter, decide_eq_true_eq] at hc
    simp only [heldBit, h c.1 hc.2.1 hc.2.2]
  simp only [memRead, key, this]

/-- With nothing recorded BS holds its contents. -/
@[simp] theorem heldBits_nil (buf : List (Nat × Bit)) : heldBits buf [] = buf := by simp [heldBits, heldBit]

/-- Bits written are the bits held (20_memory.md R77). -/
theorem memRead_writeBits (s : State) (i : Nat) (vs : List Bit) :
    memRead (heldBits (s.writeBits i vs).bsBuf (s.writeBits i vs).bsStale) i vs.length = some vs := by
  rw [memRead_heldBits_congr (stale' := []), heldBits_nil]
  · exact memRead_memWrite_same s.bsBuf i vs
  · intro j h1 h2
    simp only [State.writeBits]
    rw [bufRead_filter s.bsStale (fun a => decide (a < i ∨ i + vs.length ≤ a)), if_neg (by simp; omega)]
    rfl

/-- An element outside the bits written holds what it held. -/
theorem bufRead_writeBits_outside (s : State) (i : Nat) (vs : List Bit) (j : Nat) (h : j < i ∨ i + vs.length ≤ j) :
    bufRead (heldBits (s.writeBits i vs).bsBuf (s.writeBits i vs).bsStale) j = bufRead (heldBits s.bsBuf s.bsStale) j := by
  simp only [bufRead_heldBits, State.writeBits]
  unfold heldBit
  rw [bufRead_memWrite_outside _ _ _ _ h, bufRead_filter s.bsStale (fun a => decide (a < i ∨ i + vs.length ≤ a)),
    if_pos (by simpa using h)]

theorem bufRead_map_const {α β : Type} (buf : List (Nat × α)) (x : β) (i : Nat) :
    bufRead (buf.map fun c => (c.1, x)) i = (bufRead buf i).map fun _ => x := by
  induction buf with
  | nil => rfl
  | cons c buf ih => simp only [List.map_cons, bufRead_cons, ih]; split <;> rfl

/-- What the end of a command records (R273). -/
theorem bufRead_markStale (s : State) (i : Nat) :
    bufRead s.markStale.bsStale i =
      if i < s.bsLen then bufRead s.bsStale i else (bufRead s.bsBuf i).map fun _ => s.ended := by
  simp only [State.markStale]
  rw [bufRead_append, bufRead_map_const, bufRead_filter s.bsStale (fun a => decide (a < s.bsLen)),
    bufRead_filter s.bsBuf (fun a => decide (s.bsLen ≤ a))]
  by_cases h : i < s.bsLen
  · simp [h, show ¬ s.bsLen ≤ i by omega]
  · simp [h, show s.bsLen ≤ i by omega]

/-- After the end of a command a written element at or beyond BS_LEN holds a free bit (R273). -/
theorem bufRead_markStale_beyond (s : State) {i : Nat} (h : s.bsLen ≤ i) :
    bufRead (heldBits s.bsBuf s.markStale.bsStale) i = (bufRead s.bsBuf i).map fun _ => Config.staleBit s.ended i := by
  rw [bufRead_heldBits]
  unfold heldBit
  rw [bufRead_markStale, if_neg (by omega)]
  cases bufRead s.bsBuf i <;> rfl

/-- The end of a command leaves the valid part of BS as it is. -/
@[simp] theorem bitstream_markStale (s : State) : bitstream s.markStale = bitstream s := by
  simp only [bitstream, markStale_bsBuf, markStale_bsLen]
  apply memRead_heldBits_congr
  intro j _ hj
  rw [bufRead_markStale, if_pos (by omega)]

/-- The bitstream after EMIT and UNPACK. -/
theorem bitstream_of_writeBits {s t : State} {bits : List Bit} (h1 : t.bsBuf = (s.writeBits 0 bits).bsBuf)
    (h2 : t.bsStale = (s.writeBits 0 bits).bsStale) (h3 : t.bsLen = bits.length) : bitstream t = some bits := by
  rw [bitstream, h1, h2, h3]
  exact memRead_writeBits s 0 bits

/-! ### The canonical form -/

theorem bufWf_filter {α : Type} {buf : List (Nat × α)} (h : bufWf buf = true) (p : Nat × α → Bool) :
    bufWf (buf.filter p) = true := by
  rw [bufWf_iff] at *
  exact h.filter p

/-- Writing bits keeps the canonical form. -/
theorem writeBits_wf {s : State} (h : Memory.wf s = true) (i : Nat) (vs : List Bit) :
    Memory.wf (s.writeBits i vs) = true := by
  simp only [Memory.wf, Bool.and_eq_true] at h ⊢
  exact ⟨⟨h.1.1, bufWf_memWrite h.1.2 i vs⟩, bufWf_filter h.2 _⟩

/-- The end of a command keeps the canonical form. -/
theorem markStale_wf {s : State} (h : Memory.wf s = true) : Memory.wf s.markStale = true := by
  simp only [Memory.wf, Bool.and_eq_true] at h ⊢
  refine ⟨h.1, ?_⟩
  have h1 := h.1.2
  have h2 := h.2
  rw [bufWf_iff] at h1 h2 ⊢
  simp only [State.markStale]
  rw [List.pairwise_append]
  refine ⟨h2.filter _, ?_, ?_⟩
  · rw [List.pairwise_map]
    exact h1.filter _
  · intro c hc d hd
    simp only [List.mem_filter, List.mem_map, decide_eq_true_eq] at hc hd
    obtain ⟨e, he, rfl⟩ := hd
    simp only
    omega

end Sys2Proof.Machine
end

