-- ==== Sys2Proof/Laws/Phases.lean ====
section
/-!
SUPPORT. Sys2Proof/Laws/Phases.lean: what each phase answers, case by case (40_commands.md R111), so that no proof unfolds a
phase.
-/

namespace Sys2Proof.Machine

variable {s : State}

theorem inputBytes_length {bytes : List Byte} (h : inputBytes s = some bytes) : bytes.length = s.inLen :=
  memRead_length h

theorem bitstream_length {bits : List Bit} (h : bitstream s = some bits) : bits.length = s.bsLen :=
  memRead_length h

/-- COUNT (R120), all of it. -/
theorem phaseCount_cases (s : State) :
    (inputBytes s = none ∧ phaseCount s = .refused .unwrittenElement) ∨
      ∃ bytes, inputBytes s = some bytes ∧
        phaseCount s = .next { s with freq := countBytes s.freq bytes, phase := .leaves } := by
  cases h : inputBytes s with
  | none => exact .inl ⟨rfl, by simp [phaseCount, h]⟩
  | some bytes => exact .inr ⟨bytes, rfl, by simp [phaseCount, h]⟩

/-- LEAVES (R130), all of it. -/
theorem phaseLeaves_cases (s : State) :
    (∃ e, insertLeaves s.freq allSymbols s.forest = .error e ∧ phaseLeaves s = .fault e) ∨
      ∃ t, insertLeaves s.freq allSymbols s.forest = .ok t ∧
        ((t.nnodes = 0 ∧
            phaseLeaves s = .next (raiseError s.running .emptyInput { s.setForest t with nsym := t.nnodes })) ∨
          (t.nnodes ≠ 0 ∧ phaseLeaves s = .next { s.setForest t with nsym := t.nnodes, phase := .merge })) := by
  cases h : insertLeaves s.freq allSymbols s.forest with
  | error e => exact .inl ⟨e, rfl, by simp [phaseLeaves, h]⟩
  | ok t =>
    refine .inr ⟨t, rfl, ?_⟩
    by_cases h0 : t.nnodes = 0
    · exact .inl ⟨h0, by simp [phaseLeaves, h, h0]⟩
    · exact .inr ⟨h0, by simp [phaseLeaves, h, h0]⟩

/-- MERGE (R133, R134, R141) on a good forest: the forest stays good; when one node is live afterwards ROOT and TOTAL are
written and DERIVE follows, otherwise MERGE follows. -/
theorem phaseMerge_good (h : Forest.Good s.freq s.nsym s.forest) :
    ∃ t, mergeIfMany s.forest = .ok t ∧ t.Good s.freq s.nsym ∧ t.pq.length = max 1 (s.pq.length - 1) ∧
      ((2 ≤ t.pq.length ∧ phaseMerge s = .next { s.setForest t with phase := .merge }) ∨
        ∃ r, t.pq = [r] ∧ (t.node.at r).weight = s.freq.sum ∧
          phaseMerge s = .next { s.setForest t with root := r, total := (t.node.at r).weight, phase := .derive }) := by
  obtain ⟨t, ht, hg, hlen⟩ := mergeIfMany_good h
  refine ⟨t, ht, hg, hlen, ?_⟩
  match hpq : t.pq with
  | [] => exact absurd hpq hg.live
  | [r] =>
    refine .inr ⟨r, rfl, ?_, by simp [phaseMerge, ht, hpq]⟩
    have := hg.weight
    rw [hpq] at this
    simpa using this
  | _ :: _ :: _ => exact .inl ⟨by simp, by simp [phaseMerge, ht, hpq]⟩

/-- DERIVE (R150), all of it. -/
theorem phaseDerive_cases (s : State) :
    (leafPaths s.node (Config.depthMax + 1) s.root [] = none ∧ phaseDerive s = .fault .brokenTree) ∨
      ∃ leaves, leafPaths s.node (Config.depthMax + 1) s.root [] = some leaves ∧
        phaseDerive s = .next { s with ct := writeCodes s.ct leaves, phase := .emit } := by
  cases h : leafPaths s.node (Config.depthMax + 1) s.root [] with
  | none => exact .inl ⟨rfl, by simp [phaseDerive, h]⟩
  | some leaves => exact .inr ⟨leaves, rfl, by simp [phaseDerive, h]⟩

/-- EMIT (R160, R171), all of it. -/
theorem phaseEmit_cases (s : State) :
    (inputBytes s = none ∧ phaseEmit s = .refused .unwrittenElement) ∨
      (∃ bytes, inputBytes s = some bytes ∧ encodeSymbols s.ct bytes = none ∧ phaseEmit s = .fault .noCode) ∨
      ∃ bytes bits, inputBytes s = some bytes ∧ encodeSymbols s.ct bytes = some bits ∧
        phaseEmit s = .next (afterEmit
          (State.flagDegen { s.writeBits s.bsLen bits with bsLen := s.bsLen + bits.length })) := by
  cases h : inputBytes s with
  | none => exact .inl ⟨rfl, by simp [phaseEmit, h]⟩
  | some bytes =>
    cases h2 : encodeSymbols s.ct bytes with
    | none => exact .inr (.inl ⟨bytes, rfl, h2, by simp [phaseEmit, h, h2]⟩)
    | some bits => exact .inr (.inr ⟨bytes, bits, rfl, h2, by simp [phaseEmit, h, h2]⟩)

/-- PADLZC (R162 to R164), all of it. -/
theorem phasePadlzc_cases (s : State) :
    (bitstream s = none ∧ phasePadlzc s = .refused .unwrittenElement) ∨
      ∃ bits, bitstream s = some bits ∧
        ((255 < leadingZeros (padBits bits) ∧
            phasePadlzc s = .next (raiseError s.running .headerOverflow
              { s with pad := padCount bits.length, lzc := leadingZeros (padBits bits) })) ∨
          (leadingZeros (padBits bits) ≤ 255 ∧
            phasePadlzc s =
              .next { s with pad := padCount bits.length, lzc := leadingZeros (padBits bits), phase := .pack })) := by
  cases h : bitstream s with
  | none => exact .inl ⟨rfl, by simp [phasePadlzc, h]⟩
  | some bits =>
    refine .inr ⟨bits, rfl, ?_⟩
    by_cases h0 : 255 < leadingZeros (padBits bits)
    · exact .inl ⟨h0, by simp [phasePadlzc, h, h0, Config.lzcMax]⟩
    · exact .inr ⟨by omega, by simp [phasePadlzc, h, h0, Config.lzcMax]⟩

/-- PACK (R165, R166), all of it. -/
theorem phasePack_cases (s : State) :
    (bitstream s = none ∧ phasePack s = .refused .unwrittenElement) ∨
      ∃ bits, bitstream s = some bits ∧
        phasePack s = .next (completeCommand
          { s with outBuf := memWrite s.outBuf 0 (containerBytes s.pad s.lzc bits),
                   outLen := (containerBytes s.pad s.lzc bits).length }) := by
  cases h : bitstream s with
  | none => exact .inl ⟨rfl, by simp [phasePack, h]⟩
  | some bits => exact .inr ⟨bits, rfl, by simp [phasePack, h]⟩

/-- HEADER (R180, R181), all of it. -/
theorem phaseHeader_cases (s : State) :
    (inputBytes s = none ∧ phaseHeader s = .refused .unwrittenElement) ∨
      (∃ bytes, inputBytes s = some bytes ∧ bytes.length < 2 ∧
        phaseHeader s = .next (raiseError s.running .containerFormat s)) ∨
      ∃ b0 b1 rest, inputBytes s = some (b0 :: b1 :: rest) ∧
        ((7 < b0.toNat ∧ phaseHeader s =
            .next (raiseError s.running .containerFormat { s with pad := b0.toNat, lzc := b1.toNat })) ∨
          (b0.toNat ≤ 7 ∧ phaseHeader s = .next { s with pad := b0.toNat, lzc := b1.toNat, phase := .unpack })) := by
  match h : inputBytes s with
  | none => exact .inl ⟨rfl, by simp [phaseHeader, h]⟩
  | some [] => exact .inr (.inl ⟨[], rfl, by simp, by simp [phaseHeader, h]⟩)
  | some [b] => exact .inr (.inl ⟨[b], rfl, by simp, by simp [phaseHeader, h]⟩)
  | some (b0 :: b1 :: rest) =>
    refine .inr (.inr ⟨b0, b1, rest, rfl, ?_⟩)
    by_cases h0 : 7 < b0.toNat
    · exact .inl ⟨h0, by simp [phaseHeader, h, h0, Config.padMax]⟩
    · exact .inr ⟨by omega, by simp [phaseHeader, h, h0, Config.padMax]⟩

/-- UNPACK (R182 to R185), all of it. -/
theorem phaseUnpack_cases (s : State) :
    (inputBytes s = none ∧ phaseUnpack s = .refused .unwrittenElement) ∨
      ∃ bytes, inputBytes s = some bytes ∧
        ((restoreBits s.pad s.lzc (minimalBits (payloadBits (bytes.drop 2))) = none ∧
            phaseUnpack s = .next (raiseError s.running .containerFormat s)) ∨
          ∃ bits, restoreBits s.pad s.lzc (minimalBits (payloadBits (bytes.drop 2))) = some bits ∧
            phaseUnpack s =
              .next { s.writeBits 0 bits with bsLen := bits.length, phase := .invert }) := by
  cases h : inputBytes s with
  | none => exact .inl ⟨rfl, by simp [phaseUnpack, h]⟩
  | some bytes =>
    refine .inr ⟨bytes, rfl, ?_⟩
    cases h2 : restoreBits s.pad s.lzc (minimalBits (payloadBits (bytes.drop 2))) with
    | none => exact .inl ⟨rfl, by simp [phaseUnpack, h, h2, Config.hdrLen]⟩
    | some bits => exact .inr ⟨bits, rfl, by simp [phaseUnpack, h, h2, Config.hdrLen]⟩

/-- INVERT (R190), all of it. -/
theorem phaseInvert_cases (s : State) :
    (hasDuplicate s.ct = true ∧ phaseInvert s = .next (raiseError s.running .duplicateCode s)) ∨
      (hasDuplicate s.ct = false ∧ phaseInvert s = .next { s with phase := .scan }) := by
  cases h : hasDuplicate s.ct with
  | true => exact .inl ⟨rfl, by simp [phaseInvert, h]⟩
  | false => exact .inr ⟨rfl, by simp [phaseInvert, h]⟩

/-- The state SCAN leaves before it ends well or badly (R193): the symbols in OUT, the candidate in CAND. -/
def scanned (s : State) (bits : List Bit) : State :=
  { s with outBuf := memWrite s.outBuf s.outLen (scanBits (validCodes s.ct) s.cand bits).1,
           outLen := s.outLen + (scanBits (validCodes s.ct) s.cand bits).1.length,
           cand := (scanBits (validCodes s.ct) s.cand bits).2,
           candLen := (scanBits (validCodes s.ct) s.cand bits).2.length }

/-- SCAN (R193, R195), all of it. -/
theorem phaseScan_cases (s : State) :
    (bitstream s = none ∧ phaseScan s = .refused .unwrittenElement) ∨
      ∃ bits, bitstream s = some bits ∧
        (((scanBits (validCodes s.ct) s.cand bits).2 = [] ∧ phaseScan s = .next (completeCommand (scanned s bits))) ∨
          ((scanBits (validCodes s.ct) s.cand bits).2 ≠ [] ∧
            phaseScan s = .next (raiseError s.running .incompleteCode (scanned s bits)))) := by
  cases h : bitstream s with
  | none => exact .inl ⟨rfl, by simp [phaseScan, h]⟩
  | some bits =>
    refine .inr ⟨bits, rfl, ?_⟩
    by_cases h0 : (scanBits (validCodes s.ct) s.cand bits).2 = []
    · exact .inl ⟨h0, by simp only [phaseScan, h, h0, if_true, scanned]⟩
    · exact .inr ⟨h0, by simp only [phaseScan, h, h0, if_false, scanned]⟩

end Sys2Proof.Machine
end

