-- ==== Sys2Proof/Laws/Good.lean ====
section
/-!
SUPPORT. Sys2Proof/Laws/Good.lean: each phase, entered in a good state, answers a good state, or refuses because an
element of its input was never written (10_state.md R48); it never faults.
-/

namespace Sys2Proof.Machine

variable {s t : State}

/-- A good answer: a good next state, or a refusal to read an element nothing has written. -/
def GoodAnswer (r : Result) : Prop := (∃ t, r = .next t ∧ t.Good) ∨ r = .refused .unwrittenElement

theorem GoodAnswer.ok {r : Result} (h : r = .next t) (ht : t.Good) : GoodAnswer r := .inl ⟨t, h, ht⟩

/-! ### Ends of a command -/

/-- A command that completes leaves a good state (40_commands.md R102). -/
theorem completeCommand_good (hcap : s.cap.Ok) (hmem : Memory.wf s = true) (hw : s.WithinCapacity) (hr : s.InRange)
    (herr : s.err = false) (hec : s.ecode = none) : (completeCommand s).Good where
  cap := hcap
  status := ⟨by simp, by simp [herr], by simp [herr], by simp [hec], by simp, by simp [herr]⟩
  running := rfl
  memory := markStale_wf (s := s.flagsCompleted) hmem
  within := ⟨hw.input, hw.output, hw.bits⟩
  ranges := ⟨hr.inLen, hr.outLen, hr.bsLen, hr.pad, hr.lzc, hr.total, hr.nsym, hr.nnodes, hr.candLen, hr.freq, hr.weight⟩
  fresh := by simp
  phase := trivial

theorem raiseError_bsLen_le (c : Option Command) (e : CodecError) (s : State) : (raiseError c e s).bsLen ≤ s.bsLen := by
  cases c with
  | none => simp
  | some c => cases c <;> simp

theorem raiseError_wf (c : Option Command) (e : CodecError) (h : Memory.wf s = true) :
    Memory.wf (raiseError c e s) = true := by
  cases c with
  | none => exact h
  | some c =>
    cases c
    · exact markStale_wf (s := { s.flagsFaulted e with outLen := 0, bsLen := 0, ct := CodeTable.zero }) h
    · exact markStale_wf (s := { s.flagsFaulted e with outLen := 0, bsLen := 0, ct := CodeTable.zero }) h
    · exact markStale_wf (s := { s.flagsFaulted e with outLen := 0, bsLen := 0 }) h
    · exact markStale_wf (s := { s.flagsFaulted e with outLen := 0 }) h

/-- A command that ends in an error leaves a good state (60_exceptions.md R240). -/
theorem raiseError_good (c : Option Command) (e : CodecError) (hcap : s.cap.Ok) (hmem : Memory.wf s = true)
    (hw : s.WithinCapacity) (hr : s.InRange) : (raiseError c e s).Good where
  cap := by simpa using hcap
  status := ⟨by simp, by simp, by simp, by simp, by simp, by simp⟩
  running := by
    have h1 := raiseError_running c e s
    have h2 := raiseError_phase c e s
    unfold State.RunningOk; rw [h1]; exact h2
  memory := raiseError_wf c e hmem
  within := ⟨by simpa using hw.input, by simpa using hw.output, by simpa using hw.bits⟩
  ranges := ⟨by simpa using hr.inLen, by simp, by
      have := raiseError_bsLen_le c e s
      have := hr.bsLen
      simp only [raiseError_cap]; omega,
    by simpa using hr.pad, by simpa using hr.lzc, by simpa using hr.total, by simpa using hr.nsym,
    by simpa using hr.nnodes, by simpa using hr.candLen, by simpa using hr.freq, by simpa using hr.weight⟩
  fresh := by simp
  phase := by unfold State.PhaseOk; rw [raiseError_phase]; trivial

/-- A command that goes on to another of its phases. -/
theorem continue_good (h : s.Good) (hp : s.phase ≠ .idle) (hcap : t.cap = s.cap) (hbusy : t.busy = s.busy)
    (hdone : t.done = s.done) (herr : t.err = s.err) (hec : t.ecode = s.ecode) (hout : t.outLen = s.outLen)
    (hcand : t.cand = s.cand) (htp : t.phase ≠ .idle) (hrun : t.RunningOk) (hmem : Memory.wf t = true)
    (hw : t.WithinCapacity) (hr : t.InRange) (hph : t.PhaseOk) : t.Good where
  cap := by rw [hcap]; exact h.cap
  status := by
    have hst := h.status
    have hb : t.busy = true := by
      rw [hbusy]
      cases hsb : s.busy with
      | true => rfl
      | false => exact absurd (hst.busy_idle.1 hsb) hp
    refine ⟨?_, ?_, ?_, ?_, ?_, ?_⟩
    · rw [hbusy, hdone]; exact hst.busy_done
    · rw [herr, hdone]; exact hst.err_done
    · rw [herr, hec]; exact hst.err_ecode
    · rw [herr, hec]; exact hst.ok_ecode
    · rw [hb]; simp [htp]
    · rw [herr, hout]; exact hst.err_empty
  running := hrun
  memory := hmem
  within := hw
  ranges := hr
  fresh := fun _ => by rw [hout, hcand, herr]; exact h.fresh hp
  phase := hph

theorem State.Good.ecode_none (h : s.Good) (hp : s.phase ≠ .idle) : s.ecode = none :=
  h.status.ok_ecode (h.fresh hp).2.2

theorem State.RunningOk.command (h : s.RunningOk) (hp : s.phase ≠ .idle) : ∃ c, s.running = some c ∧ s.phase ∈ c.phases := by
  unfold State.RunningOk at h
  cases hr : s.running with
  | none => rw [hr] at h; exact absurd h hp
  | some c => rw [hr] at h; exact ⟨c, rfl, h⟩

theorem State.RunningOk.of (c : Command) (hc : t.running = some c) (hp : t.phase ∈ c.phases) : t.RunningOk := by
  unfold State.RunningOk; rw [hc]; exact hp

/-! ### The phases -/

theorem phaseCount_goodAnswer (h : s.Good) (hp : s.phase = .count) : GoodAnswer (phaseCount s) := by
  have hph := h.phase
  simp only [State.PhaseOk, hp] at hph
  obtain ⟨hf, hct, hfor, hbs⟩ := hph
  rcases phaseCount_cases s with ⟨_, he⟩ | ⟨bytes, hin, he⟩
  · exact .inr he
  · have hfreq : countBytes s.freq bytes = freqOf bytes := by rw [hf]; rfl
    have hlen := inputBytes_length hin
    obtain ⟨c, hc, hcp⟩ := h.running.command (by simp [hp])
    refine .ok he (continue_good h (by simp [hp]) rfl rfl rfl rfl rfl rfl rfl (by simp) ?_ h.memory
      ⟨h.within.input, h.within.output, h.within.bits⟩ ?_ ?_)
    · refine .of c hc ?_
      rw [hp] at hcp
      cases c <;> simp_all [Command.phases]
    · exact ⟨h.ranges.inLen, h.ranges.outLen, h.ranges.bsLen, h.ranges.pad, h.ranges.lzc, h.ranges.total, h.ranges.nsym,
        h.ranges.nnodes, h.ranges.candLen, fun sym => by
          simp only [hfreq]
          have h1 := (freqOf bytes).at_le_sum sym
          have h2 := freqOf_sum bytes
          have := h.ranges.inLen
          omega, h.ranges.weight⟩
    · exact ⟨⟨bytes, hin, hfreq⟩, hct, hfor, hbs⟩

theorem Forest.Good.weight_le {f : FreqFile} {k : Nat} {t : Forest} (h : t.Good f k) {i : NodeId} (hi : i ∈ t.pq) :
    (t.node.at i).weight ≤ f.sum := by
  rw [← h.weight]
  exact List.single_le_sum (by simp) _ (List.mem_map_of_mem hi)

theorem insertLeaves_weight_le (f : FreqFile) (t : Forest) (h : insertLeaves f allSymbols Forest.empty = .ok t)
    (i : NodeId) : (t.node.at i).weight ≤ f.sum := by
  obtain ⟨t', ht', _, hnode, hrest, _⟩ := insertLeaves_empty f
  rw [h] at ht'
  cases ht'
  by_cases hi : i.val < (presentSymbols f).length
  · rw [hnode i.val (presentSymbols f)[i.val] (by simp) i rfl]
    exact f.at_le_sum _
  · rw [hrest i (by omega)]
    simp [Node.zero]

theorem phaseLeaves_goodAnswer (h : s.Good) (hp : s.phase = .leaves) : GoodAnswer (phaseLeaves s) := by
  have hph := h.phase
  simp only [State.PhaseOk, hp] at hph
  obtain ⟨⟨bytes, hin, hf⟩, hct, hfor, hbs⟩ := hph
  have hlen := inputBytes_length hin
  have hsum : s.freq.sum = s.inLen := by rw [hf, freqOf_sum, hlen]
  obtain ⟨t0, ht0, hnn, _⟩ := insertLeaves_empty s.freq
  have hle := presentSymbols_length_le s.freq
  obtain ⟨c, hc, hcp⟩ := h.running.command (by simp [hp])
  have hranges : ∀ (t : State) (u : Forest), insertLeaves s.freq allSymbols s.forest = .ok u →
      t = { s.setForest u with nsym := u.nnodes } → t.InRange := by
    intro t u hu ht
    rw [hfor] at hu
    have hu' := hu
    rw [ht0] at hu'
    cases hu'
    subst ht
    exact ⟨h.ranges.inLen, h.ranges.outLen, h.ranges.bsLen, h.ranges.pad, h.ranges.lzc, h.ranges.total,
      by simp; omega, by simp; omega, h.ranges.candLen, h.ranges.freq, fun i => by
        have h1 := insertLeaves_weight_le s.freq _ hu i
        have h2 := h.ranges.inLen
        simp only [setForest_node, setForest_cap]; omega⟩
  rcases phaseLeaves_cases s with ⟨e, he, _⟩ | ⟨t, ht, ⟨_, he⟩ | ⟨h0, he⟩⟩
  · rw [hfor, ht0] at he; cases he
  · exact .ok he (raiseError_good _ _ h.cap h.memory ⟨h.within.input, h.within.output, h.within.bits⟩
      (hranges _ t ht rfl))
  · have hr := hranges _ t ht rfl
    refine .ok he (continue_good h (by simp [hp]) rfl rfl rfl rfl rfl rfl rfl (by simp) ?_ h.memory
      ⟨h.within.input, h.within.output, h.within.bits⟩
      ⟨hr.inLen, hr.outLen, hr.bsLen, hr.pad, hr.lzc, hr.total, hr.nsym, hr.nnodes, hr.candLen, hr.freq, hr.weight⟩ ?_)
    · refine .of c hc ?_
      rw [hp] at hcp
      cases c <;> simp_all [Command.phases]
    · rw [hfor] at ht
      exact ⟨⟨bytes, hin, hf⟩, hct, insertLeaves_good s.freq t ht (by omega), hbs⟩

/-- The weights stay within the number of bytes counted through a MERGE step (R136). -/
theorem mergeIfMany_weight_le {f : FreqFile} {k n : Nat} {u t : Forest} (h : u.Good f k) (hn : f.sum ≤ n)
    (hw : ∀ i, (u.node.at i).weight ≤ n) (ht : mergeIfMany u = .ok t) (i : NodeId) : (t.node.at i).weight ≤ n := by
  by_cases hm : 1 < u.pq.length
  · obtain ⟨a, b, j, t', _, _, _, _, _, _, he, rfl, _, hg⟩ := mergeOnce_good h hm
    simp only [mergeIfMany, hm, if_true, he, Except.ok.injEq] at ht
    subst ht
    by_cases hij : i = j
    · subst hij
      have := hg.weight_le (i := i) (by simp)
      omega
    · have : ((u.node.put j (innerNode u.node a b)).at i) = u.node.at i := by
        rw [NodeFile.at_put, if_neg (Ne.symm hij)]
      simp only [this]; exact hw i
  · simp only [mergeIfMany, hm, if_false, Except.ok.injEq] at ht
    subst ht; exact hw i

theorem phaseMerge_goodAnswer (h : s.Good) (hp : s.phase = .merge) : GoodAnswer (phaseMerge s) := by
  have hph := h.phase
  simp only [State.PhaseOk, hp] at hph
  obtain ⟨⟨bytes, hin, hf⟩, hct, hg, hbs⟩ := hph
  have hlen := inputBytes_length hin
  have hsum : s.freq.sum = s.inLen := by rw [hf, freqOf_sum, hlen]
  have hinl := h.ranges.inLen
  obtain ⟨c, hc, hcp⟩ := h.running.command (by simp [hp])
  obtain ⟨t, ht, htg, _, hcases⟩ := phaseMerge_good hg
  have hwt := mergeIfMany_weight_le hg (n := s.cap.inMax) (by omega) h.ranges.weight ht
  have hnn : t.nnodes ≤ 511 := by
    have := htg.balance; have := htg.bound; have := List.length_pos_iff.2 htg.live; omega
  rcases hcases with ⟨_, he⟩ | ⟨r, hr, hwr, he⟩
  · refine .ok he (continue_good h (by simp [hp]) rfl rfl rfl rfl rfl rfl rfl (by simp) ?_ h.memory
      ⟨h.within.input, h.within.output, h.within.bits⟩
      ⟨h.ranges.inLen, h.ranges.outLen, h.ranges.bsLen, h.ranges.pad, h.ranges.lzc, h.ranges.total, h.ranges.nsym,
        hnn, h.ranges.candLen, h.ranges.freq, hwt⟩ ?_)
    · refine .of c hc ?_
      rw [hp] at hcp
      cases c <;> simp_all [Command.phases]
    · exact ⟨⟨bytes, hin, hf⟩, hct, htg, hbs⟩
  · refine .ok he (continue_good h (by simp [hp]) rfl rfl rfl rfl rfl rfl rfl (by simp) ?_ h.memory
      ⟨h.within.input, h.within.output, h.within.bits⟩
      ⟨h.ranges.inLen, h.ranges.outLen, h.ranges.bsLen, h.ranges.pad, h.ranges.lzc, hwt r, h.ranges.nsym,
        hnn, h.ranges.candLen, h.ranges.freq, hwt⟩ ?_)
    · refine .of c hc ?_
      rw [hp] at hcp
      cases c <;> simp_all [Command.phases]
    · exact ⟨⟨bytes, hin, hf⟩, hct, htg, hr, by simp only; rw [hwr, hsum]; rfl, hbs⟩

/-- A finished good forest gives DERIVE a tree, and its table has an entry for every symbol counted (R154). -/
theorem derive_good {f : FreqFile} {k : Nat} {t : Forest} {r : NodeId} (h : t.Good f k) (hr : t.pq = [r]) :
    ∃ leaves, leafPaths t.node (Config.depthMax + 1) r [] = some leaves ∧
      ∀ sym, 0 < f.at sym → ((writeCodes CodeTable.zero leaves).at sym).v = true := by
  have hlt := h.live_lt r (by simp [hr])
  have hb := h.balance
  have hk := h.bound
  rw [hr] at hb
  simp at hb
  obtain ⟨leaves, hl⟩ := leafPaths_isSome h (Config.depthMax + 1) r [] hlt (by simp only [Config.depthMax]; omega)
  refine ⟨leaves, hl, fun sym hs => ?_⟩
  obtain ⟨r', hr', path, hpath⟩ := h.reached sym hs
  rw [hr] at hr'
  obtain rfl : r' = r := by simpa using hr'
  exact ((writeCodes_ofTree hl).valid_iff sym).2 ⟨path, hpath⟩

theorem phaseDerive_goodAnswer (h : s.Good) (hp : s.phase = .derive) : GoodAnswer (phaseDerive s) := by
  have hph := h.phase
  simp only [State.PhaseOk, hp] at hph
  obtain ⟨⟨bytes, hin, hf⟩, hct, hg, hpq, _, hbs⟩ := hph
  obtain ⟨c, hc, hcp⟩ := h.running.command (by simp [hp])
  obtain ⟨leaves, hl, hval⟩ := derive_good hg hpq
  rcases phaseDerive_cases s with ⟨hn, _⟩ | ⟨leaves', hl', he⟩
  · rw [forest_node] at hl; rw [hl] at hn; cases hn
  · rw [forest_node, hl'] at hl
    cases hl
    refine .ok he (continue_good h (by simp [hp]) rfl rfl rfl rfl rfl rfl rfl (by simp) ?_ h.memory
      ⟨h.within.input, h.within.output, h.within.bits⟩
      ⟨h.ranges.inLen, h.ranges.outLen, h.ranges.bsLen, h.ranges.pad, h.ranges.lzc, h.ranges.total, h.ranges.nsym,
        h.ranges.nnodes, h.ranges.candLen, h.ranges.freq, h.ranges.weight⟩ ?_)
    · refine .of c hc ?_
      rw [hp] at hcp
      cases c <;> simp_all [Command.phases]
    · refine ⟨⟨bytes, hin, fun b hb => ?_⟩, hbs⟩
      simp only [hct]
      apply hval
      rw [hf, freqOf_at]
      exact List.count_pos_iff.2 hb

theorem phaseEmit_goodAnswer (h : s.Good) (hp : s.phase = .emit) : GoodAnswer (phaseEmit s) := by
  have hph := h.phase
  simp only [State.PhaseOk, hp] at hph
  obtain ⟨⟨bytes, hin, hall⟩, hbs⟩ := hph
  have hlen := inputBytes_length hin
  obtain ⟨c, hc, hcp⟩ := h.running.command (by simp [hp])
  have hcap := h.cap
  have hinl := h.ranges.inLen
  have hwf := h.memory
  simp only [Memory.wf, Bool.and_eq_true] at hwf
  rcases phaseEmit_cases s with ⟨_, he⟩ | ⟨bytes', hin', hn, _⟩ | ⟨bytes', bits, hin', hbits, he⟩
  · exact .inr he
  · rw [hin] at hin'
    cases hin'
    have := (encodeSymbols_eq s.ct bytes (bytes.flatMap fun b => codeBits (s.ct.at b))).2 ⟨hall, rfl⟩
    rw [hn] at this; cases this
  · rw [hin] at hin'
    cases hin'
    have hblen := encodeSymbols_length_le hbits
    have hbmax : s.bsLen + bits.length ≤ s.cap.bsMax := by
      have h1 := hcap.2.1
      have : 255 * s.inLen ≤ 255 * s.cap.inMax := Nat.mul_le_mul_left _ hinl
      rw [hlen] at hblen
      omega
    have hmem : Memory.wf (s.writeBits s.bsLen bits) = true := writeBits_wf h.memory _ _
    have hwithin : ∀ d ∈ memWrite s.bsBuf s.bsLen bits, d.1 < s.cap.bsMax := by
      intro d hd
      rcases mem_memWrite_addr hd with hd | hd
      · exact h.within.bits d hd
      · omega
    have hr : ∀ b : Bool, State.InRange
        { s.writeBits s.bsLen bits with bsLen := s.bsLen + bits.length, degen := b } := fun b =>
      ⟨hinl, h.ranges.outLen, hbmax, h.ranges.pad, h.ranges.lzc, h.ranges.total, h.ranges.nsym,
        h.ranges.nnodes, h.ranges.candLen, h.ranges.freq, h.ranges.weight⟩
    refine .ok he ?_
    unfold afterEmit
    split
    · rename_i hcomp
      have hcc : c = .compress := by
        simp only [flagDegen_running, writeBits_running] at hcomp
        rw [hc] at hcomp; simpa using hcomp
      refine continue_good h (by simp [hp]) rfl rfl rfl rfl rfl rfl rfl (by simp) ?_ hmem
        ⟨h.within.input, h.within.output, hwithin⟩ ?_ ?_
      · exact .of c hc (by subst hcc; simp [Command.phases])
      · have := hr (s.nsym == 1)
        exact ⟨this.inLen, this.outLen, this.bsLen, this.pad, this.lzc, this.total, this.nsym, this.nnodes,
          this.candLen, this.freq, this.weight⟩
      · change (bitstream _).isSome = true
        exact Option.isSome_iff_exists.2
          ⟨bits, bitstream_of_writeBits (s := s) (by simp [hbs]) (by simp [State.writeBits, State.flagDegen, hbs]) (by simp [hbs])⟩
    · refine completeCommand_good hcap hmem ⟨h.within.input, h.within.output, hwithin⟩ (hr (s.nsym == 1)) ?_ ?_
      · simpa using (h.fresh (by simp [hp])).2.2
      · simpa using h.ecode_none (by simp [hp])

theorem State.Good.bits_bound (h : s.Good) : 8 * ((s.bsLen + 7) / 8) ≤ 8 * ((s.cap.bsMax + 7) / 8) := by
  have := h.ranges.bsLen; omega

theorem phasePadlzc_goodAnswer (h : s.Good) (hp : s.phase = .padlzc) : GoodAnswer (phasePadlzc s) := by
  have hph := h.phase
  simp only [State.PhaseOk, hp] at hph
  obtain ⟨c, hc, hcp⟩ := h.running.command (by simp [hp])
  have hbb := h.bits_bound
  rcases phasePadlzc_cases s with ⟨hn, _⟩ | ⟨bits, hb, hcases⟩
  · rw [hn] at hph; cases hph
  · have hlen := bitstream_length hb
    have hlz : leadingZeros (padBits bits) ≤ 8 * ((s.cap.bsMax + 7) / 8) := by
      have h1 := leadingZeros_le (padBits bits)
      have h2 := add_padCount_mod bits.length
      have h3 := padCount_le bits.length
      rw [padBits_length] at h1
      omega
    have hpad := padCount_le bits.length
    have hr : State.InRange { s with pad := padCount bits.length, lzc := leadingZeros (padBits bits) } :=
      ⟨h.ranges.inLen, h.ranges.outLen, h.ranges.bsLen, by simp only; omega, hlz, h.ranges.total, h.ranges.nsym,
        h.ranges.nnodes, h.ranges.candLen, h.ranges.freq, h.ranges.weight⟩
    rcases hcases with ⟨_, he⟩ | ⟨hle, he⟩
    · exact .ok he (raiseError_good _ _ h.cap h.memory ⟨h.within.input, h.within.output, h.within.bits⟩ hr)
    · refine .ok he (continue_good h (by simp [hp]) rfl rfl rfl rfl rfl rfl rfl (by simp) ?_ h.memory
        ⟨h.within.input, h.within.output, h.within.bits⟩
        ⟨hr.inLen, hr.outLen, hr.bsLen, hr.pad, hr.lzc, hr.total, hr.nsym, hr.nnodes, hr.candLen, hr.freq, hr.weight⟩
        ⟨hph, hpad, hle⟩)
      refine .of c hc ?_
      rw [hp] at hcp
      cases c <;> simp_all [Command.phases]

theorem phasePack_goodAnswer (h : s.Good) (hp : s.phase = .pack) : GoodAnswer (phasePack s) := by
  have hph := h.phase
  simp only [State.PhaseOk, hp] at hph
  have hcap := h.cap
  have hwf := h.memory
  simp only [Memory.wf, Bool.and_eq_true] at hwf
  rcases phasePack_cases s with ⟨hn, _⟩ | ⟨bits, hb, he⟩
  · rw [hn] at hph; cases hph.1
  · have hlen := bitstream_length hb
    have hbl := h.ranges.bsLen
    have hcl := containerBytes_length s.pad s.lzc bits
    have hout : (containerBytes s.pad s.lzc bits).length ≤ s.cap.outMax := by
      have h3 := padCount_le bits.length
      have h4 := add_padCount_mod bits.length
      obtain ⟨h5, h6, _, h8⟩ := hcap
      rw [hcl]
      omega
    refine .ok he (completeCommand_good hcap ?_ ⟨h.within.input, ?_, h.within.bits⟩ ?_ ?_ ?_)
    · simp only [Memory.wf, Bool.and_eq_true]
      exact ⟨⟨⟨hwf.1.1.1, bufWf_memWrite hwf.1.1.2 _ _⟩, hwf.1.2⟩, hwf.2⟩
    · intro d hd
      rcases mem_memWrite_addr hd with hd | hd
      · exact h.within.output d hd
      · simp only; omega
    · exact ⟨h.ranges.inLen, hout, h.ranges.bsLen, h.ranges.pad, h.ranges.lzc, h.ranges.total, h.ranges.nsym,
        h.ranges.nnodes, h.ranges.candLen, h.ranges.freq, h.ranges.weight⟩
    · exact (h.fresh (by simp [hp])).2.2
    · exact h.ecode_none (by simp [hp])

theorem phaseHeader_goodAnswer (h : s.Good) (hp : s.phase = .header) : GoodAnswer (phaseHeader s) := by
  obtain ⟨c, hc, hcp⟩ := h.running.command (by simp [hp])
  have hcap := h.cap
  rcases phaseHeader_cases s with ⟨_, he⟩ | ⟨bytes, _, _, he⟩ | ⟨b0, b1, rest, hin, hcases⟩
  · exact .inr he
  · exact .ok he (raiseError_good _ _ hcap h.memory h.within h.ranges)
  · have hlen := inputBytes_length hin
    have hr : State.InRange { s with pad := b0.toNat, lzc := b1.toNat } :=
      ⟨h.ranges.inLen, h.ranges.outLen, h.ranges.bsLen, by have := b0.isLt; simp only; omega,
        by have := b1.isLt; obtain ⟨_, _, _, _⟩ := hcap; simp only; omega, h.ranges.total, h.ranges.nsym,
        h.ranges.nnodes, h.ranges.candLen, h.ranges.freq, h.ranges.weight⟩
    rcases hcases with ⟨_, he⟩ | ⟨hle, he⟩
    · exact .ok he (raiseError_good _ _ hcap h.memory ⟨h.within.input, h.within.output, h.within.bits⟩ hr)
    · refine .ok he (continue_good h (by simp [hp]) rfl rfl rfl rfl rfl rfl rfl (by simp) ?_ h.memory
        ⟨h.within.input, h.within.output, h.within.bits⟩
        ⟨hr.inLen, hr.outLen, hr.bsLen, hr.pad, hr.lzc, hr.total, hr.nsym, hr.nnodes, hr.candLen, hr.freq, hr.weight⟩
        ⟨Option.isSome_iff_exists.2 ⟨_, hin⟩, ?_, hle, ?_⟩)
      · refine .of c hc ?_
        rw [hp] at hcp
        cases c <;> simp_all [Command.phases]
      · simp at hlen; simp only; omega
      · have := b1.isLt; simp only; omega

theorem phaseUnpack_goodAnswer (h : s.Good) (hp : s.phase = .unpack) : GoodAnswer (phaseUnpack s) := by
  have hph := h.phase
  simp only [State.PhaseOk, hp] at hph
  obtain ⟨hin, h2, hpad, hlz⟩ := hph
  obtain ⟨c, hc, hcp⟩ := h.running.command (by simp [hp])
  have hcap := h.cap
  have hinl := h.ranges.inLen
  have hwf := h.memory
  simp only [Memory.wf, Bool.and_eq_true] at hwf
  rcases phaseUnpack_cases s with ⟨hn, _⟩ | ⟨bytes, hin', ⟨_, he⟩ | ⟨bits, hbits, he⟩⟩
  · rw [hn] at hin; cases hin
  · exact .ok he (raiseError_good _ _ hcap h.memory h.within h.ranges)
  · have hlen := inputBytes_length hin'
    have hbl : bits.length ≤ s.cap.bsMax := by
      have h3 := restoreBits_length hbits
      have h4 := minimalBits_length (payloadBits (bytes.drop 2))
      rw [payloadBits_length, List.length_drop, hlen] at h4
      obtain ⟨h5, h6, _, _⟩ := hcap
      omega
    refine .ok he (continue_good h (by simp [hp]) rfl rfl rfl rfl rfl rfl rfl (by simp) ?_ ?_
      ⟨h.within.input, h.within.output, ?_⟩
      ⟨h.ranges.inLen, h.ranges.outLen, hbl, h.ranges.pad, h.ranges.lzc, h.ranges.total, h.ranges.nsym,
        h.ranges.nnodes, h.ranges.candLen, h.ranges.freq, h.ranges.weight⟩ ?_)
    · refine .of c hc ?_
      rw [hp] at hcp
      cases c <;> simp_all [Command.phases]
    · exact writeBits_wf h.memory 0 bits
    · intro d hd
      rcases mem_memWrite_addr hd with hd | hd
      · exact h.within.bits d hd
      · simp only [writeBits_cap]; omega
    · intro _
      exact Option.isSome_iff_exists.2 ⟨bits, bitstream_of_writeBits rfl rfl rfl⟩

theorem phaseInvert_goodAnswer (h : s.Good) (hp : s.phase = .invert) : GoodAnswer (phaseInvert s) := by
  have hph := h.phase
  simp only [State.PhaseOk, hp] at hph
  obtain ⟨c, hc, hcp⟩ := h.running.command (by simp [hp])
  rcases phaseInvert_cases s with ⟨_, he⟩ | ⟨_, he⟩
  · exact .ok he (raiseError_good _ _ h.cap h.memory h.within h.ranges)
  · refine .ok he (continue_good h (by simp [hp]) rfl rfl rfl rfl rfl rfl rfl (by simp) ?_ h.memory
      ⟨h.within.input, h.within.output, h.within.bits⟩
      ⟨h.ranges.inLen, h.ranges.outLen, h.ranges.bsLen, h.ranges.pad, h.ranges.lzc, h.ranges.total, h.ranges.nsym,
        h.ranges.nnodes, h.ranges.candLen, h.ranges.freq, h.ranges.weight⟩ hph)
    refine .of c hc ?_
    rw [hp] at hcp
    cases c <;> simp_all [Command.phases]

theorem phaseScan_goodAnswer (h : s.Good) (hp : s.phase = .scan) : GoodAnswer (phaseScan s) := by
  have hcap := h.cap
  have hwf := h.memory
  simp only [Memory.wf, Bool.and_eq_true] at hwf
  obtain ⟨hout0, hcand0, herr⟩ := h.fresh (by simp [hp])
  rcases phaseScan_cases s with ⟨_, he⟩ | ⟨bits, hb, hcases⟩
  · exact .inr he
  · have hlen := bitstream_length hb
    have hbl := h.ranges.bsLen
    obtain ⟨hl1, hl2⟩ := scanBits_length (validCodes s.ct) s.cand bits
    have hc2 : s.cand.length = 0 := by rw [hcand0]; rfl
    have hbo := hcap.2.2.2
    have hmem : Memory.wf (scanned s bits) = true := by
      simp only [Memory.wf, scanned, Bool.and_eq_true]
      exact ⟨⟨⟨hwf.1.1.1, bufWf_memWrite hwf.1.1.2 _ _⟩, hwf.1.2⟩, hwf.2⟩
    have hw : (scanned s bits).WithinCapacity := by
      refine ⟨h.within.input, fun d hd => ?_, h.within.bits⟩
      rcases mem_memWrite_addr hd with hd | hd
      · exact h.within.output d hd
      · simp only [scanned]; omega
    have hr : (scanned s bits).InRange :=
      ⟨h.ranges.inLen, by simp only [scanned]; omega, h.ranges.bsLen, h.ranges.pad, h.ranges.lzc, h.ranges.total,
        h.ranges.nsym, h.ranges.nnodes, by simp only [scanned]; omega, h.ranges.freq, h.ranges.weight⟩
    rcases hcases with ⟨_, he⟩ | ⟨_, he⟩
    · exact .ok he (completeCommand_good hcap hmem hw hr herr (h.ecode_none (by simp [hp])))
    · exact .ok he (raiseError_good _ _ hcap hmem hw hr)

end Sys2Proof.Machine
end

