-- ==== Sys2Proof/Laws/HostGood.lean ====
section
/-!
SUPPORT. Sys2Proof/Laws/HostGood.lean: what the host does to a good idle state leaves a good state: commands
(40_commands.md R100 to R110), reads and writes (R114), reset (70_reset_and_hazards.md R260). None of it faults.
-/

namespace Sys2Proof.Machine

variable {s t : State}

/-- The host's side of the state and the counts of free values play no part in being good. -/
theorem State.Good.of_host (h : s.Good) (sc : List Statement) (rd : List PortWord) (tk : Nat)
    (pl : Option Nat := s.pollsLeft) (en : Nat := s.ended) :
    State.Good { s with script := sc, reads := rd, pollsLeft := pl, tick := tk, ended := en } where
  cap := h.cap
  status := ⟨h.status.busy_done, h.status.err_done, h.status.err_ecode, h.status.ok_ecode, h.status.busy_idle,
    h.status.err_empty⟩
  running := h.running
  memory := h.memory
  within := ⟨h.within.input, h.within.output, h.within.bits⟩
  ranges := ⟨h.ranges.inLen, h.ranges.outLen, h.ranges.bsLen, h.ranges.pad, h.ranges.lzc, h.ranges.total,
    h.ranges.nsym, h.ranges.nnodes, h.ranges.candLen, h.ranges.freq, h.ranges.weight⟩
  fresh := h.fresh
  phase := h.phase

/-- The reset state of any allowed capacities is good (10_state.md R47). -/
theorem resetWith_good (cap : Capacity) (h : cap.Ok) : (State.resetWith cap).Good where
  cap := h
  status := ⟨by simp, by simp, by simp, by simp, by simp, by simp⟩
  running := rfl
  memory := rfl
  within := ⟨by simp, by simp, by simp⟩
  ranges := ⟨by simp, by simp, by simp, by simp, by simp, by simp, by simp, by simp, by simp, by simp,
    by simp [Node.zero]⟩
  fresh := by simp
  phase := trivial

theorem applyReset_good (h : s.Good) : (applyReset s).Good :=
  (resetWith_good s.cap h.cap).of_host _ _ _ _ _

theorem clearState_good (h : s.Good) : (clearState s).Good where
  cap := h.cap
  status := ⟨by simp, by simp, by simp, by simp, by simp, by simp⟩
  running := rfl
  memory := markStale_wf h.memory
  within := ⟨h.within.input, h.within.output, h.within.bits⟩
  ranges := ⟨by simp, by simp, by simp, by simp, by simp, by simp, by simp, by simp, by simp, by simp,
    by simp [Node.zero]⟩
  fresh := by simp
  phase := trivial

theorem raiseIllegalCommand_good (h : s.Good) : (raiseIllegalCommand s).Good where
  cap := h.cap
  status := ⟨by simp, by simp, by simp, by simp, by simp, by simp⟩
  running := rfl
  memory := h.memory
  within := ⟨h.within.input, h.within.output, h.within.bits⟩
  ranges := ⟨h.ranges.inLen, by simp, h.ranges.bsLen, h.ranges.pad, h.ranges.lzc, h.ranges.total, h.ranges.nsym,
    h.ranges.nnodes, h.ranges.candLen, h.ranges.freq, h.ranges.weight⟩
  fresh := by simp
  phase := trivial

theorem startEncoder_good (h : s.Good) (c : Command) (hc : Phase.count ∈ c.phases) : (startEncoder c s).Good where
  cap := h.cap
  status := ⟨by simp, by simp, by simp, by simp, by simp, by simp⟩
  running := .of c (by simp) (by simpa using hc)
  memory := h.memory
  within := ⟨h.within.input, h.within.output, h.within.bits⟩
  ranges := ⟨h.ranges.inLen, by simp, by simp, by simp, by simp, by simp, by simp, by simp, by simp, by simp,
    by simp [Node.zero]⟩
  fresh := by simp
  phase := by
    simp only [State.PhaseOk, startEncoder_phase]
    exact ⟨rfl, rfl, rfl, rfl⟩

theorem startDecompress_good (h : s.Good) : (startDecompress s).Good where
  cap := h.cap
  status := ⟨by simp, by simp, by simp, by simp, by simp, by simp⟩
  running := .of .decompress (by simp) (by simp [Command.phases])
  memory := h.memory
  within := ⟨h.within.input, h.within.output, h.within.bits⟩
  ranges := ⟨h.ranges.inLen, by simp, by simp, by simp, by simp, h.ranges.total, h.ranges.nsym, h.ranges.nnodes, by simp,
    h.ranges.freq, h.ranges.weight⟩
  fresh := by simp
  phase := by
    simp only [State.PhaseOk, startDecompress_phase]
    rfl

theorem startDecode_good (h : s.Good) : (startDecode s).Good where
  cap := h.cap
  status := ⟨by simp, by simp, by simp, by simp, by simp, by simp⟩
  running := .of .decode (by simp) (by simp [Command.phases])
  memory := h.memory
  within := ⟨h.within.input, h.within.output, h.within.bits⟩
  ranges := ⟨h.ranges.inLen, by simp, h.ranges.bsLen, by simp, by simp, h.ranges.total, h.ranges.nsym, h.ranges.nnodes,
    by simp, h.ranges.freq, h.ranges.weight⟩
  fresh := by simp
  phase := by
    simp only [State.PhaseOk, startDecode_phase, startDecode_running]
    simp

/-- What acceptance answers (R100, R113). -/
theorem acceptCommand_cases (s next : State) :
    (s.busy = true ∧ acceptCommand s next = .refused .busyAccess) ∨
      (s.busy = false ∧ acceptCommand s next = .next next) := by
  cases h : s.busy <;> simp [acceptCommand, h]

theorem acceptCommand_good {next : State} (h : next.Good) : ∀ t, acceptCommand s next = .next t → t.Good := by
  intro t ht
  rcases acceptCommand_cases s next with ⟨_, he⟩ | ⟨_, he⟩ <;> rw [he] at ht <;> cases ht
  exact h

/-- A command word written in a good state leaves a good state. -/
theorem exec_good (h : s.Good) (i : Instr) : ∀ t, exec i s = .next t → t.Good := by
  cases i
  case nop => exact acceptCommand_good h
  case compress => exact acceptCommand_good (startEncoder_good h _ (by simp [Command.phases]))
  case decompress => exact acceptCommand_good (startDecompress_good h)
  case encode => exact acceptCommand_good (startEncoder_good h _ (by simp [Command.phases]))
  case decode => exact acceptCommand_good (startDecode_good h)
  case clear => exact acceptCommand_good (clearState_good h)
  all_goals exact acceptCommand_good (raiseIllegalCommand_good h)

/-- A command word never faults. -/
theorem exec_ne_fault (i : Instr) (s : State) (e : Fault) : exec i s ≠ .fault e := by
  have key : ∀ next, acceptCommand s next ≠ .fault e := by
    intro next h
    rcases acceptCommand_cases s next with ⟨_, he⟩ | ⟨_, he⟩ <;> rw [he] at h <;> cases h
  cases i <;> exact key _

/-- What a read statement does: it changes only what the host has read and the free values drawn (R67, R114). -/
theorem performRead_cases (s : State) (sp : Space) (idx : Nat) :
    (∃ r, performRead s sp idx = .refused r) ∨
      ∃ v tk, performRead s sp idx = .next { s with reads := s.reads ++ [v], tick := tk } := by
  unfold performRead
  cases hostRead s sp idx with
  | value v => exact .inr ⟨v, s.tick, rfl⟩
  | anyByte => exact .inr ⟨_, s.tick + 1, rfl⟩
  | anyBit => exact .inr ⟨_, s.tick + 1, rfl⟩
  | refused r => exact .inl ⟨r, rfl⟩

theorem performRead_good (h : s.Good) (sp : Space) (idx : Nat) : ∀ t, performRead s sp idx = .next t → t.Good := by
  intro t ht
  rcases performRead_cases s sp idx with ⟨r, he⟩ | ⟨v, tk, he⟩ <;> rw [he] at ht <;> cases ht
  exact h.of_host s.script _ _

/-- What a write to anything but CMD does (R114): it is refused, or one element or length register changes, or nothing
does. -/
theorem writeElement_cases (s : State) (sp : Space) (idx : Nat) (v : PortWord) :
    (∃ r, writeElement s sp idx v = .refused r) ∨
      writeElement s sp idx v = .next s ∨
      (v.toNat ≤ s.cap.inMax ∧ writeElement s sp idx v = .next { s with inLen := v.toNat }) ∨
      (v.toNat ≤ s.cap.bsMax ∧ writeElement s sp idx v = .next { s with bsLen := v.toNat }) ∨
      (idx < s.cap.inMax ∧
        writeElement s sp idx v = .next { s with inBuf := memWrite s.inBuf idx [v.setWidth 8] }) ∨
      (idx < s.cap.bsMax ∧ writeElement s sp idx v = .next (s.writeBits idx [v.getLsbD 0])) ∨
      ∃ h : idx < 256, writeElement s sp idx v = .next { s with ct := s.ct.set idx (unpackEntry v) } := by
  cases sp
  case reg =>
    by_cases h2 : idx = 2
    · by_cases hv : v.toNat ≤ s.cap.inMax
      · exact .inr (.inr (.inl ⟨hv, by simp [writeElement, writeReg, h2, hv]⟩))
      · exact .inl ⟨.lengthAboveCapacity, by simp [writeElement, writeReg, h2, hv]⟩
    · by_cases h4 : idx = 4
      · by_cases hv : v.toNat ≤ s.cap.bsMax
        · exact .inr (.inr (.inr (.inl ⟨hv, by simp [writeElement, writeReg, h4, hv]⟩)))
        · exact .inl ⟨.lengthAboveCapacity, by simp [writeElement, writeReg, h4, hv]⟩
      · by_cases h16 : idx < 16
        · exact .inr (.inl (by simp [writeElement, writeReg, h2, h4, h16]))
        · exact .inl ⟨.noSuchRegister, by simp [writeElement, writeReg, h2, h4, h16]⟩
  case input =>
    by_cases h : idx < s.cap.inMax
    · exact .inr (.inr (.inr (.inr (.inl ⟨h, by simp only [writeElement, h, if_true]⟩))))
    · exact .inl ⟨_, by simp only [writeElement, h, if_false]; rfl⟩
  case output =>
    by_cases h : idx < s.cap.outMax
    · exact .inr (.inl (by simp only [writeElement, h, if_true]))
    · exact .inl ⟨_, by simp only [writeElement, h, if_false]; rfl⟩
  case bits =>
    by_cases h : idx < s.cap.bsMax
    · exact .inr (.inr (.inr (.inr (.inr (.inl ⟨h, by simp only [writeElement, h, if_true]⟩)))))
    · exact .inl ⟨_, by simp only [writeElement, h, if_false]; rfl⟩
  case table =>
    by_cases h : idx < 256
    · exact .inr (.inr (.inr (.inr (.inr (.inr ⟨h, by simp only [writeElement, h, dif_pos]⟩)))))
    · exact .inl ⟨_, by simp only [writeElement, h]; rfl⟩
  case freq =>
    by_cases h : idx < 256
    · exact .inr (.inl (by simp only [writeElement, h, if_true]))
    · exact .inl ⟨_, by simp only [writeElement, h, if_false]; rfl⟩
  case node =>
    by_cases h : idx < 511
    · exact .inr (.inl (by simp only [writeElement, h, if_true]))
    · exact .inl ⟨_, by simp only [writeElement, h, if_false]; rfl⟩
  case reserved => exact .inl ⟨_, rfl⟩

/-- A write in a good idle state leaves a good state. -/
theorem writeElement_good (h : s.Good) (hi : s.phase = .idle) (sp : Space) (idx : Nat) (v : PortWord) :
    ∀ t, writeElement s sp idx v = .next t → t.Good := by
  intro t ht
  have hwf := h.memory
  simp only [Memory.wf, Bool.and_eq_true] at hwf
  have hst : ∀ u : State, u.busy = s.busy → u.done = s.done → u.err = s.err → u.ecode = s.ecode → u.phase = s.phase →
      u.outLen = s.outLen → u.StatusOk := by
    intro u h1 h2 h3 h4 h5 h6
    refine ⟨?_, ?_, ?_, ?_, ?_, ?_⟩
    · rw [h1, h2]; exact h.status.busy_done
    · rw [h3, h2]; exact h.status.err_done
    · rw [h3, h4]; exact h.status.err_ecode
    · rw [h3, h4]; exact h.status.ok_ecode
    · rw [h1, h5]; exact h.status.busy_idle
    · rw [h3, h6]; exact h.status.err_empty
  have hph : ∀ u : State, u.phase = s.phase → u.PhaseOk := by
    intro u hu; unfold State.PhaseOk; rw [hu, hi]; trivial
  rcases writeElement_cases s sp idx v with ⟨r, he⟩ | he | ⟨hv, he⟩ | ⟨hv, he⟩ | ⟨hv, he⟩ | ⟨hv, he⟩ | ⟨hv, he⟩ <;>
    rw [he] at ht <;> cases ht
  · exact h
  · exact ⟨h.cap, hst _ rfl rfl rfl rfl rfl rfl, h.running, h.memory, ⟨h.within.input, h.within.output, h.within.bits⟩,
      ⟨hv, h.ranges.outLen, h.ranges.bsLen, h.ranges.pad, h.ranges.lzc, h.ranges.total, h.ranges.nsym, h.ranges.nnodes,
        h.ranges.candLen, h.ranges.freq, h.ranges.weight⟩, fun hp => absurd hi hp, hph _ rfl⟩
  · exact ⟨h.cap, hst _ rfl rfl rfl rfl rfl rfl, h.running, h.memory, ⟨h.within.input, h.within.output, h.within.bits⟩,
      ⟨h.ranges.inLen, h.ranges.outLen, hv, h.ranges.pad, h.ranges.lzc, h.ranges.total, h.ranges.nsym, h.ranges.nnodes,
        h.ranges.candLen, h.ranges.freq, h.ranges.weight⟩, fun hp => absurd hi hp, hph _ rfl⟩
  · refine ⟨h.cap, hst _ rfl rfl rfl rfl rfl rfl, h.running, ?_, ⟨fun d hd => ?_, h.within.output, h.within.bits⟩,
      ⟨h.ranges.inLen, h.ranges.outLen, h.ranges.bsLen, h.ranges.pad, h.ranges.lzc, h.ranges.total, h.ranges.nsym,
        h.ranges.nnodes, h.ranges.candLen, h.ranges.freq, h.ranges.weight⟩, fun hp => absurd hi hp, hph _ rfl⟩
    · simp only [Memory.wf, Bool.and_eq_true]
      exact ⟨⟨⟨bufWf_memWrite hwf.1.1.1 _ _, hwf.1.1.2⟩, hwf.1.2⟩, hwf.2⟩
    · rcases mem_memWrite_addr hd with hd | hd
      · exact h.within.input d hd
      · simp at hd; simp only; omega
  · refine ⟨h.cap, hst _ rfl rfl rfl rfl rfl rfl, h.running, writeBits_wf h.memory _ _,
      ⟨h.within.input, h.within.output, fun d hd => ?_⟩,
      ⟨h.ranges.inLen, h.ranges.outLen, h.ranges.bsLen, h.ranges.pad, h.ranges.lzc, h.ranges.total, h.ranges.nsym,
        h.ranges.nnodes, h.ranges.candLen, h.ranges.freq, h.ranges.weight⟩, fun hp => absurd hi hp, hph _ rfl⟩
    rcases mem_memWrite_addr hd with hd | hd
    · exact h.within.bits d hd
    · simp at hd; simp only [writeBits_cap]; omega
  · exact ⟨h.cap, hst _ rfl rfl rfl rfl rfl rfl, h.running, h.memory, ⟨h.within.input, h.within.output, h.within.bits⟩,
      ⟨h.ranges.inLen, h.ranges.outLen, h.ranges.bsLen, h.ranges.pad, h.ranges.lzc, h.ranges.total, h.ranges.nsym,
        h.ranges.nnodes, h.ranges.candLen, h.ranges.freq, h.ranges.weight⟩, fun hp => absurd hi hp, hph _ rfl⟩

end Sys2Proof.Machine
end

