-- ==== Sys2Proof/Laws/PerInstr.lean ====
section
/-!
SUPPORT. Sys2Proof/Laws/PerInstr.lean: one statement per command word, the family `OpcodeRow`: the word a well-formed
command is written as lies in its row of spec/opcode_table.json.
-/

namespace Sys2Proof.Laws

/-- The word of a well-formed command matches its row's `match` under its row's `mask` (30_encoding.md R81, R82). -/
def OpcodeRow.Statement (i : Instr) : Prop := i.wf = true → encode i &&& i.rowMask = i.rowMatch

theorem OpcodeRow.nop : OpcodeRow.Statement .nop := fun _ => rfl

theorem OpcodeRow.compress : OpcodeRow.Statement .compress := fun _ => rfl

theorem OpcodeRow.decompress : OpcodeRow.Statement .decompress := fun _ => rfl

theorem OpcodeRow.encode : OpcodeRow.Statement .encode := fun _ => rfl

theorem OpcodeRow.decode : OpcodeRow.Statement .decode := fun _ => rfl

theorem OpcodeRow.clear : OpcodeRow.Statement .clear := fun _ => rfl

theorem OpcodeRow.illegalOp67 (w : Byte) : OpcodeRow.Statement (.illegalOp67 w) := fun h => beq_iff_eq.1 h

theorem OpcodeRow.illegalBit3 (w : Byte) : OpcodeRow.Statement (.illegalBit3 w) := fun h => beq_iff_eq.1 h

theorem OpcodeRow.illegalBit4 (w : Byte) : OpcodeRow.Statement (.illegalBit4 w) := fun h => beq_iff_eq.1 h

theorem OpcodeRow.illegalBit5 (w : Byte) : OpcodeRow.Statement (.illegalBit5 w) := fun h => beq_iff_eq.1 h

theorem OpcodeRow.illegalBit6 (w : Byte) : OpcodeRow.Statement (.illegalBit6 w) := fun h => beq_iff_eq.1 h

theorem OpcodeRow.illegalBit7 (w : Byte) : OpcodeRow.Statement (.illegalBit7 w) := fun h => beq_iff_eq.1 h

end Sys2Proof.Laws
end

