-- ==== Sys2Proof/Laws/Runs.lean ====
section
/-!
SUPPORT. Sys2Proof/Laws/Runs.lean: runs of the sequencer (40_commands.md R111, R115) and the functions of R112 on an input
that is not empty: the tree, the table and the bitstream exist, and the phases COUNT to DERIVE compute them.
-/

namespace Sys2Proof.Machine

variable {s : State}

/-! ### Running phases -/

/-- An idle sequencer stays where it is. -/
theorem runPhases_idle (h : s.phase = .idle) (n : Nat) : runPhases n s = .next s := by
  induction n with
  | zero => rfl
  | succ n ih => simp only [runPhases, phaseStep, h]; exact ih

/-- One phase, then the rest. -/
theorem runPhases_next {t : State} (h : phaseStep s = .next t) (n : Nat) : runPhases (n + 1) s = runPhases n t := by
  simp only [runPhases, h]

/-- A run that reaches IDLE early gives the same as a longer one. -/
theorem runPhases_mono {t : State} {n m : Nat} (h : runPhases n s = .next t) (ht : t.phase = .idle) (hm : n ≤ m) :
    runPhases m s = .next t := by
  induction n generalizing s m with
  | zero =>
    simp only [runPhases, Host.Outcome.next.injEq] at h
    subst h
    exact runPhases_idle ht m
  | succ n ih =>
    obtain ⟨m, rfl⟩ : ∃ k, m = k + 1 := ⟨m - 1, by omega⟩
    simp only [runPhases] at h ⊢
    cases hp : phaseStep s with
    | next u => rw [hp] at h; exact ih h (by omega)
    | fault e => rw [hp] at h; cases h
    | refused r => rw [hp] at h; cases h

/-- The state with the host's side of it replaced. -/
def State.withHost (s : State) (script : List Statement) (reads : List PortWord) (pollsLeft : Option Nat) (tick : Nat) :
    State :=
  { s with script := script, reads := reads, pollsLeft := pollsLeft, tick := tick }

/-- A result with the host's side of its state replaced. -/
def Result.withHost (r : Result) (script : List Statement) (reads : List PortWord) (pollsLeft : Option Nat) (tick : Nat) :
    Result :=
  match r with
  | .next t => .next (t.withHost script reads pollsLeft tick)
  | .fault e => .fault e
  | .refused e => .refused e

theorem raiseError_withHost (c : Option Command) (e : CodecError) (s : State) (sc : List Statement) (rd : List PortWord)
    (pl : Option Nat) (tk : Nat) :
    (.next (raiseError c e (s.withHost sc rd pl tk)) : Result) = Result.withHost (.next (raiseError c e s)) sc rd pl tk := by
  cases c with
  | none => rfl
  | some c => cases c <;> rfl

/-- No phase reads or writes the host's side of the state (10_state.md R46, 20_memory.md R72). -/
theorem phaseStep_withHost (s : State) (sc : List Statement) (rd : List PortWord) (pl : Option Nat)
    (tk : Nat) : phaseStep (s.withHost sc rd pl tk) = Result.withHost (phaseStep s) sc rd pl tk := by
  have hi : inputBytes (s.withHost sc rd pl tk) = inputBytes s := rfl
  have hb : bitstream (s.withHost sc rd pl tk) = bitstream s := rfl
  have hp : (s.withHost sc rd pl tk).phase = s.phase := rfl
  have raised := fun e u => raiseError_withHost s.running e u sc rd pl tk
  unfold phaseStep
  rw [hp]
  cases s.phase
  case idle => rfl
  case count => simp only [phaseCount, hi]; cases inputBytes s <;> rfl
  case leaves =>
    change (match insertLeaves s.freq allSymbols s.forest with | .error e => _ | .ok t => _) = _
    simp only [phaseLeaves]
    cases insertLeaves s.freq allSymbols s.forest with
    | error e => rfl
    | ok t =>
      simp only
      split
      · exact raised .emptyInput { s.setForest t with nsym := t.nnodes }
      · rfl
  case merge =>
    change (match mergeIfMany s.forest with | .error e => _ | .ok t => _) = _
    simp only [phaseMerge]
    cases mergeIfMany s.forest with
    | error e => rfl
    | ok t => simp only; split <;> rfl
  case derive =>
    change (match leafPaths s.node (Config.depthMax + 1) s.root [] with | none => _ | some leaves => _) = _
    simp only [phaseDerive]
    cases leafPaths s.node (Config.depthMax + 1) s.root [] <;> rfl
  case emit =>
    simp only [phaseEmit, hi]
    cases inputBytes s with
    | none => rfl
    | some bytes =>
      change (match encodeSymbols s.ct bytes with | none => _ | some bits => _) = _
      simp only
      cases encodeSymbols s.ct bytes with
      | none => rfl
      | some bits =>
        change Host.Outcome.next (if s.running = some .compress then _ else _) =
          Host.Outcome.next (State.withHost (if s.running = some .compress then _ else _) _ _ _ _)
        split <;> rfl
  case padlzc =>
    simp only [phasePadlzc, hb]
    cases bitstream s with
    | none => rfl
    | some bits =>
      simp only
      split
      · exact raised .headerOverflow { s with pad := padCount bits.length, lzc := leadingZeros (padBits bits) }
      · rfl
  case pack => simp only [phasePack, hb]; cases bitstream s <;> rfl
  case header =>
    simp only [phaseHeader, hi]
    match inputBytes s with
    | none => rfl
    | some [] => exact raised .containerFormat s
    | some [_] => exact raised .containerFormat s
    | some (b0 :: b1 :: rest) =>
      simp only
      split
      · exact raised .containerFormat { s with pad := b0.toNat, lzc := b1.toNat }
      · rfl
  case unpack =>
    simp only [phaseUnpack, hi]
    cases inputBytes s with
    | none => rfl
    | some bytes =>
      change (match restoreBits s.pad s.lzc _ with | none => _ | some bits => _) = _
      simp only
      cases restoreBits s.pad s.lzc (minimalBits (payloadBits (bytes.drop Config.hdrLen))) with
      | none => exact raised .containerFormat s
      | some bits => rfl
  case invert =>
    change (if hasDuplicate s.ct = true then _ else _) = _
    simp only [phaseInvert]
    split
    · exact raised .duplicateCode s
    · rfl
  case scan =>
    rcases phaseScan_cases s with ⟨hn, he⟩ | ⟨bits, hn, ⟨h0, he⟩ | ⟨h0, he⟩⟩ <;> rw [he] <;>
      rcases phaseScan_cases (s.withHost sc rd pl tk) with ⟨hn', he'⟩ | ⟨bits', hn', ⟨h0', he'⟩ | ⟨h0', he'⟩⟩ <;>
      rw [hb, hn] at hn' <;> cases hn' <;> rw [he']
    · rfl
    · rfl
    · exact absurd h0 h0'
    · exact absurd h0' h0
    · exact raised .incompleteCode (scanned s bits)

/-- Where a phase's answer leaves BUSY and DONE: the command is over (40_commands.md R102, R103), or another phase
follows and both are as before. -/
def Ended (s : State) (r : Result) : Prop :=
  ∀ t, r = .next t → (t.phase = .idle ∧ t.busy = false ∧ t.done = true) ∨
    (t.phase ≠ .idle ∧ t.busy = s.busy ∧ t.done = s.done)

theorem Ended.over {s t : State} {r : Result} (h : r = .next t) (h1 : t.phase = .idle) (h2 : t.busy = false)
    (h3 : t.done = true) : Ended s r := by
  intro u hu
  rw [h] at hu
  cases hu
  exact .inl ⟨h1, h2, h3⟩

theorem Ended.goesOn {s t : State} {r : Result} (h : r = .next t) (h1 : t.phase ≠ .idle) (h2 : t.busy = s.busy)
    (h3 : t.done = s.done) : Ended s r := by
  intro u hu
  rw [h] at hu
  cases hu
  exact .inr ⟨h1, h2, h3⟩

theorem Ended.raised {s u : State} {r : Result} {c : Option Command} {e : CodecError}
    (h : r = .next (raiseError c e u)) : Ended s r := .over h (by simp) (by simp) (by simp)

theorem Ended.stopped {s : State} {r : Result} {x : Refusal} (h : r = .refused x) : Ended s r := by
  intro t ht
  rw [h] at ht
  cases ht

theorem Ended.broken {s : State} {r : Result} {x : Fault} (h : r = .fault x) : Ended s r := by
  intro t ht
  rw [h] at ht
  cases ht

/-- BUSY and DONE through a phase of a running command. -/
theorem phaseStep_ended (hp : s.phase ≠ .idle) : Ended s (phaseStep s) := by
  unfold phaseStep
  cases hs : s.phase
  case idle => exact absurd hs hp
  case count =>
    rcases phaseCount_cases s with ⟨_, he⟩ | ⟨_, _, he⟩
    · exact .stopped he
    · exact .goesOn he (by simp) rfl rfl
  case leaves =>
    rcases phaseLeaves_cases s with ⟨_, _, he⟩ | ⟨_, _, ⟨_, he⟩ | ⟨_, he⟩⟩
    · exact .broken he
    · exact .raised he
    · exact .goesOn he (by simp) rfl rfl
  case merge =>
    simp only [phaseMerge]
    cases mergeIfMany s.forest with
    | error e => exact .broken rfl
    | ok t =>
      simp only
      split
      · exact .broken rfl
      · exact .goesOn rfl (by simp) rfl rfl
      · exact .goesOn rfl (by simp) rfl rfl
  case derive =>
    rcases phaseDerive_cases s with ⟨_, he⟩ | ⟨_, _, he⟩
    · exact .broken he
    · exact .goesOn he (by simp) rfl rfl
  case emit =>
    rcases phaseEmit_cases s with ⟨_, he⟩ | ⟨_, _, _, he⟩ | ⟨_, _, _, _, he⟩
    · exact .stopped he
    · exact .broken he
    · unfold afterEmit at he
      split at he
      · exact .goesOn he (by simp) rfl rfl
      · exact .over he rfl rfl rfl
  case padlzc =>
    rcases phasePadlzc_cases s with ⟨_, he⟩ | ⟨_, _, ⟨_, he⟩ | ⟨_, he⟩⟩
    · exact .stopped he
    · exact .raised he
    · exact .goesOn he (by simp) rfl rfl
  case pack =>
    rcases phasePack_cases s with ⟨_, he⟩ | ⟨_, _, he⟩
    · exact .stopped he
    · exact .over he rfl rfl rfl
  case header =>
    rcases phaseHeader_cases s with ⟨_, he⟩ | ⟨_, _, _, he⟩ | ⟨_, _, _, _, ⟨_, he⟩ | ⟨_, he⟩⟩
    · exact .stopped he
    · exact .raised he
    · exact .raised he
    · exact .goesOn he (by simp) rfl rfl
  case unpack =>
    rcases phaseUnpack_cases s with ⟨_, he⟩ | ⟨_, _, ⟨_, he⟩ | ⟨_, _, he⟩⟩
    · exact .stopped he
    · exact .raised he
    · exact .goesOn he (by simp) rfl rfl
  case invert =>
    rcases phaseInvert_cases s with ⟨_, he⟩ | ⟨_, he⟩
    · exact .raised he
    · exact .goesOn he (by simp) rfl rfl
  case scan =>
    rcases phaseScan_cases s with ⟨_, he⟩ | ⟨_, _, ⟨_, he⟩ | ⟨_, he⟩⟩
    · exact .stopped he
    · exact .over he rfl rfl rfl
    · exact .raised he

/-! ### The tree of an input -/

theorem mergeAll_single {t : Forest} (h : t.pq.length = 1) (n : Nat) : mergeAll n t = .ok t := by
  induction n with
  | zero => rfl
  | succ n ih => simp [mergeAll, mergeIfMany, h, ih]

/-- Merging `a` times, then `b` times. -/
theorem mergeAll_add {a : Nat} {x y : Forest} (b : Nat) (h : mergeAll a x = .ok y) :
    mergeAll (a + b) x = mergeAll b y := by
  induction a generalizing x with
  | zero => simp only [mergeAll, Except.ok.injEq] at h; rw [h, Nat.zero_add]
  | succ a ih =>
    rw [show a + 1 + b = (a + b) + 1 by omega]
    simp only [mergeAll] at h ⊢
    cases hm : mergeIfMany x with
    | ok z => rw [hm] at h; exact ih h
    | error e => rw [hm] at h; cases h

/-- Merging a good forest keeps it good; each iteration lowers the number of live nodes by one, down to one (R134). -/
theorem mergeAll_good {f : FreqFile} {k : Nat} {t : Forest} (h : t.Good f k) (n : Nat) :
    ∃ t', mergeAll n t = .ok t' ∧ t'.Good f k ∧ t'.pq.length = max 1 (t.pq.length - n) := by
  induction n generalizing t with
  | zero => exact ⟨t, rfl, h, by have := List.length_pos_iff.2 h.live; omega⟩
  | succ n ih =>
    obtain ⟨u, hu, hg, hl⟩ := mergeIfMany_good h
    obtain ⟨v, hv, hg', hl'⟩ := ih hg
    exact ⟨v, by simp [mergeAll, hu, hv], hg', by omega⟩

theorem presentSymbols_ne_nil {bytes : List Byte} (h : bytes ≠ []) : presentSymbols (freqOf bytes) ≠ [] := by
  obtain ⟨b, rest, rfl⟩ := List.exists_cons_of_ne_nil h
  intro hnil
  have : b ∈ presentSymbols (freqOf (b :: rest)) := by rw [mem_presentSymbols, freqOf_at]; simp
  rw [hnil] at this
  cases this

/-- LEAVES on the counts of a non-empty input (R130, R138). -/
theorem leaves_of_input {bytes : List Byte} (h : bytes ≠ []) :
    ∃ t, insertLeaves (freqOf bytes) allSymbols Forest.empty = .ok t ∧ t.nnodes = symbolCount bytes ∧
      t.pq.length = symbolCount bytes ∧ 0 < symbolCount bytes ∧ symbolCount bytes ≤ 256 ∧
      t.Good (freqOf bytes) (symbolCount bytes) := by
  obtain ⟨t, ht, hn, _, _, hpq⟩ := insertLeaves_empty (freqOf bytes)
  have hpos : 0 < (presentSymbols (freqOf bytes)).length := List.length_pos_iff.2 (presentSymbols_ne_nil h)
  have hlen : t.pq.length = symbolCount bytes := by simpa [symbolCount] using congrArg List.length hpq
  have hg := insertLeaves_good _ _ ht (by omega)
  rw [hn] at hg
  exact ⟨t, ht, hn, hlen, hpos, presentSymbols_length_le _, hg⟩

/-- The tree of a non-empty input: one live node, the root, and a good forest (R134, R138, R141). -/
theorem treeOf_input {bytes : List Byte} (h : bytes ≠ []) :
    ∃ t root, treeOf (freqOf bytes) = .ok t ∧ t.pq = [root] ∧ t.Good (freqOf bytes) (symbolCount bytes) ∧
      (t.node.at root).weight = bytes.length := by
  obtain ⟨l, hl, _, hlen, _, h256, hg⟩ := leaves_of_input h
  obtain ⟨t, ht, hgt, hlt⟩ := mergeAll_good hg 255
  have h1 : t.pq.length = 1 := by omega
  obtain ⟨root, hroot⟩ := List.length_eq_one_iff.1 h1
  refine ⟨t, root, by simp [treeOf, hl, ht], hroot, hgt, ?_⟩
  have := hgt.weight
  rw [hroot, freqOf_sum] at this
  simpa using this

/-- The table of a non-empty input: that of its tree, with an entry for every byte of the input (R150, R154). -/
theorem tableOf_input {bytes : List Byte} (h : bytes ≠ []) :
    ∃ t root leaves, treeOf (freqOf bytes) = .ok t ∧ t.pq = [root] ∧
      leafPaths t.node (Config.depthMax + 1) root [] = some leaves ∧
      tableOf bytes = some (.ok (writeCodes CodeTable.zero leaves)) ∧
      ∀ b ∈ bytes, ((writeCodes CodeTable.zero leaves).at b).v = true := by
  obtain ⟨t, root, ht, hr, hg, _⟩ := treeOf_input h
  obtain ⟨leaves, hl, hv⟩ := derive_good hg hr
  refine ⟨t, root, leaves, ht, hr, hl, by simp [tableOf, ht, hr, codesOf, hl], fun b hb => hv b ?_⟩
  rw [freqOf_at]
  exact List.count_pos_iff.2 hb

/-! ### The phases up to EMIT -/

/-- MERGE runs `mergeAll`: from a good forest with `n + 1` live nodes the sequencer reaches DERIVE in `max 1 n` steps with
the finished forest. -/
theorem runPhases_merge (n : Nat) (h : s.phase = .merge) (hg : Forest.Good s.freq s.nsym s.forest)
    (hn : s.pq.length = n + 1) :
    ∃ t root, mergeAll n s.forest = .ok t ∧ t.pq = [root] ∧ ∀ m, runPhases (m + max 1 n) s = runPhases m
      { s.setForest t with root := root, total := (t.node.at root).weight, phase := .derive } := by
  induction n generalizing s with
  | zero =>
    obtain ⟨t, ht, hgt, hl, hc⟩ := phaseMerge_good hg
    have hst : t = s.forest := by
      have : mergeIfMany s.forest = .ok s.forest := by simp [mergeIfMany, State.forest, hn]
      rw [this] at ht; injection ht with ht; exact ht.symm
    rcases hc with ⟨h2, _⟩ | ⟨r, hr, _, he⟩
    · omega
    · refine ⟨t, r, by rw [hst]; rfl, hr, fun m => ?_⟩
      exact runPhases_next (by simp only [phaseStep, h]; exact he) m
  | succ n ih =>
    obtain ⟨t, ht, hgt, hl, hc⟩ := phaseMerge_good hg
    rcases hc with ⟨h2, he⟩ | ⟨r, hr, _, he⟩
    · obtain ⟨n, rfl⟩ : ∃ k, n = k + 1 := ⟨n - 1, by omega⟩
      obtain ⟨u, root, hu, hur, hrun⟩ := ih (s := { s.setForest t with phase := .merge }) rfl hgt
        (by show t.pq.length = _; omega)
      refine ⟨u, root, ?_, hur, fun m => ?_⟩
      · have hu' : mergeAll (n + 1) t = .ok u := hu
        simp [mergeAll, ht] at hu' ⊢
        exact hu'
      · have := hrun m
        rw [show m + max 1 (n + 1 + 1) = (m + max 1 (n + 1)) + 1 by omega,
          runPhases_next (by simp only [phaseStep, h]; exact he), this]
        rfl
    · have hn0 : n = 0 := by have := congrArg List.length hr; simp at this; omega
      subst hn0
      refine ⟨t, r, by simp [mergeAll, ht], hr, fun m => ?_⟩
      exact runPhases_next (by simp only [phaseStep, h]; exact he) m

/-- The phases COUNT to EMIT on a non-empty input (R105, R106): in at most 259 steps the tree, the table and the bitstream
of the input stand in the state, and what follows EMIT has begun. -/
theorem runPhases_encoder (c : Command) {bytes : List Byte} (hin : inputBytes s = some bytes) (hne : bytes ≠ []) :
    ∃ t root tbl bits, treeOf (freqOf bytes) = .ok t ∧ t.pq = [root] ∧
      encodeBytes bytes = some (.ok (bits, tbl)) ∧ (∀ b ∈ bytes, (tbl.at b).v = true) ∧ bits = (bytes.flatMap fun b => codeBits (tbl.at b)) ∧
      ∃ k, k ≤ 259 ∧ ∀ m, runPhases (m + k) (startEncoder c s) = runPhases m (afterEmit
        { s.encoded bytes t root tbl bits with phase := .emit, running := some c, busy := true, done := false }) := by
  obtain ⟨l, hl, hln, hlen, hpos, h256, hg⟩ := leaves_of_input hne
  obtain ⟨t, root, leaves, ht, hr, hlv, htab, hval⟩ := tableOf_input hne
  obtain ⟨t', root', ht', hr', hg', hw⟩ := treeOf_input hne
  rw [ht] at ht'; injection ht' with ht'; subst ht'
  rw [hr] at hr'; injection hr' with hr'; subst hr'
  have henc := (encodeSymbols_eq (writeCodes CodeTable.zero leaves) bytes _).2 ⟨hval, rfl⟩
  refine ⟨t, root, _, _, ht, hr, by simp [encodeBytes, htab, henc], hval, rfl, 
    (max 1 (symbolCount bytes - 1)) + 4, by omega, fun m => ?_⟩
  let s1 : State := { startEncoder c s with freq := freqOf bytes, phase := .leaves }
  have h1 : phaseStep (startEncoder c s) = .next s1 := by
    have : inputBytes (startEncoder c s) = some bytes := hin
    simp only [phaseStep, startEncoder, phaseCount]
    simp only [startEncoder] at this
    rw [this]; rfl
  let s2 : State := { s1.setForest l with nsym := l.nnodes, phase := .merge }
  have h2 : phaseStep s1 = .next s2 := by
    rcases phaseLeaves_cases s1 with ⟨e, he, _⟩ | ⟨l', hl', hc⟩
    · change insertLeaves (freqOf bytes) allSymbols Forest.empty = _ at he
      rw [hl] at he; cases he
    · change insertLeaves (freqOf bytes) allSymbols Forest.empty = _ at hl'
      rw [hl] at hl'; cases hl'
      rcases hc with ⟨h0, _⟩ | ⟨_, he⟩
      · omega
      · exact he
  obtain ⟨u, root', hu, hur, hrun⟩ := runPhases_merge (s := s2) (symbolCount bytes - 1) rfl
    (by show Forest.Good (freqOf bytes) l.nnodes l; rw [hln]; exact hg) (by show l.pq.length = _; omega)
  have hut : u = t := by
    have h3 : mergeAll 255 l = .ok t := by simpa [treeOf, hl] using ht
    have hu' : mergeAll (symbolCount bytes - 1) l = .ok u := hu
    have := mergeAll_add (255 - (symbolCount bytes - 1)) hu'
    rw [show symbolCount bytes - 1 + (255 - (symbolCount bytes - 1)) = 255 by omega, h3,
      mergeAll_single (by rw [hur]; rfl)] at this
    injection this with this; exact this.symm
  subst hut
  rw [hr] at hur; injection hur with hur; subst hur
  let s3 : State := { s2.setForest u with root := root, total := (u.node.at root).weight, phase := .derive }
  let s4 : State := { s3 with ct := writeCodes CodeTable.zero leaves, phase := .emit }
  have h4 : phaseStep s3 = .next s4 := by
    show phaseDerive s3 = _
    rcases phaseDerive_cases s3 with ⟨hn, _⟩ | ⟨lv, hlv', he⟩
    · change leafPaths u.node _ root [] = _ at hn
      rw [hlv] at hn; cases hn
    · change leafPaths u.node _ root [] = _ at hlv'
      rw [hlv] at hlv'; cases hlv'
      exact he
  have h5 : phaseStep s4 = .next (afterEmit (State.flagDegen {
      s4.writeBits 0 (bytes.flatMap fun b => codeBits ((writeCodes CodeTable.zero leaves).at b)) with
      bsLen := (bytes.flatMap fun b => codeBits ((writeCodes CodeTable.zero leaves).at b)).length })) := by
    show phaseEmit s4 = _
    have hi : inputBytes s4 = some bytes := hin
    have he : encodeSymbols s4.ct bytes = _ := henc
    simp only [phaseEmit, hi, he]
    simp only [s4, s3, s2, s1, State.setForest, startEncoder, clearTree, Nat.zero_add]
  rw [show m + (max 1 (symbolCount bytes - 1) + 4) = (((m + 1) + 1) + max 1 (symbolCount bytes - 1)) + 1 + 1 by omega,
    runPhases_next h1, runPhases_next h2, hrun, runPhases_next h4, runPhases_next h5]
  congr 1
  simp only [afterEmit, State.flagDegen, s4, s3, s2, s1, State.setForest, startEncoder, clearTree,
    clearResults, State.flagsStarted, State.encoded, State.completed, State.writeBits, hw, hr, hln]

end Sys2Proof.Machine
end

