-- ==== Sys2Proof/Laws/Polling.lean ====
section
/-!
SUPPORT. Sys2Proof/Laws/Polling.lean: a host that polls a running command (30_encoding.md R92): the machine's steps are the
sequencer's, and the host gets STATUS each time it reads.
-/

namespace Sys2Proof.Machine

theorem statusWord_done (s : State) : (statusWord s).getLsbD 1 = s.done := by
  simp only [statusWord, BitVec.getLsbD_append, BitVec.getLsbD_ofBool]; simp

theorem statusWord_busy (s : State) : (statusWord s).getLsbD 0 = s.busy := by
  simp only [statusWord, BitVec.getLsbD_append, BitVec.getLsbD_ofBool]; simp

/-- One step of the machine, then the rest. -/
theorem core_run_succ {a b : State} (h : step a = .next b) (m : Nat) :
    Host.Core.run Sys2Proof.core (m + 1) a = Host.Core.run Sys2Proof.core m b := by
  have : Sys2Proof.core.step a = .next b := h
  simp only [Host.Core.run, this]

/-- Running one part, then another. -/
theorem core_run_add {m : Nat} {a b : State} (h : Host.Core.run Sys2Proof.core m a = .next b) (k : Nat) :
    Host.Core.run Sys2Proof.core (m + k) a = Host.Core.run Sys2Proof.core k b := by
  induction m generalizing a with
  | zero => cases h; rw [Nat.zero_add]
  | succ m ih =>
    rw [show m + 1 + k = (m + k) + 1 by omega]
    simp only [Host.Core.run] at h ⊢
    cases hs : Sys2Proof.core.step a with
    | next c => rw [hs] at h; exact ih h
    | fault _ => rw [hs] at h; cases h
    | refused _ => rw [hs] at h; cases h

/-- One step of a polling host while a command runs: a read of STATUS, POLL still to do. -/
theorem step_poll_read {s : State} (hp : s.phase ≠ .idle) (hb : s.busy = true) (hd : s.done = false)
    (rest : List Statement) (rd : List PortWord) {pl : Option Nat} {tk k : Nat}
    (hk : pl.getD (Config.pollReads tk) = k + 1) :
    step (s.withHost (.poll :: rest) rd pl tk) =
      .next (s.withHost (.poll :: rest) (rd ++ [(statusWord s).setWidth 264]) (some k) (tk + 1)) := by
  have h1 : (s.withHost (.poll :: rest) rd pl tk).phase ≠ .idle := hp
  have h2 : (s.withHost (.poll :: rest) rd pl tk).pollsLeft.getD
      (Config.pollReads (s.withHost (.poll :: rest) rd pl tk).tick) = k + 1 := hk
  have h3 : step (s.withHost (.poll :: rest) rd pl tk) = pollTurn (s.withHost (.poll :: rest) rd pl tk) := by
    simp only [step, blockStep, if_neg h1]
    rfl
  have h4 : hostRead (s.withHost rest rd (some k) (tk + 1)) .reg 1 = .value ((statusWord s).setWidth 264) := by
    have : (s.withHost rest rd (some k) (tk + 1)).busy = true := hb
    simp only [hostRead, this, if_true, and_self]
    rfl
  have h5 : (s.withHost rest rd (some k) (tk + 1)).done = false := hd
  rw [h3, pollTurn, h2]
  change performPoll (s.withHost rest rd (some k) (tk + 1)) = _
  simp only [performPoll, performRead, h4, h5]
  rfl

/-- A polling host's reads before the next phase, and that phase: as many steps as reads, and one. -/
theorem run_polls {s t : State} (hp : s.phase ≠ .idle) (hb : s.busy = true) (hd : s.done = false)
    (ht : phaseStep s = .next t) (rest : List Statement) (k : Nat) (rd : List PortWord) (pl : Option Nat) (tk : Nat)
    (hk : pl.getD (Config.pollReads tk) = k) :
    ∃ tk', Host.Core.run Sys2Proof.core (k + 1) (s.withHost (.poll :: rest) rd pl tk) =
      .next (t.withHost (.poll :: rest) (rd ++ List.replicate k ((statusWord s).setWidth 264)) none tk') := by
  induction k generalizing rd pl tk with
  | zero =>
    have h1 : (s.withHost (.poll :: rest) rd pl tk).phase ≠ .idle := hp
    have h2 : (s.withHost (.poll :: rest) rd pl tk).pollsLeft.getD
        (Config.pollReads (s.withHost (.poll :: rest) rd pl tk).tick) = 0 := hk
    have h3 : step (s.withHost (.poll :: rest) rd pl tk) = pollTurn (s.withHost (.poll :: rest) rd pl tk) := by
      simp only [step, blockStep, if_neg h1]
      rfl
    have hstep := phaseStep_withHost s (.poll :: rest) rd none (tk + 1)
    rw [ht] at hstep
    rw [pollTurn, h2] at h3
    refine ⟨tk + 1, ?_⟩
    rw [List.replicate_zero, List.append_nil]
    exact core_run_succ (h3.trans hstep) 0
  | succ k ih =>
    obtain ⟨tk', h⟩ := ih (rd ++ [(statusWord s).setWidth 264]) (some k) (tk + 1) rfl
    refine ⟨tk', ?_⟩
    rw [core_run_succ (step_poll_read hp hb hd rest rd hk), h, List.append_assoc]
    rfl

/-- While a command runs and the host polls, the machine reaches the end the sequencer alone reaches, in no more steps
than the sequencer's and one for each read; every STATUS the host gets meanwhile has BUSY = 1 and DONE = 0. -/
theorem run_polling (n : Nat) {s u : State} (hp : s.phase ≠ .idle) (hb : s.busy = true) (hd : s.done = false)
    (hrun : runPhases n s = .next u) (hu : u.phase = .idle) (rest : List Statement) (rd : List PortWord)
    (pl : Option Nat) (tk : Nat) :
    ∃ m polled tk', m ≤ n + polled.length ∧ (∀ w ∈ polled, w.getLsbD 0 = true ∧ w.getLsbD 1 = false) ∧
      u.busy = false ∧ u.done = true ∧
      Host.Core.run Sys2Proof.core m (s.withHost (.poll :: rest) rd pl tk) =
        .next (u.withHost (.poll :: rest) (rd ++ polled) none tk') := by
  induction n generalizing s rd pl tk with
  | zero => cases hrun; exact absurd hu hp
  | succ n ih =>
    simp only [runPhases] at hrun
    cases ht : phaseStep s with
    | fault e => rw [ht] at hrun; cases hrun
    | refused e => rw [ht] at hrun; cases hrun
    | next t =>
      rw [ht] at hrun
      change runPhases n t = .next u at hrun
      obtain ⟨tk1, hreads⟩ := run_polls hp hb hd ht rest _ rd pl tk rfl
      generalize pl.getD (Config.pollReads tk) = k at hreads
      have hseen : ∀ w ∈ List.replicate k ((statusWord s).setWidth 264), w.getLsbD 0 = true ∧ w.getLsbD 1 = false := by
        intro w hw
        obtain rfl := List.eq_of_mem_replicate hw
        rw [BitVec.getLsbD_setWidth, BitVec.getLsbD_setWidth, statusWord_done, statusWord_busy, hb, hd]
        exact ⟨rfl, rfl⟩
      rcases phaseStep_ended hp t ht with ⟨h1, h2, h3⟩ | ⟨h1, h2, h3⟩
      · rw [runPhases_idle h1] at hrun
        cases hrun
        exact ⟨k + 1, _, tk1, by simp, hseen, h2, h3, hreads⟩
      · obtain ⟨m, polled, tk', hm, hpol, hub, hud, hr⟩ := ih h1 (h2.trans hb) (h3.trans hd) hrun
          (rd ++ List.replicate k ((statusWord s).setWidth 264)) none tk1
        refine ⟨k + 1 + m, List.replicate k ((statusWord s).setWidth 264) ++ polled, tk', ?_, ?_, hub, hud, ?_⟩
        · simp only [List.length_append, List.length_replicate]; omega
        · intro w hw
          rcases List.mem_append.1 hw with hw | hw
          · exact hseen w hw
          · exact hpol w hw
        · rw [core_run_add hreads, ← List.append_assoc]
          exact hr

end Sys2Proof.Machine
end

