-- ==== Sys2Proof/Tests/Slice0.lean ====
section
/-!
SUPPORT. Sys2Proof/Tests/Slice0.lean: the WellFormed smoke test, the decoding of written-out words, small runs against the
vectors of spec/95_test_vectors.md, and for each statement with hypotheses a witness that meets them.
-/

namespace Sys2Proof.Tests

-- Each theorem is checked before the next one starts: the kernel evaluations need memory one at a time.
set_option Elab.async false

open Sys2Proof Sys2Proof.Machine

/-! ### WellFormed (30_encoding.md R81, R82): an ill-formed term for each check -/

theorem test_wf_refuses_op67 : (Instr.illegalOp67 0x05#8).wf = false ∧ (Instr.illegalOp67 0x0E#8).wf = false := by decide
theorem test_wf_refuses_bit3 : (Instr.illegalBit3 0x07#8).wf = false ∧ (Instr.illegalBit3 0x18#8).wf = false := by decide
theorem test_wf_refuses_bit4 : (Instr.illegalBit4 0x08#8).wf = false ∧ (Instr.illegalBit4 0x30#8).wf = false := by decide
theorem test_wf_refuses_bit5 : (Instr.illegalBit5 0x10#8).wf = false ∧ (Instr.illegalBit5 0x60#8).wf = false := by decide
theorem test_wf_refuses_bit6 : (Instr.illegalBit6 0x20#8).wf = false ∧ (Instr.illegalBit6 0xC0#8).wf = false := by decide
theorem test_wf_refuses_bit7 : (Instr.illegalBit7 0x40#8).wf = false ∧ (Instr.illegalBit7 0x7F#8).wf = false := by decide
theorem test_wf_accepts : Instr.nop.wf = true ∧ (Instr.illegalOp67 0x07#8).wf = true ∧
    (Instr.illegalBit7 0xFF#8).wf = true := by decide

/-! ### Decoding: words written out bit by bit, ZERO = bits 7:3 and OP = bits 2:0 (R80, R81, R82) -/

theorem test_decode_nop : decode (0b00000#5 ++ 0b000#3) = .nop := by decide
theorem test_decode_compress : decode (0b00000#5 ++ 0b001#3) = .compress := by decide
theorem test_decode_decompress : decode (0b00000#5 ++ 0b010#3) = .decompress := by decide
theorem test_decode_encode : decode (0b00000#5 ++ 0b011#3) = .encode := by decide
theorem test_decode_decode : decode (0b00000#5 ++ 0b100#3) = .decode := by decide
theorem test_decode_clear : decode (0b00000#5 ++ 0b101#3) = .clear := by decide
theorem test_decode_op6 : decode (0b00000#5 ++ 0b110#3) = .illegalOp67 0x06#8 := by decide
theorem test_decode_bit3 : decode (0b00001#5 ++ 0b001#3) = .illegalBit3 0x09#8 := by decide
theorem test_decode_bit4 : decode (0b00010#5 ++ 0b000#3) = .illegalBit4 0x10#8 := by decide
theorem test_decode_bit5 : decode (0b00101#5 ++ 0b101#3) = .illegalBit5 0x2D#8 := by decide
theorem test_decode_bit6 : decode (0b01000#5 ++ 0b001#3) = .illegalBit6 0x41#8 := by decide
theorem test_decode_bit7 : decode (0b10000#5 ++ 0b001#3) = .illegalBit7 0x81#8 := by decide
theorem test_decode_no_word : decodeBytes [] = .error .noWord := by rfl

/-! ### States -/

/-- A small block (00_scope.md R7's constraints hold). -/
def cap : Capacity := { inMax := 16, bsMax := 4080, outMax := 4080 }

theorem cap_ok : cap.Ok := by decide

/-- The block after LOAD_IN. -/
def loaded (bytes : List Byte) : State :=
  { State.resetWith cap with inBuf := cellsFrom 0 bytes, inLen := bytes.length }

/-- The block after LOAD_BS and the writing of some CT entries. -/
def loadedBits (bits : List Bit) (tbl : CodeTable) : State :=
  { State.resetWith cap with bsBuf := cellsFrom 0 bits, bsLen := bits.length, ct := tbl }

/-- A table with two codes, `0` for 65 and `10` for 66: prefix-free, not complete. -/
def table2 : CodeTable :=
  (CodeTable.zero.put 65 (entryOfCode [false])).put 66 (entryOfCode [true, false])

/-- The state of an answer. -/
def after : Result → Option State
  | .next s => some s
  | .fault _ => none
  | .refused _ => none

/-- A field of the state of an answer. -/
def get {α : Type} (r : Result) (f : State → α) : Option α := (after r).map f

/-! ### The commands -/

/-- R104: NOP keeps the STATUS of the last command. -/
theorem test_nop : get (exec .nop { loaded [1] with done := true }) statusWord = some 0x002#32 := by decide +kernel
/-- R101: COMPRESS starts with BUSY = 1, PHASE = COUNT. -/
theorem test_compress_starts : get (exec .compress (loaded [65])) statusWord = some 0x101#32 := by decide +kernel
/-- R101: ENCODE clears BS_LEN. -/
theorem test_encode_starts : get (exec .encode { loaded [65] with bsLen := 3 }) (·.bsLen) = some 0 := by decide +kernel
/-- R101: DECOMPRESS starts in HEADER and keeps IN_LEN. -/
theorem test_decompress_starts :
    get (exec .decompress (loaded [0, 0])) (fun t => (statusWord t, t.inLen)) = some (0x801#32, 2) := by decide +kernel
/-- R101: DECODE starts in INVERT and keeps BS_LEN. -/
theorem test_decode_starts :
    get (exec .decode (loadedBits [true] table2)) (fun t => (statusWord t, t.bsLen)) = some (0xA01#32, 1) := by
  decide +kernel
/-- R109: CLEAR leaves the lengths 0 and IN's contents. -/
theorem test_clear : get (exec .clear (loaded [7])) (fun t => (t.inLen, t.inBuf)) = some (0, [(0, 7#8)]) := by
  decide +kernel
/-- R110: `WR CMD, 0x07` leaves STATUS = 0x066. -/
theorem test_illegal : get (hostWrite (loaded [7]) .reg 0 0x107) statusWord = some 0x066#32 := by decide +kernel
/-- R113: while BUSY = 1 a CMD write is refused. -/
theorem test_busy_refused : exec .nop { loaded [1] with busy := true } = .refused .busyAccess := by rfl

/-- V6 (95_test_vectors.md): the empty input gives STATUS = 0x016. -/
theorem test_empty_input : get (runCommand (startEncoder .compress (loaded []))) statusWord = some 0x016#32 := by
  decide +kernel
/-- V5: one distinct symbol gives the container [0, 0], STATUS = 0x00A, TOTAL = N. -/
theorem test_single_symbol :
    get (runCommand (startEncoder .compress (loaded [65, 65, 65])))
      (fun t => (statusWord t, memRead t.outBuf 0 t.outLen, t.total)) = some (0x00A#32, some [0, 0], 3) := by
  decide +kernel
/-- R133's example: counts 3, 2, 1 of the symbols 0, 1, 2 give ROOT = 4 with children 0 and 3. -/
theorem test_merge_example :
    get (runCommand (startEncoder .encode (loaded [0, 0, 0, 1, 1, 2])))
      (fun t => (t.root.val, (t.node.at 4).left.val, (t.node.at 4).right.val, (t.node.at 3).left.val)) =
        some (4, 0, 3, 2) := by
  decide +kernel
/-- R184's corner cases: [3, 8, 0x00] gives `00000`, [3, 2] and [3, 0, 0x01] fault, [1, 0, 0x01] gives the empty one. -/
theorem test_unpack_corners :
    unpackBits [3, 8, 0] = .ok (List.replicate 5 false) ∧ unpackBits [3, 2] = .error .containerFormat ∧
    unpackBits [3, 0, 1] = .error .containerFormat ∧ unpackBits [1, 0, 1] = .ok [] := ⟨rfl, rfl, rfl, rfl⟩
/-- R186's example: [2, 0, 0x00, 0x14] gives `101`. -/
theorem test_unpack_believes_header : unpackBits [2, 0, 0, 0x14] = .ok [true, false, true] := rfl
/-- R170's examples: Pack(`0`) = [7, 8, 0], Pack of the empty sequence = [0, 0]. -/
theorem test_pack_examples : packBits [false] = .ok [7, 8, 0] ∧ packBits [] = .ok [0, 0] := ⟨rfl, rfl⟩
/-- R199's example: CT = {A: `0`, B: `01`} on `0101` ends in IncompleteCodeError with CAND_LEN = 3. -/
theorem test_scan_shortest :
    get (runCommand (startDecode (loadedBits [false, true, false, true]
      ((CodeTable.zero.put 65 (entryOfCode [false])).put 66 (entryOfCode [false, true])))))
      (fun t => (statusWord t, t.candLen, t.outLen)) = some (0x046#32, 3, 0) := by
  decide +kernel
/-- R190's example: CT = {A: `0`, B: `0`} gives DuplicateCodeError. -/
theorem test_duplicate :
    get (runCommand (startDecode (loadedBits [] ((CodeTable.zero.put 65 (entryOfCode [false])).put 66
      (entryOfCode [false]))))) statusWord = some 0x036#32 := by
  decide +kernel
/-- R92: POLL is RD STATUS; with DONE = 1 the host has STATUS = 0x002 and goes on. -/
theorem test_poll_done :
    get (step { loaded [7] with done := true, script := [.poll, .reset] }) (fun t => (t.reads, t.script)) =
      some ([0x002#264], [.reset]) := by decide +kernel
/-- R92: with DONE = 0 the host has STATUS = 0 and reads it again. -/
theorem test_poll_again :
    get (step { loaded [7] with script := [.poll, .reset] }) (fun t => (t.reads, t.script)) =
      some ([0#264], [.poll, .reset]) := by decide +kernel
/-- R6, R92: in a running command a step of a polling host is one read of STATUS, while reads are left ... -/
theorem test_poll_running_read :
    get (step { startEncoder .compress (loaded [7]) with script := [.poll], pollsLeft := some 2 })
      (fun t => (t.reads, t.phase, t.pollsLeft, t.script)) = some ([0x101#264], .count, some 1, [.poll]) := by
  decide +kernel
/-- ... and one phase, without a read, when none is left. -/
theorem test_poll_running_phase :
    get (step { startEncoder .compress (loaded [7]) with script := [.poll], pollsLeft := some 0 })
      (fun t => (t.reads, t.phase, t.pollsLeft, t.script)) = some ([], .leaves, none, [.poll]) := by
  decide +kernel
/-- R273: the element at BS_LEN is unspecified once a command is over, until it is written again; the one below is not. -/
theorem test_stale_bits :
    let s : State := completeCommand { loadedBits [true, true] table2 with bsLen := 1 }
    bufRead (heldBits s.bsBuf s.bsStale) 1 = some (Config.staleBit 0 1) ∧
    bufRead (heldBits s.bsBuf s.bsStale) 0 = some true ∧
    bufRead (heldBits (s.writeBits 1 [false]).bsBuf (s.writeBits 1 [false]).bsStale) 1 = some false := ⟨rfl, rfl, rfl⟩
/-- A step runs the command the host writes: from reset, CMD 0x07 placed as the next statement gives STATUS 0x066. -/
theorem test_step_runs_placed_word : get (step (State.reset.withFetchWord 8 0x07)) statusWord = some 0x066#32 := by
  decide +kernel

/-! ### Witnesses: a concrete state and operands that meet the hypotheses of each statement, each clause at a boundary -/

theorem good_reset : (State.resetWith cap).Good := resetWith_good cap cap_ok

/-- The block after one byte is loaded is a good state. -/
theorem good_loaded : (loaded [65]).Good := by
  have h1 : (State.resetWith cap).Good := good_reset
  have h2 := writeElement_good h1 rfl .input 0 65 { State.resetWith cap with inBuf := [(0, 65#8)] } rfl
  exact writeElement_good h2 rfl .reg 2 1 (loaded [65]) rfl

/-- A started COMPRESS is a good state. -/
theorem good_started : (startEncoder .compress (loaded [65])).Good := startEncoder_good good_loaded .compress (by decide)

/-- Hypotheses of StepKeepsGood and StepNeverFaults. -/
theorem witness_StepKeepsGood :
    (startEncoder .compress (loaded [65])).Good ∧ ∃ t, step (startEncoder .compress (loaded [65])) = .next t :=
  ⟨good_started, _, rfl⟩

/-- Hypotheses of ResetIsGood: the smallest capacities R7 allows. -/
theorem witness_ResetIsGood : Capacity.Ok { inMax := 2, bsMax := 510, outMax := 510 } := by decide

/-- Hypotheses of ErrorMeansNoOutput: a state with ERR = 1, and a step. -/
theorem witness_ErrorMeansNoOutput :
    (raiseIllegalCommand (loaded [65])).StatusOk ∧ (raiseIllegalCommand (loaded [65])).err = true ∧
    ∃ t, step (raiseIllegalCommand (loaded [65])) = .next t :=
  ⟨(raiseIllegalCommand_good good_loaded).status, rfl, _, rfl⟩

/-- Hypotheses of OnlyTheHostWritesInput: steps that change IN, IN_LEN by a write, IN_LEN by CLEAR, both by reset. -/
theorem witness_OnlyTheHostWritesInput :
    get (step { State.resetWith cap with script := [.write .input 15 7] }) (·.inBuf) = some [(15, 7#8)] ∧
    get (step { State.resetWith cap with script := [.write .reg 2 16] }) (·.inLen) = some 16 ∧
    get (step { loaded [65] with script := [.write .reg 0 5] }) (·.inLen) = some 0 ∧
    get (step { loaded [65] with script := [.reset] }) (fun t => (t.inLen, t.inBuf)) = some (0, []) := by decide +kernel

/-- Hypotheses of ReservedWordsRaiseIllegalCommand: the words around 0x05, an idle good block, a word of each row. -/
theorem witness_ReservedWordsRaiseIllegalCommand :
    (5 < (0x06#8).toNat ∧ 5 < (0xFF#8).toNat ∧ ¬ 5 < (0x05#8).toNat) ∧ (loaded [65]).busy = false ∧
    (loaded [65]).StatusOk ∧ (loaded [65]).RunningOk ∧
    decode 0x06 = .illegalOp67 0x06 ∧ decode 0x08 = .illegalBit3 0x08 ∧ decode 0x10 = .illegalBit4 0x10 ∧
    decode 0x20 = .illegalBit5 0x20 ∧ decode 0x40 = .illegalBit6 0x40 ∧ decode 0x80 = .illegalBit7 0x80 :=
  ⟨by decide, rfl, good_loaded.status, good_loaded.running, by decide, by decide, by decide, by decide, by decide,
    by decide⟩

/-- Hypotheses of DecodeEncodeAgree: a well-formed term of a row with free bits, at both ends of the row. -/
theorem witness_DecodeEncodeAgree :
    (Instr.illegalBit7 0x80).wf = true ∧ (Instr.illegalBit7 0xFF).wf = true ∧ (Instr.illegalOp67 0x06).wf = true ∧
    encode (.illegalOp67 0x06) = encode (.illegalOp67 0x06) := by decide

/-- Hypotheses of CmdWriteIsDecoded and of the statements on commands: BUSY = 0 and BUSY = 1; each word of the list. -/
theorem witness_CmdWriteIsDecoded :
    (loaded [65]).busy = false ∧ (startEncoder .compress (loaded [65])).busy = true ∧
    (0x100#264).toNat % 256 = 0x00 ∧ (0x105#264).toNat % 256 = 0x05 ∧ (0x1FF#264).toNat % 256 = 0xFF := by decide +kernel

/-- Hypotheses of StepRunsWrittenCommand: an idle block whose host writes CMD; the greatest word. -/
theorem witness_StepRunsWrittenCommand :
    ({ loaded [65] with script := [.write .reg 0 1] } : State).phase = .idle ∧
    ({ loaded [65] with script := [.write .reg 0 1] } : State).script = .write .reg 0 1 :: [] ∧ (255 : Nat) < 256 :=
  ⟨rfl, rfl, by decide⟩

/-- Hypotheses of NopChangesNothing, ClearGivesResetValues, CommandStartClears, BusyAllowsOnlyStatusReads: idle and busy
blocks, and accesses other than a read of STATUS. -/
theorem witness_commands :
    (loaded [65]).busy = false ∧ (startEncoder .compress (loaded [65])).busy = true ∧
    ¬ (Space.reg = .reg ∧ (0 : Nat) = 1) ∧ ¬ (Space.input = .reg ∧ (1 : Nat) = 1) := by decide +kernel

/-- Hypotheses of FaultStaysUntilNextCommand: after a fault, a host write of a length, an accepted command, NOP, reset. -/
theorem witness_FaultStaysUntilNextCommand :
    Statement.write .reg 2 1 ≠ .reset ∧ (∀ v, Statement.write .reg 2 1 ≠ .write .reg 0 v) ∧
    get (perform (.write .reg 2 1) (raiseIllegalCommand (loaded [65]))) statusWord = some 0x066#32 ∧
    (raiseIllegalCommand (loaded [65])).busy = false ∧ Instr.clear ≠ .nop := by
  refine ⟨by decide, fun v h => ?_, by decide +kernel, rfl, by decide⟩
  simp at h

/-- Hypotheses of RegisterNumbers: both ends of each range of numbers. -/
theorem witness_RegisterNumbers :
    (loaded [65]).busy = false ∧ (12 ≤ 12 ∧ 12 ≤ 15 ∧ 15 ≤ 15) ∧
    ((1 ≤ 15 ∧ 1 ≠ 0 ∧ 1 ≠ 2 ∧ 1 ≠ 4) ∧ (3 ≤ 15 ∧ 3 ≠ 0 ∧ 3 ≠ 2 ∧ 3 ≠ 4)) ∧ 15 < 16 ∧
    (16#264).toNat ≤ (loaded [65]).cap.inMax ∧ (4080#264).toNat ≤ (loaded [65]).cap.bsMax := by decide +kernel

/-- Hypotheses of HostAccesses: the last index of each space, written and unwritten elements, elements within and beyond
the lengths, the least index and value outside. At the end of a command: the first element beyond BS_LEN, and the last. -/
theorem witness_HostAccesses :
    let s : State := { State.resetWith cap with
      inBuf := [(15, 7)], outBuf := [(0, 9), (1, 8)], outLen := 1, bsBuf := [(0, true), (1, true)], bsLen := 1 }
    s.busy = false ∧ (15 < s.cap.inMax ∧ bufRead s.inBuf 15 = some 7 ∧ bufRead s.inBuf 14 = none) ∧
    (0 < s.cap.outMax ∧ 0 < s.outLen ∧ bufRead s.outBuf 0 = some 9 ∧ s.outLen ≤ 1) ∧
    (0 < s.cap.bsMax ∧ 0 < s.bsLen ∧ bufRead (heldBits s.bsBuf s.bsStale) 0 = some true ∧ s.bsLen ≤ 1) ∧
    ((16#264).toNat ≤ s.cap.inMax ∧ s.cap.inMax < (17#264).toNat) ∧
    ((4080#264).toNat ≤ s.cap.bsMax ∧ s.cap.bsMax < (4081#264).toNat) ∧
    (s.cap.inMax ≤ 16 ∧ 4079 < s.cap.outMax ∧ s.cap.outMax ≤ 4080 ∧ s.cap.bsMax ≤ 4080 ∧ 255 < 256 ∧ 510 < 511) ∧
    ((completeCommand s).bsLen ≤ 1 ∧ 1 < 2 ∧ 4080 ≤ (completeCommand s).cap.bsMax ∧
      bufRead (completeCommand s).bsBuf 1 = some true ∧ 0 < (completeCommand s).bsLen) := by
  decide +kernel

/-- Hypotheses of ReadsHaveNoSideEffects: a read of each kind answers. -/
theorem witness_ReadsHaveNoSideEffects :
    (∃ t, performRead (loaded [65]) .input 0 = .next t) ∧ (∃ t, performRead (loaded [65]) .output 0 = .next t) ∧
    (∃ t, performRead (loaded [65]) .bits 0 = .next t) := ⟨⟨_, rfl⟩, ⟨_, rfl⟩, ⟨_, rfl⟩⟩

/-- Hypotheses of MemReadAndMemWrite: a buffer in canonical form. -/
theorem witness_MemReadAndMemWrite : bufWf [(3, 1#8), (4, 2#8)] = true ∧ bufWf [(0, true)] = true ∧
    memRead [(3, 1#8), (4, 2#8)] 3 2 = some [1, 2] := by decide

/-- Hypotheses of RecordLayouts: the longest code, the greatest weight of a width. -/
theorem witness_RecordLayouts :
    (List.replicate 255 true).length ≤ 255 ∧ (leafNode 65 15).weight < 2 ^ 4 :=
  ⟨by rw [List.length_replicate], by decide⟩

/-- Hypotheses of ResetInput: a pending reset, idle and busy. -/
theorem witness_ResetInput :
    ({ loaded [65] with script := [.reset] } : State).script = .reset :: [] ∧
    ({ loaded [65] with script := [.reset] } : State).phase = .idle ∧
    (startEncoder .compress { loaded [65] with script := [.reset] }).script = .reset :: [] ∧
    (startEncoder .compress { loaded [65] with script := [.reset] }).phase ≠ .idle := ⟨rfl, rfl, rfl, by decide⟩

/-- Hypotheses of LoadScripts: the longest input and a bitstream of this block, a table. -/
theorem witness_LoadScripts :
    (State.resetWith cap).busy = false ∧ (State.resetWith cap).phase = .idle ∧
    Memory.wf (State.resetWith cap) = true ∧ (List.replicate 16 (7#8)).length ≤ (State.resetWith cap).cap.inMax ∧
    (State.resetWith cap).cap.inMax < 2 ^ 32 ∧ [true, false].length ≤ (State.resetWith cap).cap.bsMax ∧
    (State.resetWith cap).cap.bsMax < 2 ^ 32 ∧
    ({ State.resetWith cap with script := scriptLoadCt [(65, [true])] } : State).script =
      scriptLoadCt [(65, [true])] ++ [] :=
  ⟨rfl, rfl, rfl, by decide, by decide, by decide, by decide, by simp⟩

/-- A started ENCODE of two symbols. -/
def encoding : State := startEncoder .encode (loaded [65, 66])

/-- A started COMPRESS of two symbols. -/
def compressing : State := startEncoder .compress (loaded [65, 66])

/-- Hypotheses of CountPhase. -/
theorem witness_CountPhase :
    encoding.phase = .count ∧ inputBytes encoding = some [65, 66] ∧ ∀ sym, encoding.freq.at sym = 0 :=
  ⟨rfl, by decide +kernel, fun sym => FreqFile.at_zero sym⟩

/-- Hypotheses of LeavesPhase, with two symbols present and with none. -/
theorem witness_LeavesPhase :
    let s := { encoding with freq := freqOf [65, 66], phase := .leaves }
    let s' := { encoding with phase := .leaves }
    (s.phase = .leaves ∧ s.forest = Forest.empty ∧ presentSymbols s.freq = [65, 66]) ∧
    s'.phase = .leaves ∧ s'.forest = Forest.empty ∧ presentSymbols s'.freq = [] :=
  ⟨⟨rfl, rfl, by decide +kernel⟩, rfl, rfl, by decide +kernel⟩

/-- Hypotheses of MergeStepJoinsTheTwoLeast, with two and with three live nodes, and of MergeRunsKMinusOneTimes. -/
theorem witness_MergeStep :
    let s : State := { State.resetWith cap with phase := .merge, pq := [0, 1], nnodes := 2 }
    let s3 : State := { State.resetWith cap with phase := .merge, pq := [0, 1, 509], nnodes := 510 }
    let s1 : State := { State.resetWith cap with phase := .merge, pq := [0], nnodes := 1 }
    (s.phase = .merge ∧ s.pq.Pairwise (· < ·) ∧ (∀ j ∈ s.pq, j.val < s.nnodes) ∧ 1 < s.pq.length ∧ s.nnodes < 511) ∧
    (s3.phase = .merge ∧ s3.pq.Pairwise (· < ·) ∧ (∀ j ∈ s3.pq, j.val < s3.nnodes) ∧ 1 < s3.pq.length ∧
      s3.nnodes < 511) ∧
    s1.phase = .merge ∧ s1.pq = [0] := by decide +kernel

/-- Hypotheses of DerivePhase: the state that holds the tree of [65, 66]. -/
theorem witness_DerivePhase :
    ∃ s : State, s.phase = .derive ∧ ([65, 66] : List Byte) ≠ [] ∧ treeOf (freqOf [65, 66]) = .ok s.forest ∧
      s.pq = [s.root] ∧ s.ct = CodeTable.zero := by
  obtain ⟨t, root, ht, hr, _⟩ := treeOf_input (bytes := [65, 66]) (by decide)
  exact ⟨{ State.resetWith cap with phase := .derive, node := t.node, pq := t.pq, nnodes := t.nnodes, root := root },
    rfl, by decide, ht, hr, rfl⟩

/-- Hypotheses of EmitPhase, in ENCODE and in COMPRESS. -/
theorem witness_EmitPhase :
    let s := { encoding with phase := .emit, ct := table2 }
    s.phase = .emit ∧ inputBytes s = some [65, 66] ∧ (∀ b ∈ ([65, 66] : List Byte), (s.ct.at b).v = true) ∧
      s.bsLen = 0 ∧ s.running ≠ some .compress ∧ compressing.running = some .compress := by decide +kernel

/-- Hypotheses of PadLzcPhase and PackPhase. -/
theorem witness_packer_phases :
    let s := { loadedBits [false, true] table2 with phase := .padlzc }
    let s' := { loadedBits [false, true] table2 with phase := .pack, pad := 6, lzc := 255 }
    (s.phase = .padlzc ∧ bitstream s = some [false, true]) ∧
    s'.phase = .pack ∧ bitstream s' = some [false, true] ∧
      s'.pad = (if s'.bsLen % 8 = 0 then 0 else 8 - s'.bsLen % 8) ∧ s'.lzc ≤ 255 := by
  decide +kernel

/-- PadLzcPhase where the leading-zero count is 255 and where it is 256 (R164). -/
theorem witness_lzc_boundary :
    leadingZeros (padBits (List.replicate 255 false ++ [true])) = 255 ∧
    leadingZeros (padBits (List.replicate 256 false ++ [true])) = 256 := by decide +kernel

/-- Hypotheses of NoAllZeroBitstream, CodeLengthsMonotone, RoundTripContainer: an input of two symbols with different
counts, compressed. -/
theorem witness_encodings :
    (match compressBytes [65, 66, 65] with | some (.ok (out, _)) => out == [5, 0, 0xA0] | _ => false) = true ∧
    symbolCount [65] = 1 ∧ symbolCount [65, 66, 65] = 2 ∧
    ([65, 66, 65] : List Byte).count 66 < ([65, 66, 65] : List Byte).count 65 ∧
    0 < ([65, 66, 65] : List Byte).count 66 := by
  decide +kernel

/-- Every non-empty input has a table and an encoding, as those statements suppose. -/
theorem witness_tables : ∃ tbl, tableOf [65, 66, 65] = some (.ok tbl) := by
  obtain ⟨_, _, leaves, _, _, _, h, _⟩ := tableOf_input (bytes := [65, 66, 65]) (by decide)
  exact ⟨_, h⟩

/-- Hypotheses of the statements on a non-empty input, and of SameCountsSameTable. -/
theorem witness_inputs :
    ([65] : List Byte) ≠ [] ∧ 2 ≤ symbolCount [65, 66] ∧ (∀ sym : Byte, [65#8, 66].count sym = [66#8, 65].count sym) ∧
    [65#8, 66].Perm [66, 65] :=
  ⟨by decide, by decide +kernel, fun sym => (List.Perm.swap _ _ _).count_eq sym, List.Perm.swap _ _ _⟩

/-- Hypotheses of EmptyInputFails, CompressRuns, EncodeRuns, SingleSymbolInput: idle blocks with inputs of 0, 1 and 2
symbols. -/
theorem witness_encoder_runs :
    ((loaded []).busy = false ∧ inputBytes (loaded []) = some [] ∧ (loaded []).inLen = 0) ∧
    ((loaded [65]).busy = false ∧ inputBytes (loaded [65]) = some (List.replicate 1 65) ∧ 0 < 1) ∧
    ((loaded [65, 66]).busy = false ∧ inputBytes (loaded [65, 66]) = some [65, 66]) := by decide +kernel

/-- Hypotheses of HeaderPhase: too short a container, and pad counts 7 and 8. -/
theorem witness_HeaderPhase :
    ((startDecompress (loaded [1])).phase = .header ∧ inputBytes (startDecompress (loaded [1])) = some [1] ∧
      (startDecompress (loaded [1])).inLen < 2) ∧
    inputBytes (startDecompress (loaded [7, 8, 9])) = some (7 :: 8 :: [9]) ∧
    inputBytes (startDecompress (loaded [8, 8])) = some (8 :: 8 :: []) ∧ ¬ 7 < (7#8).toNat ∧ 7 < (8#8).toNat := by
  decide +kernel

/-- Hypotheses of UnpackPhase. -/
theorem witness_UnpackPhase :
    let s := { startDecompress (loaded [3, 2]) with phase := .unpack, pad := 3, lzc := 2 }
    s.phase = .unpack ∧ inputBytes s = some (3 :: 2 :: []) := by decide +kernel

/-- Hypotheses of UnpackInvertsPack: a packing that succeeds and one that does not. -/
theorem witness_UnpackInvertsPack :
    packBits [false] = .ok [7, 8, 0] ∧ 255 < leadingZeros (padBits (List.replicate 249 false)) := ⟨rfl, by decide +kernel⟩

theorem table2_codes : ∀ s : Byte, (table2.at s).v = true → s = 65 ∨ s = 66 := by
  intro s h
  by_cases h1 : (65 : Byte) = s
  · exact .inl h1.symm
  · by_cases h2 : (66 : Byte) = s
    · exact .inr h2.symm
    · rw [table2, CodeTable.at_put, if_neg h2, CodeTable.at_put, if_neg h1, CodeTable.at_zero] at h
      cases h

/-- Hypotheses of InvertPhase: a table without and one with a duplicate. -/
theorem witness_InvertPhase :
    (startDecode (loadedBits [true, false] table2)).phase = .invert ∧
    (∀ a b : Byte, (table2.at a).v = true → (table2.at b).v = true → codeBits (table2.at a) = codeBits (table2.at b) →
      a = b) ∧
    (∃ a b : Byte, a ≠ b ∧ ((table2.put 66 (entryOfCode [false])).at a).v = true ∧
      ((table2.put 66 (entryOfCode [false])).at b).v = true ∧
      codeBits ((table2.put 66 (entryOfCode [false])).at a) = codeBits ((table2.put 66 (entryOfCode [false])).at b)) := by
  refine ⟨rfl, fun a b ha hb h => ?_, 65, 66, by decide +kernel⟩
  rcases table2_codes a ha with rfl | rfl <;> rcases table2_codes b hb with rfl | rfl <;> first | rfl | skip
  all_goals exact absurd h (by decide +kernel)

/-- Hypotheses of ScanPhase; the table is witness_InvertPhase's. -/
theorem witness_ScanPhase :
    let s := { startDecode (loadedBits [true, false] table2) with phase := .scan }
    s.phase = .scan ∧ s.cand = [] ∧ s.outLen = 0 ∧ bitstream s = some [true, false] :=
  ⟨rfl, rfl, rfl, by decide +kernel⟩

/-- Hypotheses of ScanDecodesConcatenation. -/
theorem witness_ScanDecodesConcatenation :
    table2.PrefixFree ∧ ∀ b ∈ ([66, 65] : List Byte), (table2.at b).v = true ∧ codeBits (table2.at b) ≠ [] := by
  refine ⟨fun s t hs ht hne => ?_, by decide +kernel⟩
  rcases table2_codes s hs with rfl | rfl <;> rcases table2_codes t ht with rfl | rfl
  · exact absurd rfl hne
  · decide +kernel
  · decide +kernel
  · exact absurd rfl hne

/-- Hypotheses of NothingMatches: the empty table, the shortest candidate that is too long. -/
theorem witness_NothingMatches :
    (∀ s : Byte, (CodeTable.zero.at s).v = false) ∧ 256 ≤ (List.replicate 256 true).length :=
  ⟨fun s => by rw [CodeTable.at_zero]; rfl, by rw [List.length_replicate]⟩

/-- Hypotheses of DecompressRuns and DecodeRuns: each outcome of the header, the unpacker and the decoder. -/
theorem witness_decoder_runs :
    ((loaded [7]).busy = false ∧ inputBytes (loaded [7]) = some [7]) ∧
    inputBytes (loaded [8, 0]) = some (8 :: 0 :: []) ∧ unpackBits [3, 2] = .error .containerFormat ∧
    unpackBits [6, 0, 0x80] = .ok [true, false] ∧ decodeBits [true, false] table2 = .ok [66] ∧
    decodeBits [true] table2 = .error .incompleteCode ∧
    decodeBits [] (table2.put 66 (entryOfCode [false])) = .error .duplicateCode ∧
    bitstream (loadedBits [true, false] table2) = some [true, false] := by
  refine ⟨by decide +kernel, by decide +kernel, rfl, rfl, rfl, rfl, rfl, by decide +kernel⟩

/-- Hypotheses of RunReachesCompletion: a host that runs ENCODE, and one that runs DECODE. -/
theorem witness_RunReachesCompletion :
    (({ loaded [65] with script := scriptRun .encode } : State).phase = .idle ∧
      ({ loaded [65] with script := scriptRun .encode } : State).script = scriptRun .encode ++ [] ∧
      (inputBytes (loaded [65])).isSome = true) ∧
    ({ loadedBits [true] table2 with script := scriptRun .decode ++ [.readOut] } : State).script =
      scriptRun .decode ++ [.readOut] ∧
    (bitstream (loadedBits [true] table2)).isSome = true :=
  ⟨⟨rfl, rfl, by decide +kernel⟩, rfl, by decide +kernel⟩

/-- Hypotheses of PackingInvariant and BlockRoundTrip: finished runs of COMPRESS and ENCODE without error or DEGEN, and a
block that holds the container and the table. -/
theorem witness_BlockRoundTrip :
    get (runCommand compressing) (fun t => (statusWord t, memRead t.outBuf 0 t.outLen)) =
      some (0x002#32, some [6, 1, 0x40]) ∧
    inputBytes (loaded [6, 1, 0x40]) = some [6, 1, 0x40] := by decide +kernel

/-- Hypotheses of ResultDependsOnInputsAlone: two blocks with one input and different histories, both runs finished. -/
theorem witness_ResultDependsOnInputsAlone :
    let s := loaded []
    let s' := { loaded [] with outBuf := [(5, 1)], outLen := 6, pad := 3, nsym := 9, done := true }
    inputBytes s = inputBytes s' ∧ s.busy = false ∧ s'.busy = false ∧ s.outLen ≠ s'.outLen ∧
    (after (runCommand (startEncoder .compress s))).isSome = true ∧
    (after (runCommand (startEncoder .compress s'))).isSome = true ∧
    (after (runCommand (startDecode (loadedBits [] table2)))).isSome = true := by decide +kernel

end Sys2Proof.Tests
end

section
/-!
Proofs of the statements of 10_state.md: what one step of the block can do is said once (`step_cases`), and the invariant
`State.Good` and the frame of IN and IN_LEN are derived from it; then the reset state, the STATUS word and the scalar
registers.
-/

namespace Sys2Proof.Machine

section StateLaws

variable {s t : State}

/-! ### What a step can do -/

/-- The host performs its next statement in `s` and leaves `t`; polling and the count of free values may have moved on
before it (log 7). -/
def HostActs (s t : State) : Prop :=
  ∃ st rest pl tk, s.script = st :: rest ∧ perform st (s.withHost rest s.reads pl tk) = .next t

/-- The sequencer runs its phase in `s` and leaves `t`; polling and the count of free values may have moved on before it
(log 7). -/
def PhaseRuns (s t : State) : Prop :=
  ∃ pl tk, phaseStep (s.withHost s.script s.reads pl tk) = .next t

/-- The host's turn that answers a next state: it waits with nothing to do, or performs its next statement. -/
theorem hostTurn_cases (h : hostTurn s = .next t) : (s.script = [] ∧ t = s) ∨ HostActs s t := by
  unfold hostTurn at h
  split at h
  next hs => cases h; exact .inl ⟨hs, rfl⟩
  next st rest hs => exact .inr ⟨st, rest, s.pollsLeft, s.tick, hs, h⟩

/-- A host with a statement left performs it on its turn. -/
theorem hostTurn_acts {pl : Option Nat} {tk : Nat} (hs : s.script ≠ [])
    (h : hostTurn (s.withHost s.script s.reads pl tk) = .next t) : HostActs s t := by
  rcases hostTurn_cases h with ⟨hnil, _⟩ | ⟨st, rest, pl', tk', hst, hp⟩
  · exact absurd hnil hs
  · exact ⟨st, rest, pl', tk', hst, hp⟩

theorem eitherTurn_cases (hs : s.script ≠ []) (h : eitherTurn s = .next t) : HostActs s t ∨ PhaseRuns s t := by
  unfold eitherTurn at h
  simp only at h
  split at h
  · exact .inl (hostTurn_acts (pl := s.pollsLeft) (tk := s.tick + 1) hs h)
  · exact .inr ⟨s.pollsLeft, s.tick + 1, h⟩

theorem pollTurn_cases (hs : s.script ≠ []) (h : pollTurn s = .next t) : HostActs s t ∨ PhaseRuns s t := by
  unfold pollTurn at h
  split at h
  next => exact .inr ⟨none, s.tick + 1, h⟩
  next left _ => exact .inl (hostTurn_acts (pl := some left) (tk := s.tick + 1) hs h)

theorem busyTurn_cases (h : busyTurn s = .next t) : HostActs s t ∨ PhaseRuns s t := by
  unfold busyTurn at h
  split at h
  next => exact .inr ⟨s.pollsLeft, s.tick, h⟩
  next hs => exact pollTurn_cases (by simp [hs]) h
  next hs => exact eitherTurn_cases (by simp [hs]) h
  next hs => exact eitherTurn_cases (by simp [hs]) h
  next => cases h

/-- A step that answers a next state leaves the block waiting, performs the host's next statement, or runs a phase
(00_scope.md R6). -/
theorem step_cases (h : step s = .next t) : t = s ∨ HostActs s t ∨ PhaseRuns s t := by
  unfold step blockStep at h
  split at h
  · exact (hostTurn_cases h).imp And.right .inl
  · exact .inr (busyTurn_cases h)

/-! ### What a host statement can do -/

/-- A read changes only the host's side of the state, also with statements put in front of the script after it. -/
theorem performRead_host {sp : Space} {idx : Nat} (h : performRead s sp idx = .next t) (sc : List Statement) :
    ∃ rd tk, { t with script := sc } = s.withHost sc rd s.pollsLeft tk := by
  rcases performRead_cases s sp idx with ⟨r, he⟩ | ⟨v, tk, he⟩ <;> rw [he] at h <;> cases h
  exact ⟨s.reads ++ [v], tk, rfl⟩

/-- A statement performed that answers a next state: a read, of whatever kind, changes the host's side alone; the others
are a write and the reset. -/
theorem perform_cases {st : Statement} (h : perform st s = .next t) :
    (∃ sc rd tk, t = s.withHost sc rd s.pollsLeft tk) ∨
      (∃ sp idx v, st = .write sp idx v ∧ hostWrite s sp idx v = .next t) ∨
      (st = .reset ∧ t = applyReset s) := by
  cases st with
  | read sp idx => exact .inl ⟨t.script, performRead_host h t.script⟩
  | write sp idx v => exact .inr (.inl ⟨sp, idx, v, rfl, h⟩)
  | poll =>
    simp only [perform, performPoll] at h
    split at h <;> cases h
    next u hu =>
      split
      · exact .inl ⟨u.script, performRead_host hu u.script⟩
      · exact .inl ⟨_, performRead_host hu (.poll :: u.script)⟩
  | readOut =>
    simp only [perform] at h
    split at h <;> cases h
    next u hu => exact .inl ⟨_, performRead_host hu (rdbOut u.outLen ++ u.script)⟩
  | readBs =>
    simp only [perform] at h
    split at h <;> cases h
    next u hu => exact .inl ⟨_, performRead_host hu (rdbitBs u.bsLen ++ u.script)⟩
  | reset => cases h; exact .inr (.inr ⟨rfl, rfl⟩)

/-- A write that answers a next state: the command its word spells, or an element written with BUSY = 0 (R114). -/
theorem hostWrite_cases {sp : Space} {idx : Nat} {v : PortWord} (h : hostWrite s sp idx v = .next t) :
    (sp = .reg ∧ idx = 0 ∧ exec (Sys2Proof.decode (commandWord v)) s = .next t) ∨
      (s.busy = false ∧ writeElement s sp idx v = .next t) := by
  unfold hostWrite at h
  split at h
  next hc => exact .inl ⟨hc.1, hc.2, h⟩
  next =>
    split at h
    next => cases h
    next hb => exact .inr ⟨by simpa using hb, h⟩

/-! ### Every step keeps `State.Good` -/

theorem State.Good.withHost (h : s.Good) (sc : List Statement) (rd : List PortWord) (pl : Option Nat) (tk : Nat) :
    (s.withHost sc rd pl tk).Good := h.of_host sc rd tk pl

/-- A good state whose sequencer takes a step answers a good state, or refuses an element never written. -/
theorem phaseStep_goodAnswer (h : s.Good) : GoodAnswer (phaseStep s) := by
  unfold phaseStep
  cases hp : s.phase
  case idle => exact .ok rfl h
  case count => exact phaseCount_goodAnswer h hp
  case leaves => exact phaseLeaves_goodAnswer h hp
  case merge => exact phaseMerge_goodAnswer h hp
  case derive => exact phaseDerive_goodAnswer h hp
  case emit => exact phaseEmit_goodAnswer h hp
  case padlzc => exact phasePadlzc_goodAnswer h hp
  case pack => exact phasePack_goodAnswer h hp
  case header => exact phaseHeader_goodAnswer h hp
  case unpack => exact phaseUnpack_goodAnswer h hp
  case invert => exact phaseInvert_goodAnswer h hp
  case scan => exact phaseScan_goodAnswer h hp

theorem GoodAnswer.next_good {r : Result} (h : GoodAnswer r) (hr : r = .next t) : t.Good := by
  rcases h with ⟨u, hu, hg⟩ | hu <;> rw [hr] at hu <;> cases hu
  exact hg

/-- A host write in a good state leaves a good state: an element is written only while BUSY = 0, so with PHASE = IDLE. -/
theorem hostWrite_good (h : s.Good) {sp : Space} {idx : Nat} {v : PortWord} (hw : hostWrite s sp idx v = .next t) :
    t.Good := by
  rcases hostWrite_cases hw with ⟨_, _, he⟩ | ⟨hb, he⟩
  · exact exec_good h _ t he
  · exact writeElement_good h (h.status.busy_idle.1 hb) sp idx v t he

/-- Every host statement keeps the invariant. -/
theorem perform_good (h : s.Good) {st : Statement} (hp : perform st s = .next t) : t.Good := by
  rcases perform_cases hp with ⟨sc, rd, tk, rfl⟩ | ⟨sp, idx, v, _, hw⟩ | ⟨_, rfl⟩
  · exact h.withHost sc rd _ tk
  · exact hostWrite_good h hw
  · exact applyReset_good h

/-! ### Only the host writes IN and IN_LEN -/

/-- The capacities, IN and IN_LEN are the same in both states. -/
structure State.SameInput (s t : State) : Prop where
  cap : t.cap = s.cap
  inBuf : t.inBuf = s.inBuf
  inLen : t.inLen = s.inLen

/-- An answer that, if it is a next state, has the capacities, IN and IN_LEN of `s`. -/
def KeepsInput (s : State) (r : Result) : Prop := ∀ t, r = .next t → s.SameInput t

theorem KeepsInput.next {r : Result} (h : r = .next t) (hcap : t.cap = s.cap) (hbuf : t.inBuf = s.inBuf)
    (hlen : t.inLen = s.inLen) : KeepsInput s r := by
  intro u hu
  rw [h] at hu
  cases hu
  exact ⟨hcap, hbuf, hlen⟩

theorem KeepsInput.fault {r : Result} {e : Fault} (h : r = .fault e) : KeepsInput s r := by
  intro u hu
  rw [h] at hu
  cases hu

theorem KeepsInput.refused {r : Result} {e : Refusal} (h : r = .refused e) : KeepsInput s r := by
  intro u hu
  rw [h] at hu
  cases hu

/-- Raising an error in a state with the same input keeps the input (60_exceptions.md R240). -/
theorem KeepsInput.raised {r : Result} {c : Option Command} {e : CodecError} {u : State}
    (h : r = .next (raiseError c e u)) (hu : s.SameInput u) : KeepsInput s r :=
  .next h (by simpa using hu.cap) (by simpa using hu.inBuf) (by simpa using hu.inLen)

/-- MERGE (R133, R134), all of it. -/
theorem phaseMerge_cases (s : State) :
    (∃ e, phaseMerge s = .fault e) ∨
      ∃ u root total ph, phaseMerge s = .next { s.setForest u with root := root, total := total, phase := ph } := by
  unfold phaseMerge
  cases mergeIfMany s.forest with
  | error e => exact .inl ⟨e, rfl⟩
  | ok u =>
    simp only
    split
    · exact .inl ⟨_, rfl⟩
    next r _ => exact .inr ⟨u, r, (u.node.at r).weight, .derive, rfl⟩
    · exact .inr ⟨u, s.root, s.total, .merge, rfl⟩

/-- No phase writes IN, IN_LEN or the capacities (10_state.md R21, R26). -/
theorem phaseStep_keepsInput (s : State) : KeepsInput s (phaseStep s) := by
  unfold phaseStep
  cases s.phase
  case idle => exact .next rfl rfl rfl rfl
  case count =>
    rcases phaseCount_cases s with ⟨_, he⟩ | ⟨_, _, he⟩
    · exact .refused he
    · exact .next he rfl rfl rfl
  case leaves =>
    rcases phaseLeaves_cases s with ⟨_, _, he⟩ | ⟨_, _, ⟨_, he⟩ | ⟨_, he⟩⟩
    · exact .fault he
    · exact .raised he ⟨rfl, rfl, rfl⟩
    · exact .next he rfl rfl rfl
  case merge =>
    rcases phaseMerge_cases s with ⟨_, he⟩ | ⟨_, _, _, _, he⟩
    · exact .fault he
    · exact .next he rfl rfl rfl
  case derive =>
    rcases phaseDerive_cases s with ⟨_, he⟩ | ⟨_, _, he⟩
    · exact .fault he
    · exact .next he rfl rfl rfl
  case emit =>
    rcases phaseEmit_cases s with ⟨_, he⟩ | ⟨_, _, _, he⟩ | ⟨_, _, _, _, he⟩
    · exact .refused he
    · exact .fault he
    · unfold afterEmit at he
      split at he <;> exact .next he rfl rfl rfl
  case padlzc =>
    rcases phasePadlzc_cases s with ⟨_, he⟩ | ⟨_, _, ⟨_, he⟩ | ⟨_, he⟩⟩
    · exact .refused he
    · exact .raised he ⟨rfl, rfl, rfl⟩
    · exact .next he rfl rfl rfl
  case pack =>
    rcases phasePack_cases s with ⟨_, he⟩ | ⟨_, _, he⟩
    · exact .refused he
    · exact .next he rfl rfl rfl
  case header =>
    rcases phaseHeader_cases s with ⟨_, he⟩ | ⟨_, _, _, he⟩ | ⟨_, _, _, _, ⟨_, he⟩ | ⟨_, he⟩⟩
    · exact .refused he
    · exact .raised he ⟨rfl, rfl, rfl⟩
    · exact .raised he ⟨rfl, rfl, rfl⟩
    · exact .next he rfl rfl rfl
  case unpack =>
    rcases phaseUnpack_cases s with ⟨_, he⟩ | ⟨_, _, ⟨_, he⟩ | ⟨_, _, he⟩⟩
    · exact .refused he
    · exact .raised he ⟨rfl, rfl, rfl⟩
    · exact .next he rfl rfl rfl
  case invert =>
    rcases phaseInvert_cases s with ⟨_, he⟩ | ⟨_, he⟩
    · exact .raised he ⟨rfl, rfl, rfl⟩
    · exact .next he rfl rfl rfl
  case scan =>
    rcases phaseScan_cases s with ⟨_, he⟩ | ⟨_, _, ⟨_, he⟩ | ⟨_, he⟩⟩
    · exact .refused he
    · exact .next he rfl rfl rfl
    · exact .raised he ⟨rfl, rfl, rfl⟩

/-- An accepted command that keeps the input. -/
theorem acceptCommand_keepsInput {next : State} (h : s.SameInput next) : KeepsInput s (acceptCommand s next) := by
  rcases acceptCommand_cases s next with ⟨_, he⟩ | ⟨_, he⟩
  · exact .refused he
  · exact .next he h.cap h.inBuf h.inLen

/-- No command word but CLEAR writes IN, IN_LEN or the capacities; CLEAR writes IN_LEN (40_commands.md R109). -/
theorem exec_keepsInput {i : Instr} (hi : i ≠ .clear) (s : State) : KeepsInput s (exec i s) := by
  cases i
  case clear => exact absurd rfl hi
  all_goals exact acceptCommand_keepsInput ⟨rfl, rfl, rfl⟩

theorem exec_clear_input (h : exec .clear s = .next t) : t.cap = s.cap ∧ t.inBuf = s.inBuf := by
  rcases acceptCommand_cases s (clearState s) with ⟨_, he⟩ | ⟨_, he⟩ <;>
    rw [show exec .clear s = acceptCommand s (clearState s) from rfl, he] at h <;> cases h
  exact ⟨rfl, rfl⟩

/-- What the host's write of an element or a register does to the input (R114): IN changes by a write to IN alone, IN_LEN
by a write to register 2 alone. -/
theorem writeElement_input {sp : Space} {idx : Nat} {v : PortWord} (h : writeElement s sp idx v = .next t) :
    t.cap = s.cap ∧ (t.inBuf = s.inBuf ∨ sp = .input) ∧ (t.inLen = s.inLen ∨ (sp = .reg ∧ idx = 2)) := by
  cases sp
  case reg =>
    simp only [writeElement, writeReg] at h
    by_cases h2 : idx = 2
    · rw [if_pos h2] at h
      split at h <;> cases h
      exact ⟨rfl, .inl rfl, .inr ⟨rfl, h2⟩⟩
    · rw [if_neg h2] at h
      split at h <;> split at h <;> cases h
      all_goals exact ⟨rfl, .inl rfl, .inl rfl⟩
  case input =>
    simp only [writeElement] at h
    split at h <;> cases h
    exact ⟨rfl, .inr rfl, .inl rfl⟩
  case reserved => cases h
  all_goals
    simp only [writeElement] at h
    split at h <;> cases h
    exact ⟨rfl, .inl rfl, .inl rfl⟩

/-- What a host statement does to the input: IN changes by a write to IN or the reset, IN_LEN by a write to IN_LEN, by
CLEAR or by the reset, the capacities never. -/
theorem perform_input {st : Statement} (h : perform st s = .next t) :
    t.cap = s.cap ∧
      (t.inBuf = s.inBuf ∨ (∃ idx v, st = .write .input idx v) ∨ st = .reset) ∧
      (t.inLen = s.inLen ∨ (∃ v, st = .write .reg 2 v) ∨
        (∃ v, st = .write .reg 0 v ∧ Sys2Proof.decode (commandWord v) = .clear) ∨ st = .reset) := by
  rcases perform_cases h with ⟨sc, rd, tk, rfl⟩ | ⟨sp, idx, v, rfl, hw⟩ | ⟨rfl, rfl⟩
  · exact ⟨rfl, .inl rfl, .inl rfl⟩
  · rcases hostWrite_cases hw with ⟨rfl, rfl, he⟩ | ⟨_, he⟩
    · by_cases hi : Sys2Proof.decode (commandWord v) = .clear
      · rw [hi] at he
        obtain ⟨hcap, hbuf⟩ := exec_clear_input he
        exact ⟨hcap, .inl hbuf, .inr (.inr (.inl ⟨v, rfl, hi⟩))⟩
      · obtain ⟨hcap, hbuf, hlen⟩ := exec_keepsInput hi s t he
        exact ⟨hcap, .inl hbuf, .inl hlen⟩
    · obtain ⟨hcap, hbuf, hlen⟩ := writeElement_input he
      refine ⟨hcap, hbuf.imp_right ?_, hlen.imp_right ?_⟩
      · rintro rfl
        exact .inl ⟨idx, v, rfl⟩
      · rintro ⟨rfl, rfl⟩
        exact .inl ⟨v, rfl⟩
  · exact ⟨rfl, .inr (.inr rfl), .inr (.inr (.inr rfl))⟩

/-! ### The STATUS word (10_state.md R25, R36, R37) -/

theorem statusWord_err (s : State) : (statusWord s).getLsbD 2 = s.err := by
  simp only [statusWord, BitVec.getLsbD_append, BitVec.getLsbD_ofBool]; simp

theorem statusWord_degen (s : State) : (statusWord s).getLsbD 3 = s.degen := by
  simp only [statusWord, BitVec.getLsbD_append, BitVec.getLsbD_ofBool]; simp

theorem statusWord_ecode (s : State) : (statusWord s).extractLsb' 4 4 = ecodeField s.ecode := by
  simp only [statusWord, BitVec.extractLsb'_append_eq_ite]; simp

theorem statusWord_phase (s : State) : (statusWord s).extractLsb' 8 4 = s.phase.code := by
  simp only [statusWord, BitVec.extractLsb'_append_eq_ite]; simp

/-- Bits 31:12 of STATUS read 0 (R25). -/
theorem statusWord_high (s : State) : (statusWord s).extractLsb' 12 20 = 0 := by
  simp only [statusWord, BitVec.extractLsb'_append_eq_ite]; simp

@[simp] theorem statusWord_resetWith (cap : Capacity) : statusWord (State.resetWith cap) = 0 := by
  simp [statusWord, Phase.code, ecodeField]

theorem ecodeField_le (e : Option CodecError) : (ecodeField e).toNat ≤ 6 := by
  cases e with
  | none => decide
  | some e => cases e <;> decide

theorem phaseCode_le (p : Phase) : p.code.toNat ≤ 11 := by cases p <;> decide

/-! ### The scalar registers by number (10_state.md R45) -/

theorem hostRead_of_notBusy (hb : s.busy = false) (sp : Space) (idx : Nat) :
    hostRead s sp idx = readElement s sp idx := by
  simp [hostRead, hb]

theorem hostWrite_of_notBusy (hb : s.busy = false) {sp : Space} {idx : Nat} (hc : ¬ (sp = .reg ∧ idx = 0))
    (v : PortWord) : hostWrite s sp idx v = writeElement s sp idx v := by
  simp [hostWrite, hc, hb]

theorem readReg_reserved (s : State) {n : Nat} (h12 : 12 ≤ n) (h15 : n ≤ 15) : readReg s n = some 0 := by
  obtain rfl | rfl | rfl | rfl : n = 12 ∨ n = 13 ∨ n = 14 ∨ n = 15 := by omega
  all_goals rfl

theorem readReg_above (s : State) {n : Nat} (h : 15 < n) : readReg s n = none := by
  obtain ⟨k, rfl⟩ : ∃ k, n = k + 16 := ⟨n - 16, by omega⟩
  rfl

/-- A read of a register that has a number answers its value, zero-extended. -/
theorem hostRead_reg (hb : s.busy = false) {n : Nat} {w : Word} (hn : readReg s n = some w) :
    hostRead s .reg n = .value (w.setWidth 264) := by
  rw [hostRead_of_notBusy hb, readElement, hn]

theorem hostRead_reg_zero (hb : s.busy = false) {n : Nat} (hn : readReg s n = some 0) :
    hostRead s .reg n = .value 0 := by
  simpa using hostRead_reg hb hn

theorem hostRead_reg_above (hb : s.busy = false) {n : Nat} (hn : 15 < n) :
    hostRead s .reg n = .refused .noSuchRegister := by
  rw [hostRead_of_notBusy hb, readElement, readReg_above s hn]

/-- A write to a register other than CMD. -/
theorem hostWrite_reg (hb : s.busy = false) {n : Nat} (hn : n ≠ 0) (v : PortWord) :
    hostWrite s .reg n v = writeReg s n v :=
  hostWrite_of_notBusy hb (fun hc => hn hc.2) v

theorem writeReg_inLen {v : PortWord} (hv : v.toNat ≤ s.cap.inMax) :
    writeReg s 2 v = .next { s with inLen := v.toNat } := by
  simp [writeReg, hv]

theorem writeReg_bsLen {v : PortWord} (hv : v.toNat ≤ s.cap.bsMax) :
    writeReg s 4 v = .next { s with bsLen := v.toNat } := by
  simp [writeReg, hv]

/-- A read-only or reserved register ignores the write. -/
theorem writeReg_ignored (s : State) {n : Nat} (h15 : n ≤ 15) (h2 : n ≠ 2) (h4 : n ≠ 4) (v : PortWord) :
    writeReg s n v = .next s := by
  simp [writeReg, h2, h4, show n < 16 by omega]

theorem writeReg_above (s : State) {n : Nat} (h : 15 < n) (v : PortWord) :
    writeReg s n v = .refused .noSuchRegister := by
  simp [writeReg, show n ≠ 2 by omega, show n ≠ 4 by omega, show ¬ n < 16 by omega]

end StateLaws

/-! ### The statements -/

/-- Settles O3: a step waits, performs a host statement or runs a phase, and each of these keeps the invariant. -/
theorem stepKeepsGood : Obligations.StepKeepsGood := by
  intro s t hg hstep
  rcases step_cases hstep with rfl | ⟨st, rest, pl, tk, _, hp⟩ | ⟨pl, tk, hp⟩
  · exact hg
  · exact perform_good (hg.withHost rest _ pl tk) hp
  · exact (phaseStep_goodAnswer (hg.withHost _ _ pl tk)).next_good hp

/-- Settles O6: waiting and the phases keep the input, and a host statement changes it only as `perform_input` says. -/
theorem onlyTheHostWritesInput : Obligations.OnlyTheHostWritesInput := by
  intro s t hstep
  rcases step_cases hstep with rfl | ⟨st, rest, pl, tk, hs, hp⟩ | ⟨pl, tk, hp⟩
  · exact ⟨rfl, .inl rfl, .inl rfl⟩
  · obtain ⟨hcap, hbuf, hlen⟩ := perform_input hp
    refine ⟨hcap, hbuf.imp_right ?_, hlen.imp_right ?_⟩
    · rintro (⟨idx, v, rfl⟩ | rfl)
      · exact .inl ⟨idx, v, rest, hs⟩
      · exact .inr ⟨rest, hs⟩
    · rintro (⟨v, rfl⟩ | ⟨v, rfl, hi⟩ | rfl)
      · exact .inl ⟨v, rest, hs⟩
      · exact .inr (.inl ⟨v, rest, hs, hi⟩)
      · exact .inr (.inr ⟨rest, hs⟩)
  · obtain ⟨hcap, hbuf, hlen⟩ := phaseStep_keepsInput _ t hp
    exact ⟨hcap, .inl hbuf, .inl hlen⟩

/-- Settles O1: the registers, flags and lengths of the reset state are 0 by definition; STATUS, the files and the empty
buffers read as their own laws say. -/
theorem resetState : Obligations.ResetState :=
  ⟨rfl, fun cap => ⟨State.resetWith cap, rfl, statusWord_resetWith cap, rfl, rfl, rfl, rfl, rfl, rfl, rfl, rfl, rfl,
    rfl, rfl, rfl, rfl, rfl, rfl, rfl, rfl, FreqFile.at_zero, NodeFile.at_zero, fun _ => List.not_mem_nil,
    CodeTable.at_zero, bufRead_nil, bufRead_nil, bufRead_nil⟩⟩

/-- Settles O2: the model's own capacities meet R7's constraints, and `resetWith_good` is for every such capacity. -/
theorem resetIsGood : Obligations.ResetIsGood := by
  have hcap : Config.capacity.Ok := by decide
  exact ⟨hcap, resetWith_good _ hcap, resetWith_good⟩

/-- Settles O18: the fields of the STATUS word one by one, and the two tables of codes. -/
theorem statusLayout : Obligations.StatusLayout :=
  ⟨fun s => ⟨statusWord_busy s, statusWord_done s, statusWord_err s, statusWord_degen s, statusWord_ecode s,
    statusWord_phase s, statusWord_high s, ecodeField_le s.ecode, phaseCode_le s.phase⟩, by decide, by decide⟩

/-- Settles O19: registers 0 to 11 by `hostRead_reg`, then the reserved ones, the writes and the numbers above 15. -/
theorem registerNumbers : Obligations.RegisterNumbers := by
  intro s hb
  refine ⟨hostRead_reg_zero hb rfl, hostRead_reg hb rfl, hostRead_reg hb rfl, hostRead_reg hb rfl,
    hostRead_reg hb rfl, hostRead_reg hb rfl, hostRead_reg hb rfl, hostRead_reg hb rfl, hostRead_reg hb rfl,
    hostRead_reg hb rfl, hostRead_reg hb rfl, hostRead_reg hb rfl, ?_, ?_, ?_, ?_, fun n => hostRead_reg_above hb, ?_⟩
  · exact fun n h12 h15 => hostRead_reg_zero hb (readReg_reserved s h12 h15)
  · exact fun n v h15 h0 h2 h4 => (hostWrite_reg hb h0 v).trans (writeReg_ignored s h15 h2 h4 v)
  · exact fun v hv => (hostWrite_reg hb (by decide) v).trans (writeReg_inLen hv)
  · exact fun v hv => (hostWrite_reg hb (by decide) v).trans (writeReg_bsLen hv)
  · exact fun n v hn => (hostWrite_reg hb (by omega) v).trans (writeReg_above s hn v)

end Sys2Proof.Machine
end

section
/-!
Proofs of the statements of 20_memory.md: a read moves only the host's side of the state, so every later read answers as
before; a buffer in canonical form is determined by its elements, so MemRead answers exactly the values that stand there.
-/

namespace Sys2Proof.Machine

/-! ### Reads (20_memory.md R67) -/

section Reads

variable {s t : State}

/-- What a host read answers does not depend on the host's side of the state. -/
@[simp] theorem hostRead_withHost (s : State) (sc : List Statement) (rd : List PortWord) (pl : Option Nat) (tk : Nat) :
    hostRead (s.withHost sc rd pl tk) = hostRead s := rfl

theorem sameBlock_withHost (s : State) (sc : List Statement) (rd : List PortWord) (pl : Option Nat) (tk : Nat) :
    s.sameBlock (s.withHost sc rd pl tk) := rfl

theorem packBit_eq_zero_or_one (b : Bit) : packBit b = 0 ∨ packBit b = 1 := by
  cases b with
  | false => exact .inl (BitVec.setWidth_zero _ _)
  | true => exact .inr (BitVec.setWidth_ofNat_one_eq_ofNat_one_of_lt (by decide))

/-- The value a read answering `a` returns, and the count of free values after it: the element itself, or a fresh free
byte or bit where the spec states no value (U4). -/
def ReadAnswer.Returns (a : ReadAnswer) (tick : Nat) (v : PortWord) (tick' : Nat) : Prop :=
  (a = .value v ∧ tick' = tick) ∨
  (a = .anyByte ∧ (∃ b : Byte, v = b.setWidth 264) ∧ tick' = tick + 1) ∨
  (a = .anyBit ∧ (v = 0 ∨ v = 1) ∧ tick' = tick + 1)

/-- A read that answers appends the value it returns to what the host has read. -/
theorem performRead_returns {sp : Space} {idx : Nat} (h : performRead s sp idx = .next t) :
    ∃ v tk, t = s.withHost s.script (s.reads ++ [v]) s.pollsLeft tk ∧ (hostRead s sp idx).Returns s.tick v tk := by
  unfold performRead at h
  cases ha : hostRead s sp idx with (rw [ha] at h; cases h)
  | value v => exact ⟨v, s.tick, rfl, .inl ⟨rfl, rfl⟩⟩
  | anyByte => exact ⟨_, s.tick + 1, rfl, .inr (.inl ⟨rfl, ⟨_, rfl⟩, rfl⟩)⟩
  | anyBit => exact ⟨_, s.tick + 1, rfl, .inr (.inr ⟨rfl, packBit_eq_zero_or_one _, rfl⟩)⟩

end Reads

/-! ### Buffers in canonical form (20_memory.md R77) -/

section Buffers

variable {α : Type} {b d : List (Nat × α)}

theorem bufWf_cellsFrom (i : Nat) (vs : List α) : bufWf (cellsFrom i vs) = true :=
  (bufWf_iff _).2 (cellsFrom_pairwise i vs)

/-- The cells of a canonical buffer are exactly what its elements read as. -/
theorem mem_iff_bufRead (hb : bufWf b = true) (c : Nat × α) : c ∈ b ↔ bufRead b c.1 = some c.2 := by
  rw [bufWf_iff] at hb
  induction b with
  | nil => simp
  | cons e b ih =>
    obtain ⟨hlt, hb⟩ := List.pairwise_cons.1 hb
    rw [bufRead_cons, List.mem_cons, ih hb]
    by_cases he : e.1 = c.1
    · have hnone : bufRead b c.1 ≠ some c.2 := fun hr => absurd (hlt c ((ih hb).2 hr)) (by omega)
      simp [he, hnone, Prod.ext_iff, eq_comm]
    · simp [he, show c ≠ e from fun hce => he (congrArg Prod.fst hce.symm)]

/-- Two canonical buffers with the same elements are the same. -/
theorem bufWf_ext (hb : bufWf b = true) (hd : bufWf d = true) (h : ∀ j, bufRead b j = bufRead d j) : b = d := by
  have hirrefl : Std.Irrefl (fun c e : Nat × α => c.1 < e.1) := ⟨fun c => Nat.lt_irrefl c.1⟩
  have hasymm : Std.Asymm (fun c e : Nat × α => c.1 < e.1) := ⟨fun _ _ => Nat.lt_asymm⟩
  refine List.Pairwise.eq_of_mem_iff ((bufWf_iff b).1 hb) ((bufWf_iff d).1 hd) fun c => ?_
  rw [mem_iff_bufRead hb, mem_iff_bufRead hd, h]

/-- The cells a MemRead takes from a canonical buffer, when each of its elements reads as the sequence says. -/
theorem run_eq_cellsFrom (hb : bufWf b = true) {i : Nat} {vs : List α}
    (h : ∀ k, k < vs.length → bufRead b (i + k) = vs[k]?) :
    (b.filter fun c => decide (i ≤ c.1 ∧ c.1 < i + vs.length)) = cellsFrom i vs := by
  refine bufWf_ext (bufWf_filter hb _) (bufWf_cellsFrom i vs) fun j => ?_
  rw [bufRead_filter b (fun a => decide (i ≤ a ∧ a < i + vs.length)), bufRead_cellsFrom]
  by_cases hi : i ≤ j
  · obtain ⟨k, rfl⟩ := Nat.exists_eq_add_of_le hi
    by_cases hk : k < vs.length
    · simp [hk, h k hk]
    · simp [hk]
  · simp [hi]

/-- MemRead element by element, for elements of any type. -/
theorem memRead_eq_some_iff (hb : bufWf b = true) (i n : Nat) (vs : List α) :
    memRead b i n = some vs ↔ (vs.length = n ∧ ∀ k, k < n → bufRead b (i + k) = vs[k]?) := by
  constructor
  · exact fun h => ⟨memRead_length h, memRead_getElem h⟩
  · rintro ⟨rfl, h⟩
    simp only [memRead, run_eq_cellsFrom hb h, cellsFrom_fst, cellsFrom_snd, if_true]

end Buffers

/-! ### The statements -/

/-- Settles O21: a read that answers leaves the block and the host's program, and `hostRead` sees nothing else. -/
theorem readsHaveNoSideEffects : Obligations.ReadsHaveNoSideEffects := by
  intro s t sp idx h
  obtain ⟨v, tk, rfl, hv⟩ := performRead_returns h
  exact ⟨sameBlock_withHost s _ _ _ _, rfl, ⟨v, rfl, hv⟩, fun sp' idx' => by rw [hostRead_withHost]⟩

/-- Settles O22: the laws of MemRead and MemWrite, at bytes and at bits. -/
theorem memReadAndMemWrite : Obligations.MemReadAndMemWrite :=
  ⟨fun _ idx n vs hb => memRead_eq_some_iff hb idx n vs, fun _ idx n vs hb => memRead_eq_some_iff hb idx n vs,
    bufRead_memWrite, bufRead_memWrite⟩

end Sys2Proof.Machine
end

section
/-!
Proofs of the statements of 30_encoding.md. Each row of the opcode table is an interval of words, so decoding is said by
the value of the word; the fields of the record words follow from the laws of appended bit vectors; a loading script is
performed statement by statement (`Performs`), and its writes add up to one MemWrite, or to one entry for each symbol.
-/

namespace Sys2Proof

/-! ### The two fields and the single bits of a word, by its value (R80) -/

theorem zeroField_eq_iff (w : Byte) (k : BitVec 5) : zeroField w = k ↔ w.toNat / 8 = k.toNat := by
  have hw := w.isLt
  rw [← BitVec.toNat_inj, zeroField, BitVec.extractLsb'_toNat, Nat.shiftRight_eq_div_pow, Nat.mod_eq_of_lt (by omega)]

theorem zeroField_eq_zero_iff (w : Byte) : zeroField w = 0 ↔ w.toNat < 8 :=
  (zeroField_eq_iff w 0).trans (Nat.div_eq_zero_iff_lt (by decide))

theorem opField_eq_iff (w : Byte) (k : BitVec 3) : opField w = k ↔ w.toNat % 8 = k.toNat := by
  rw [← BitVec.toNat_inj, opField, BitVec.extractLsb'_toNat, Nat.shiftRight_zero]

/-- Where no higher bit is set, bit `k` says whether the word reaches `2 ^ k`. -/
theorem getLsbD_iff_pow_le {w : Byte} {k : Nat} (h : w.toNat < 2 ^ (k + 1)) :
    w.getLsbD k = true ↔ 2 ^ k ≤ w.toNat := by
  refine ⟨Nat.ge_two_pow_of_testBit, fun hk => ?_⟩
  exact Nat.testBit_of_two_pow_le_and_two_pow_add_one_gt hk h

/-! ### The rows of the opcode table are intervals (R81, R82) -/

/-- How many low bits the constructor's row leaves free. -/
def Instr.freeBits : Instr → Nat
  | .nop => 0
  | .compress => 0
  | .decompress => 0
  | .encode => 0
  | .decode => 0
  | .clear => 0
  | .illegalOp67 _ => 1
  | .illegalBit3 _ => 3
  | .illegalBit4 _ => 4
  | .illegalBit5 _ => 5
  | .illegalBit6 _ => 6
  | .illegalBit7 _ => 7

theorem Instr.rowMask_eq (i : Instr) : i.rowMask = BitVec.allOnes 8 <<< i.freeBits := by
  cases i <;> simp [rowMask, freeBits]

theorem Instr.wf_iff_rowMask (i : Instr) : i.wf = true ↔ Sys2Proof.encode i &&& i.rowMask = i.rowMatch := by
  cases i
  case nop | compress | decompress | encode | decode | clear => exact iff_of_true rfl rfl
  all_goals exact beq_iff_eq

/-- The words of a row are those from its `match` on, as many as its free bits spell. -/
theorem Instr.wf_iff (i : Instr) :
    i.wf = true ↔ i.rowMatch.toNat ≤ (Sys2Proof.encode i).toNat ∧
      (Sys2Proof.encode i).toNat < i.rowMatch.toNat + 2 ^ i.freeBits := by
  have hw := (Sys2Proof.encode i).isLt
  rw [wf_iff_rowMask, rowMask_eq, ← BitVec.shiftLeft_ushiftRight, ← BitVec.toNat_inj, BitVec.toNat_shiftLeft,
    BitVec.toNat_ushiftRight, Nat.shiftLeft_eq, Nat.shiftRight_eq_div_pow]
  generalize (Sys2Proof.encode i).toNat = n at hw ⊢
  cases i <;> simp only [freeBits, rowMatch, BitVec.reduceToNat] <;> omega

/-! ### Decoding by the value of the word (R100) -/

/-- The order of `decode`'s tests, by value: a word below 8 by its operation, any other by its highest set bit. -/
theorem decode_by_value (w : Byte) : decode w =
    if w.toNat < 8 then decodeOp w
    else if 128 ≤ w.toNat then .illegalBit7 w
    else if 64 ≤ w.toNat then .illegalBit6 w
    else if 32 ≤ w.toNat then .illegalBit5 w
    else if 16 ≤ w.toNat then .illegalBit4 w
    else .illegalBit3 w := by
  refine ite_congr (propext (zeroField_eq_zero_iff w)) (fun _ => rfl) fun _ => ?_
  refine ite_congr (propext (getLsbD_iff_pow_le w.isLt)) (fun _ => rfl) fun h7 => ?_
  refine ite_congr (propext (getLsbD_iff_pow_le (not_le.1 h7))) (fun _ => rfl) fun h6 => ?_
  refine ite_congr (propext (getLsbD_iff_pow_le (not_le.1 h6))) (fun _ => rfl) fun h5 => ?_
  exact ite_congr (propext (getLsbD_iff_pow_le (not_le.1 h5))) (fun _ => rfl) fun _ => rfl

/-- The two words below 8 that no operation has (R82). -/
theorem decodeOp_reserved {w : Byte} (h6 : 6 ≤ w.toNat) (h8 : w.toNat < 8) : decodeOp w = .illegalOp67 w := by
  obtain rfl | rfl : w = 6#8 ∨ w = 7#8 := by bv_omega
  · rfl
  · rfl

/-- A well-formed command is what its word decodes to. -/
theorem decode_encode {i : Instr} (h : i.wf = true) : decode (encode i) = i := by
  rw [Instr.wf_iff] at h
  cases i
  case nop | compress | decompress | encode | decode | clear => rfl
  all_goals
    simp only [encode, Instr.rowMatch, Instr.freeBits, BitVec.reduceToNat] at h
    simp (disch := omega) only [encode, decode_by_value, decodeOp_reserved, if_pos, if_neg]

/-- Every word is in a row of the opcode table. -/
theorem exists_wf_encode (w : Byte) : ∃ i : Instr, i.wf = true ∧ encode i = w := by
  by_cases hop : w.toNat < 6
  · obtain rfl | rfl | rfl | rfl | rfl | rfl :
        w = 0#8 ∨ w = 1#8 ∨ w = 2#8 ∨ w = 3#8 ∨ w = 4#8 ∨ w = 5#8 := by bv_omega
    exacts [⟨.nop, rfl, rfl⟩, ⟨.compress, rfl, rfl⟩, ⟨.decompress, rfl, rfl⟩, ⟨.encode, rfl, rfl⟩,
      ⟨.decode, rfl, rfl⟩, ⟨.clear, rfl, rfl⟩]
  · obtain h | h | h | h | h | h :
        (6 ≤ w.toNat ∧ w.toNat < 8) ∨ (8 ≤ w.toNat ∧ w.toNat < 16) ∨ (16 ≤ w.toNat ∧ w.toNat < 32) ∨
          (32 ≤ w.toNat ∧ w.toNat < 64) ∨ (64 ≤ w.toNat ∧ w.toNat < 128) ∨ (128 ≤ w.toNat ∧ w.toNat < 256) := by
      have := w.isLt
      omega
    exacts [⟨.illegalOp67 w, (Instr.wf_iff _).2 h, rfl⟩, ⟨.illegalBit3 w, (Instr.wf_iff _).2 h, rfl⟩,
      ⟨.illegalBit4 w, (Instr.wf_iff _).2 h, rfl⟩, ⟨.illegalBit5 w, (Instr.wf_iff _).2 h, rfl⟩,
      ⟨.illegalBit6 w, (Instr.wf_iff _).2 h, rfl⟩, ⟨.illegalBit7 w, (Instr.wf_iff _).2 h, rfl⟩]

theorem decode_wf (w : Byte) : (decode w).wf = true := by
  obtain ⟨i, hi, rfl⟩ := exists_wf_encode w
  rwa [decode_encode hi]

theorem encode_decode (w : Byte) : encode (decode w) = w := by
  obtain ⟨i, hi, rfl⟩ := exists_wf_encode w
  rw [decode_encode hi]

theorem encode_injOn_wf {i j : Instr} (hi : i.wf = true) (hj : j.wf = true) (h : encode i = encode j) : i = j := by
  rw [← decode_encode hi, h, decode_encode hj]

/-- Settles O8: `decode_encode` on the well-formed commands, and every word is the word of one of them. -/
theorem decodeEncodeAgree : Obligations.DecodeEncodeAgree :=
  ⟨fun _ => decode_encode, fun w => ⟨decode_wf w, encode_decode w⟩,
    fun i rest hi => by rw [decodeBytes, decode_encode hi], fun _ _ => encode_injOn_wf⟩

/-- Settles O7: each of the eight words is the word of the command it decodes to. -/
theorem commandWordsDecode : Obligations.CommandWordsDecode :=
  ⟨decode_encode (i := .nop) rfl, decode_encode (i := .compress) rfl, decode_encode (i := .decompress) rfl,
    decode_encode (i := .encode) rfl, decode_encode (i := .decode) rfl, decode_encode (i := .clear) rfl,
    decode_encode (i := .illegalOp67 0x06#8) rfl, decode_encode (i := .illegalOp67 0x07#8) rfl⟩

/-! ### The reserved words (R82) -/

/-- The command carries a reserved word `w`, in one of the six rows of R82. -/
def Instr.Reserved (i : Instr) (w : Byte) : Prop :=
  i = .illegalOp67 w ∨ i = .illegalBit3 w ∨ i = .illegalBit4 w ∨ i = .illegalBit5 w ∨ i = .illegalBit6 w ∨
    i = .illegalBit7 w

/-- The reserved rows lie above the opcode map: every other command has one of the words 0 to 5. -/
theorem Instr.reserved_iff {i : Instr} (h : i.wf = true) :
    i.Reserved (Sys2Proof.encode i) ↔ 5 < (Sys2Proof.encode i).toNat := by
  rw [wf_iff] at h
  cases i
  case nop | compress | decompress | encode | decode | clear => exact iff_of_false (by simp [Reserved]) (by decide)
  all_goals
    simp only [rowMatch, BitVec.reduceToNat] at h
    exact iff_of_true (by simp [Reserved, Sys2Proof.encode]) (by omega)

theorem decode_reserved_iff (w : Byte) : (decode w).Reserved w ↔ 5 < w.toNat := by
  have h := Instr.reserved_iff (decode_wf w)
  rwa [encode_decode] at h

/-- By the fields of R80: OP = 6, OP = 7 or a bit of 7:3 set. -/
theorem fields_reserved_iff (w : Byte) : (opField w = 6 ∨ opField w = 7 ∨ zeroField w ≠ 0) ↔ 5 < w.toNat := by
  rw [opField_eq_iff, opField_eq_iff, Ne, zeroField_eq_zero_iff]
  simp only [BitVec.reduceToNat]
  omega

/-- Of the numbers up to `k + m`, those above `k` are `m`. -/
theorem length_filter_lt_range (k m : Nat) : ((List.range (k + 1 + m)).filter fun n => k < n).length = m := by
  induction m with
  | zero => simp
  | succ m ih =>
    rw [← Nat.add_assoc, List.range_succ, List.filter_append, List.length_append, ih,
      List.filter_singleton, decide_eq_true (by omega), cond_true, List.length_singleton]

end Sys2Proof

namespace Sys2Proof.Machine

/-! ### The reserved commands (40_commands.md R110) -/

/-- A reserved command takes IllegalCommandError, whichever row its word is in (R110). -/
theorem exec_reserved {i : Instr} {w : Byte} (h : i.Reserved w) (s : State) :
    exec i s = acceptCommand s (raiseIllegalCommand s) := by
  obtain rfl | rfl | rfl | rfl | rfl | rfl := h <;> rfl

theorem State.RunningOk.none_of_idle {s : State} (h : s.RunningOk) (hp : s.phase = .idle) : s.running = none := by
  cases hr : s.running with
  | none => rfl
  | some c =>
    simp only [State.RunningOk, hr, hp] at h
    cases c <;> simp [Command.phases] at h

/-- IllegalCommandError in an idle block writes the flags of R240 and OUT_LEN alone. -/
theorem raiseIllegalCommand_idle {s : State} (hb : s.busy = false) (hp : s.phase = .idle) (hr : s.running = none) :
    raiseIllegalCommand s =
      { s with err := true, ecode := some .illegalCommand, done := true, degen := false, outLen := 0 } := by
  simp only [raiseIllegalCommand, raiseError, State.flagsFaulted, ← hb, ← hp, ← hr]

/-- Settles O13: the reserved words by value, by fields and by row; their commands raise IllegalCommandError. -/
theorem reservedWordsRaiseIllegalCommand : Obligations.ReservedWordsRaiseIllegalCommand := by
  refine ⟨length_filter_lt_range 5 250, fun w => ⟨(fields_reserved_iff w).symm, (decode_reserved_iff w).symm⟩, ?_⟩
  intro s w i hi hb hs hr
  have hp := hs.busy_idle.1 hb
  have hexec : exec i s = .next (raiseIllegalCommand s) := by
    rw [exec_reserved hi, acceptCommand, hb, if_neg Bool.false_ne_true]
  refine ⟨_, hexec, raiseIllegalCommand_idle hb hp (hr.none_of_idle hp), ?_⟩
  rw [raiseIllegalCommand_idle hb hp (hr.none_of_idle hp)]
  simp [statusWord, hp, hb, Phase.code, ecodeField, CodecError.code]

/-! ### Codes and their entries (R88) -/

theorem entryOfCode_len {c : List Bit} (h : c.length ≤ 255) : (entryOfCode c).len.toNat = c.length := by
  rw [entryOfCode, BitVec.toNat_ofNat, Nat.mod_eq_of_lt (by omega)]

theorem entryOfCode_code {c : List Bit} (h : c.length ≤ 255) : (entryOfCode c).code.toNat = bitsVal c := by
  have hlt : bitsVal c < 2 ^ 255 := (bitsVal_lt c).trans_le (Nat.pow_le_pow_right (by decide) h)
  rw [entryOfCode, BitVec.toNat_ofNat, Nat.mod_eq_of_lt hlt]

theorem bitsVal_codeBits (e : CtEntry) : bitsVal (codeBits e) = e.code.toNat % 2 ^ e.len.toNat := by
  rw [codeBits, bitsVal_bitsOf, Nat.mod_mod]

/-- Two entries hold the same code when their LEN are equal and their CODE agree in the low LEN bits. -/
theorem codeBits_eq_iff (d e : CtEntry) : codeBits d = codeBits e ↔
    d.len = e.len ∧ d.code.toNat % 2 ^ d.len.toNat = e.code.toNat % 2 ^ e.len.toNat := by
  constructor
  · intro h
    have hlen : d.len.toNat = e.len.toNat := by rw [← codeBits_length, h, codeBits_length]
    exact ⟨BitVec.eq_of_toNat_eq hlen, by rw [← bitsVal_codeBits, h, bitsVal_codeBits]⟩
  · rintro ⟨hlen, hcode⟩
    rw [codeBits, codeBits, hcode, hlen]

/-! ### The CT record (R89) -/

theorem packEntry_v (e : CtEntry) : (packEntry e).getLsbD 263 = e.v :=
  congrArg CtEntry.v (unpackEntry_packEntry e)

theorem packEntry_len (e : CtEntry) : (packEntry e).extractLsb' 255 8 = e.len :=
  congrArg CtEntry.len (unpackEntry_packEntry e)

theorem packEntry_code (e : CtEntry) : (packEntry e).extractLsb' 0 255 = e.code :=
  congrArg CtEntry.code (unpackEntry_packEntry e)

/-! ### The NODE record (R90) -/

section NodeWord

variable (w : Nat) (n : Node)

theorem nodeId_toNat (i : NodeId) : (BitVec.ofNat 9 i.val).toNat = i.val := by
  rw [BitVec.toNat_ofNat, Nat.mod_eq_of_lt (by omega)]

theorem packNode_right : ((packNode w n).extractLsb' 0 9).toNat = n.right.val := by
  rw [packNode, BitVec.extractLsb'_append_eq_right, nodeId_toNat]

theorem packNode_left : ((packNode w n).extractLsb' 9 9).toNat = n.left.val := by
  rw [packNode, BitVec.extractLsb'_append_eq_of_le (le_refl 9), BitVec.extractLsb'_append_eq_right, nodeId_toNat]

theorem packNode_weight (h : n.weight < 2 ^ w) : ((packNode w n).extractLsb' 18 w).toNat = n.weight := by
  rw [packNode, BitVec.extractLsb'_append_eq_of_le (by omega), BitVec.extractLsb'_append_eq_of_le (by omega),
    BitVec.extractLsb'_append_eq_right, BitVec.toNat_ofNat, Nat.mod_eq_of_lt h]

theorem packNode_sym : (packNode w n).extractLsb' (18 + w) 8 = n.sym := by
  rw [packNode, BitVec.extractLsb'_append_eq_of_le (by omega), BitVec.extractLsb'_append_eq_of_le (by omega),
    BitVec.extractLsb'_append_eq_of_le (by omega), show 18 + w - 9 - 9 - w = 0 by omega,
    BitVec.extractLsb'_append_eq_right]

/-- The two flags stand above the other fields. -/
theorem packNode_flags (k : Nat) :
    (packNode w n).getLsbD (26 + w + k) = (BitVec.ofBool n.v ++ BitVec.ofBool n.leaf).getLsbD k := by
  simp (disch := omega) only [packNode, BitVec.getLsbD_append, if_neg]
  rw [show 26 + w + k - 9 - 9 - w - 8 = k by omega]

theorem packNode_leaf : (packNode w n).getLsbD (26 + w) = n.leaf := by
  rw [← Nat.add_zero (26 + w), packNode_flags, BitVec.getLsbD_append]
  simp

theorem packNode_v : (packNode w n).getLsbD (27 + w) = n.v := by
  rw [show 27 + w = 26 + w + 1 by omega, packNode_flags, BitVec.getLsbD_append]
  simp

end NodeWord

/-- Settles O23: the laws of the two record words and of the code of an entry. -/
theorem recordLayouts : Obligations.RecordLayouts :=
  ⟨fun e => ⟨unpackEntry_packEntry e, packEntry_v e, packEntry_len e, packEntry_code e⟩, packEntry_unpackEntry,
    fun c h => ⟨codeBits_entryOfCode c h, entryOfCode_len h, entryOfCode_code h⟩, codeBits_eq_iff,
    fun w n h => ⟨packNode_right w n, packNode_left w n, packNode_weight w n h, packNode_sym w n, packNode_leaf w n,
      packNode_v w n, by omega⟩⟩

/-! ### Host scripts in an idle block (R92) -/

section Scripts

variable {s t u : State} {sts sts' : List Statement}

/-- From `s` the machine performs the statements, one a step, and leaves `t`, whatever the host still has to do after
them. -/
def Performs (s : State) (sts : List Statement) (t : State) : Prop :=
  ∀ rest : List Statement,
    Host.Core.run Sys2Proof.core sts.length { s with script := sts ++ rest } = .next { t with script := rest }

theorem Performs.nil (s : State) : Performs s [] s := fun _ => rfl

theorem Performs.append (h : Performs s sts t) (h' : Performs t sts' u) : Performs s (sts ++ sts') u := by
  intro rest
  rw [List.length_append, List.append_assoc, core_run_add (h _), h']

/-- A statement performed in an idle block is one step. -/
theorem Performs.one {st : Statement} (hp : s.phase = .idle)
    (h : ∀ rest, perform st { s with script := rest } = .next { t with script := rest }) : Performs s [st] t := by
  intro rest
  have hstep : step { s with script := st :: rest } = .next { t with script := rest } := by
    rw [step, blockStep, if_pos hp]
    exact h rest
  exact core_run_succ hstep 0

theorem Performs.cons {st : Statement} (h : Performs s [st] t) (h' : Performs t sts u) : Performs s (st :: sts) u :=
  h.append h'

/-- The run of a script that begins with the statements. -/
theorem Performs.run {rest : List Statement} (h : Performs s sts t) (hs : s.script = sts ++ rest) :
    Host.Core.run Sys2Proof.core sts.length s = .next { t with script := rest } := by
  rw [← h rest, ← hs]

/-- A write of an element other than CMD in an idle block. -/
theorem Performs.write {sp : Space} {idx : Nat} {v : PortWord} (hb : s.busy = false) (hp : s.phase = .idle)
    (hc : ¬ (sp = .reg ∧ idx = 0))
    (h : ∀ rest, writeElement { s with script := rest } sp idx v = .next { t with script := rest }) :
    Performs s [.write sp idx v] t :=
  .one hp fun rest => (hostWrite_of_notBusy (s := { s with script := rest }) hb hc v).trans (h rest)

end Scripts

/-! ### Consecutive writes are one MemWrite (20_memory.md R77) -/

section Writes

variable {α : Type} {b : List (Nat × α)}

theorem memWrite_nil (hb : bufWf b = true) (i : Nat) : memWrite b i [] = b := by
  refine bufWf_ext (bufWf_memWrite hb i []) hb fun j => ?_
  rw [bufRead_memWrite, if_neg (by simp)]

theorem memWrite_cons (hb : bufWf b = true) (i : Nat) (v : α) (vs : List α) :
    memWrite (memWrite b i [v]) (i + 1) vs = memWrite b i (v :: vs) := by
  refine bufWf_ext (bufWf_memWrite (bufWf_memWrite hb _ _) _ _) (bufWf_memWrite hb _ _) fun j => ?_
  simp only [bufRead_memWrite, List.length_cons, List.length_nil]
  obtain h | rfl | ⟨k, rfl⟩ : j < i ∨ j = i ∨ ∃ k, j = i + 1 + k := by
    rcases lt_trichotomy j i with h | h | h
    · exact .inl h
    · exact .inr (.inl h)
    · exact .inr (.inr (Nat.exists_eq_add_of_le h))
  · simp [show ¬ i ≤ j by omega, show ¬ i + 1 ≤ j by omega]
  · simp
  · simp [show i + 1 + k - i = k + 1 by omega, show i ≤ i + 1 + k by omega, show ¬ i + 1 + k ≤ i by omega,
      show i + (vs.length + 1) = i + 1 + vs.length by omega]

end Writes

/-! ### The loading scripts (R93) -/

section Loads

variable {s : State}

theorem wf_inBuf (h : Memory.wf s = true) : bufWf s.inBuf = true := by
  simp only [Memory.wf, Bool.and_eq_true] at h
  obtain ⟨⟨⟨hin, _⟩, _⟩, _⟩ := h
  exact hin

theorem wf_bsBuf (h : Memory.wf s = true) : bufWf s.bsBuf = true := by
  simp only [Memory.wf, Bool.and_eq_true] at h
  obtain ⟨⟨_, hbs⟩, _⟩ := h
  exact hbs

/-- A length within a capacity passes a port of at least 32 bits unchanged. -/
theorem toNat_ofNat_length {n m w : Nat} (h : n ≤ m) (hm : m < 2 ^ 32) (hw : 32 ≤ w) :
    (BitVec.ofNat w n).toNat = n := by
  have hlt : n < 2 ^ 32 := h.trans_lt hm
  rw [BitVec.toNat_ofNat, Nat.mod_eq_of_lt (hlt.trans_le (Nat.pow_le_pow_right Nat.two_pos hw))]

theorem setWidth_byte_port (b : Byte) : ((b.setWidth 264 : PortWord).setWidth 8) = b := by
  rw [BitVec.setWidth_setWidth_of_le _ (by decide), BitVec.setWidth_eq]

theorem packBit_bit (b : Bit) : (packBit b).getLsbD 0 = b := by
  simp [packBit]

theorem performs_wrb (hb : s.busy = false) (hp : s.phase = .idle) {i : Nat} (hi : i < s.cap.inMax) (b : Byte) :
    Performs s [scriptWrb i b] { s with inBuf := memWrite s.inBuf i [b] } :=
  .write hb hp (by simp) fun rest => by simp only [writeElement, if_pos hi, setWidth_byte_port]

theorem performs_wrbFrom (hb : s.busy = false) (hp : s.phase = .idle) (hwf : bufWf s.inBuf = true) {i : Nat}
    {bytes : List Byte} (hi : i + bytes.length ≤ s.cap.inMax) :
    Performs s (wrbFrom i bytes) { s with inBuf := memWrite s.inBuf i bytes } := by
  induction bytes generalizing s i with
  | nil =>
    rw [memWrite_nil hwf]
    exact .nil s
  | cons b bytes ih =>
    rw [List.length_cons] at hi
    have hrest := ih (s := { s with inBuf := memWrite s.inBuf i [b] }) hb hp (bufWf_memWrite hwf i [b]) (i := i + 1)
      (by simp only; omega)
    rw [memWrite_cons hwf] at hrest
    exact (performs_wrb hb hp (by omega) b).cons hrest

theorem performs_wr_inLen (hb : s.busy = false) (hp : s.phase = .idle) {n : Nat} (hn : n ≤ s.cap.inMax)
    (hcap : s.cap.inMax < 2 ^ 32) : Performs s [scriptWr 2 n] { s with inLen := n } :=
  have hv := toNat_ofNat_length (w := 264) hn hcap (by decide)
  .write hb hp (by simp) fun rest => by
    rw [writeElement, writeReg_inLen (by rwa [hv]), hv]

/-- LOAD_IN. -/
theorem performs_loadIn (hb : s.busy = false) (hp : s.phase = .idle) (hwf : bufWf s.inBuf = true)
    {bytes : List Byte} (hn : bytes.length ≤ s.cap.inMax) (hcap : s.cap.inMax < 2 ^ 32) :
    Performs s (scriptLoadIn bytes) { s with inBuf := memWrite s.inBuf 0 bytes, inLen := bytes.length } :=
  have hbytes := performs_wrbFrom hb hp hwf (i := 0) (by rwa [Nat.zero_add])
  hbytes.append (performs_wr_inLen (s := { s with inBuf := memWrite s.inBuf 0 bytes }) hb hp hn hcap)

@[simp] theorem wrbFrom_length (i : Nat) (bytes : List Byte) : (wrbFrom i bytes).length = bytes.length := by
  induction bytes generalizing i with
  | nil => rfl
  | cons b bytes ih => rw [wrbFrom, List.length_cons, ih, List.length_cons]

theorem scriptLoadIn_length (bytes : List Byte) : (scriptLoadIn bytes).length = bytes.length + 1 := by
  simp [scriptLoadIn]

theorem writeBits_nil (hwf : Memory.wf s = true) (i : Nat) : s.writeBits i [] = s := by
  have hstale : s.bsStale.filter (fun c => c.1 < i ∨ i + ([] : List Bit).length ≤ c.1) = s.bsStale :=
    List.filter_eq_self.2 fun c _ => by simp; omega
  rw [State.writeBits, memWrite_nil (wf_bsBuf hwf), hstale]

theorem writeBits_cons (hwf : Memory.wf s = true) (i : Nat) (b : Bit) (bits : List Bit) :
    (s.writeBits i [b]).writeBits (i + 1) bits = s.writeBits i (b :: bits) := by
  simp only [State.writeBits, memWrite_cons (wf_bsBuf hwf), List.filter_filter]
  congr 1
  refine List.filter_congr fun c _ => ?_
  rw [Bool.eq_iff_iff]
  simp only [Bool.and_eq_true, decide_eq_true_eq, List.length_cons, List.length_nil]
  omega

theorem performs_wrbit (hb : s.busy = false) (hp : s.phase = .idle) {i : Nat} (hi : i < s.cap.bsMax) (b : Bit) :
    Performs s [scriptWrbit i b] (s.writeBits i [b]) :=
  .write hb hp (by simp) fun rest => by
    simp only [writeElement, if_pos hi, packBit_bit, State.writeBits]

theorem performs_wrbitFrom (hb : s.busy = false) (hp : s.phase = .idle) (hwf : Memory.wf s = true) {i : Nat}
    {bits : List Bit} (hi : i + bits.length ≤ s.cap.bsMax) :
    Performs s (wrbitFrom i bits) (s.writeBits i bits) := by
  induction bits generalizing s i with
  | nil =>
    rw [writeBits_nil hwf]
    exact .nil s
  | cons b bits ih =>
    rw [List.length_cons] at hi
    have hrest := ih (s := s.writeBits i [b]) hb hp (writeBits_wf hwf i [b]) (i := i + 1)
      (by simp only [State.writeBits]; omega)
    rw [writeBits_cons hwf] at hrest
    exact (performs_wrbit hb hp (by omega) b).cons hrest

theorem performs_wr_bsLen (hb : s.busy = false) (hp : s.phase = .idle) {n : Nat} (hn : n ≤ s.cap.bsMax)
    (hcap : s.cap.bsMax < 2 ^ 32) : Performs s [scriptWr 4 n] { s with bsLen := n } :=
  have hv := toNat_ofNat_length (w := 264) hn hcap (by decide)
  .write hb hp (by simp) fun rest => by
    rw [writeElement, writeReg_bsLen (by rwa [hv]), hv]

/-- LOAD_BS. -/
theorem performs_loadBs (hb : s.busy = false) (hp : s.phase = .idle) (hwf : Memory.wf s = true)
    {bits : List Bit} (hn : bits.length ≤ s.cap.bsMax) (hcap : s.cap.bsMax < 2 ^ 32) :
    Performs s (scriptLoadBs bits) { s.writeBits 0 bits with bsLen := bits.length } :=
  have hbits := performs_wrbitFrom hb hp hwf (i := 0) (by rwa [Nat.zero_add])
  hbits.append (performs_wr_bsLen (s := s.writeBits 0 bits) hb hp hn hcap)

@[simp] theorem wrbitFrom_length (i : Nat) (bits : List Bit) : (wrbitFrom i bits).length = bits.length := by
  induction bits generalizing i with
  | nil => rfl
  | cons b bits ih => rw [wrbitFrom, List.length_cons, ih, List.length_cons]

theorem scriptLoadBs_length (bits : List Bit) : (scriptLoadBs bits).length = bits.length + 1 := by
  simp [scriptLoadBs]

/-! ### LOAD_CT -/

/-- The entry LOAD_CT gives a symbol. -/
def listedEntry (pairs : List (Byte × List Bit)) (sym : Byte) : CtEntry :=
  match listedCode pairs sym with
  | some code => entryOfCode code
  | none => CtEntry.zero

/-- The symbols in the order in which LOAD_CT writes their entries: the unlisted ones, then the listed ones. -/
def loadOrder (pairs : List (Byte × List Bit)) : List Byte :=
  (allSymbols.filter fun sym => (listedCode pairs sym).isNone) ++
    allSymbols.filter fun sym => (listedCode pairs sym).isSome

/-- The table after the entries of the symbols are written, one after the other. -/
def CodeTable.putAll (tbl : CodeTable) (entry : Byte → CtEntry) : List Byte → CodeTable
  | [] => tbl
  | sym :: syms => CodeTable.putAll (tbl.put sym (entry sym)) entry syms

theorem CodeTable.at_putAll (tbl : CodeTable) (entry : Byte → CtEntry) (syms : List Byte) (sym : Byte) :
    (tbl.putAll entry syms).at sym = if sym ∈ syms then entry sym else tbl.at sym := by
  induction syms generalizing tbl with
  | nil => rfl
  | cons x syms ih =>
    rw [CodeTable.putAll, ih, CodeTable.at_put]
    by_cases hx : x = sym
    · subst hx; simp
    · simp [hx, Ne.symm hx]

/-- LOAD_CT writes every symbol's entry once, in the order of `loadOrder`. -/
theorem scriptLoadCt_eq (pairs : List (Byte × List Bit)) :
    scriptLoadCt pairs = (loadOrder pairs).map fun sym => scriptWrct sym (listedEntry pairs sym) := by
  rw [scriptLoadCt, loadOrder, List.map_append]
  refine congrArg₂ (· ++ ·) (List.map_congr_left fun sym hsym => ?_) ?_
  · have hnone := Option.isNone_iff_eq_none.1 (List.mem_filter.1 hsym).2
    rw [listedEntry, hnone]
  · rw [← List.filterMap_eq_map, List.filterMap_filter]
    refine List.filterMap_congr fun sym _ => ?_
    cases hc : listedCode pairs sym <;> simp [listedEntry, hc]

theorem mem_loadOrder (pairs : List (Byte × List Bit)) (sym : Byte) : sym ∈ loadOrder pairs := by
  rw [loadOrder, List.mem_append, List.mem_filter, List.mem_filter]
  cases listedCode pairs sym <;> simp

theorem loadOrder_length (pairs : List (Byte × List Bit)) : (loadOrder pairs).length = 256 := by
  rw [loadOrder, List.length_append, ← allSymbols_length,
    List.length_eq_length_filter_add (l := allSymbols) fun sym => (listedCode pairs sym).isNone]
  simp

theorem scriptLoadCt_length (pairs : List (Byte × List Bit)) : (scriptLoadCt pairs).length = 256 := by
  rw [scriptLoadCt_eq, List.length_map, loadOrder_length]

theorem performs_wrct (hb : s.busy = false) (hp : s.phase = .idle) (sym : Byte) (e : CtEntry) :
    Performs s [scriptWrct sym e] { s with ct := s.ct.put sym e } :=
  .write hb hp (by simp) fun rest => by
    simp only [writeElement, dif_pos sym.isLt, unpackEntry_packEntry, CodeTable.put]

theorem performs_wrctAll (hb : s.busy = false) (hp : s.phase = .idle) (entry : Byte → CtEntry) (syms : List Byte) :
    Performs s (syms.map fun sym => scriptWrct sym (entry sym)) { s with ct := s.ct.putAll entry syms } := by
  induction syms generalizing s with
  | nil => exact .nil s
  | cons sym syms ih =>
    exact (performs_wrct hb hp sym (entry sym)).cons (ih (s := { s with ct := s.ct.put sym (entry sym) }) hb hp)

/-- LOAD_CT. -/
theorem performs_loadCt (hb : s.busy = false) (hp : s.phase = .idle) (pairs : List (Byte × List Bit)) :
    Performs s (scriptLoadCt pairs) { s with ct := s.ct.putAll (listedEntry pairs) (loadOrder pairs) } := by
  rw [scriptLoadCt_eq]
  exact performs_wrctAll hb hp _ _

end Loads

/-- Settles O25: each script is performed statement by statement (`performs_loadIn`, `performs_loadBs`,
`performs_loadCt`), and the laws of MemWrite, of the held bits and of `putAll` say what it left. -/
theorem loadScripts : Obligations.LoadScripts := by
  intro s rest hb hp hwf
  refine ⟨fun bytes hn hcap hs => ?_, fun bits hn hcap hs => ?_, fun pairs hs => ?_⟩
  · have hrun := (performs_loadIn hb hp (wf_inBuf hwf) hn hcap).run hs
    rw [scriptLoadIn_length] at hrun
    exact ⟨_, hrun, memRead_memWrite_same s.inBuf 0 bytes,
      fun j hj => bufRead_memWrite_outside s.inBuf 0 bytes j (.inr (by omega))⟩
  · have hrun := (performs_loadBs hb hp hwf hn hcap).run hs
    rw [scriptLoadBs_length] at hrun
    exact ⟨_, _, hrun, memRead_writeBits s 0 bits, fun j hj =>
      ⟨bufRead_memWrite_outside s.bsBuf 0 bits j (.inr (by omega)),
        bufRead_writeBits_outside s 0 bits j (.inr (by omega))⟩⟩
  · have hrun := (performs_loadCt hb hp pairs).run hs
    rw [scriptLoadCt_length] at hrun
    refine ⟨_, hrun, fun sym => ?_⟩
    rw [CodeTable.at_putAll, if_pos (mem_loadOrder pairs sym)]
    rfl

end Sys2Proof.Machine
end

section
/-!
Proofs of the statements of 40_commands.md. A word written to CMD runs the command it decodes to, which BUSY alone accepts
or refuses; the host's accesses are said space by space, and the end of a command by what BS holds after it (`EndOf`). A
whole run is a chain of phases (`Reaches`): the encoder's up to EMIT is `runPhases_encoder`, and the chain of INVERT and
SCAN, which DECODE and DECOMPRESS share, is run once for each of the decoder's outcomes. For the round trip on the block, a
table in which no code begins another decodes the codes it encoded, and the unpacker undoes the packer.
-/

namespace Sys2Proof.Machine

section Commands

variable {s : State}

/-! ### Acceptance (R100, R113) -/

theorem acceptCommand_of_notBusy (hb : s.busy = false) (next : State) : acceptCommand s next = .next next := by
  rw [acceptCommand, hb, if_neg Bool.false_ne_true]

theorem acceptCommand_of_busy (hb : s.busy = true) (next : State) : acceptCommand s next = .refused .busyAccess := by
  rw [acceptCommand, hb, if_pos rfl]

/-! ### The command a word runs (R100) -/

/-- Every command is accepted or refused by BUSY alone. -/
theorem exec_eq_acceptCommand (i : Instr) (s : State) : ∃ next, exec i s = acceptCommand s next := by
  cases i <;> exact ⟨_, rfl⟩

theorem exec_of_busy (hb : s.busy = true) (i : Instr) : exec i s = .refused .busyAccess := by
  obtain ⟨next, h⟩ := exec_eq_acceptCommand i s
  rw [h, acceptCommand_of_busy hb]

/-- A write to CMD runs the command its word spells, whatever BUSY is. -/
theorem hostWrite_cmd (s : State) (v : PortWord) : hostWrite s .reg 0 v = exec (decode (commandWord v)) s := rfl

theorem commandWord_toNat (v : PortWord) : (commandWord v).toNat = v.toNat % 256 := BitVec.toNat_setWidth 8 v

/-- The list of R100, by the value of the word. -/
theorem exec_decode (hb : s.busy = false) (w : Byte) :
    exec (decode w) s = .next
      (if w.toNat = 0x00 then s
      else if w.toNat = 0x01 then startEncoder .compress s
      else if w.toNat = 0x02 then startDecompress s
      else if w.toNat = 0x03 then startEncoder .encode s
      else if w.toNat = 0x04 then startDecode s
      else if w.toNat = 0x05 then clearState s
      else raiseIllegalCommand s) := by
  by_cases hw : 5 < w.toNat
  · rw [exec_reserved ((decode_reserved_iff w).2 hw), acceptCommand_of_notBusy hb]
    simp (disch := omega) only [if_neg]
  · obtain rfl | rfl | rfl | rfl | rfl | rfl :
        w = 0#8 ∨ w = 1#8 ∨ w = 2#8 ∨ w = 3#8 ∨ w = 4#8 ∨ w = 5#8 := by bv_omega
    all_goals exact acceptCommand_of_notBusy hb _

/-- Settles O9: the write runs the decoded word, and `exec_decode` is the list of R100. -/
theorem cmdWriteIsDecoded : Obligations.CmdWriteIsDecoded := by
  intro s v
  rw [hostWrite_cmd]
  refine ⟨fun hb => exec_of_busy hb _, fun hb => ?_⟩
  rw [exec_decode hb, commandWord_toNat]

/-- With PHASE = IDLE the step is the host's next statement; a write to CMD is the command its word spells. -/
theorem step_cmd {v : PortWord} {rest : List Statement} (hp : s.phase = .idle)
    (hs : s.script = .write .reg 0 v :: rest) : step s = exec (decode (commandWord v)) { s with script := rest } := by
  rw [step, blockStep, if_pos hp, hostTurn, hs]
  exact hostWrite_cmd _ v

/-- A word placed by `withFetchWord` reaches CMD unchanged. -/
theorem commandWord_placed (w : Nat) :
    commandWord (BitVec.ofNat 264 (tableWordByte 8 w).toNat) = BitVec.ofNat 8 w := by
  apply BitVec.eq_of_toNat_eq
  simp only [commandWord_toNat, tableWordByte, BitVec.toNat_ofNat]
  omega

/-- Settles O10: `step_cmd`, also in the state `withFetchWord` makes. -/
theorem stepRunsWrittenCommand : Obligations.StepRunsWrittenCommand := by
  refine ⟨fun s v rest hp hs => step_cmd hp hs, fun s w _ => ?_⟩
  have hstep := step_cmd (s := s.withFetchWord 8 w) rfl rfl
  rwa [commandWord_placed] at hstep

/-- Settles O11: NOP's next state is the state itself. -/
theorem nopChangesNothing : Obligations.NopChangesNothing := fun s =>
  ⟨fun hb => acceptCommand_of_notBusy hb s, fun hb => exec_of_busy hb .nop⟩

/-- Settles O12: the fields of `clearState`, one by one. -/
theorem clearGivesResetValues : Obligations.ClearGivesResetValues := fun s hb =>
  ⟨clearState s, acceptCommand_of_notBusy hb _, statusWord_resetWith s.cap, rfl, rfl, rfl, rfl, rfl, rfl, rfl, rfl, rfl,
    rfl, rfl, rfl, rfl, rfl, rfl, rfl, rfl, rfl, FreqFile.at_zero, NodeFile.at_zero, rfl, CodeTable.at_zero, rfl, rfl,
    rfl, rfl, rfl, rfl, rfl, rfl⟩

/-- Settles O14: the four commands answer the state their start leaves. -/
theorem commandStartClears : Obligations.CommandStartClears := fun s hb =>
  ⟨acceptCommand_of_notBusy hb (startEncoder .compress s), acceptCommand_of_notBusy hb (startEncoder .encode s),
    acceptCommand_of_notBusy hb (startDecompress s), acceptCommand_of_notBusy hb (startDecode s)⟩

/-! ### Accesses while BUSY = 1 (R113, R46) -/

theorem hostRead_of_busy (hb : s.busy = true) {sp : Space} {idx : Nat} (h : ¬ (sp = .reg ∧ idx = 1)) :
    hostRead s sp idx = .refused .busyAccess := by
  rw [hostRead, if_pos hb, if_neg h]

theorem hostRead_status_of_busy (hb : s.busy = true) :
    hostRead s .reg 1 = .value ((statusWord s).setWidth 264) := by
  rw [hostRead, if_pos hb, if_pos ⟨rfl, rfl⟩]

theorem hostWrite_of_busy (hb : s.busy = true) (sp : Space) (idx : Nat) (v : PortWord) :
    hostWrite s sp idx v = .refused .busyAccess := by
  by_cases h : sp = .reg ∧ idx = 0
  · obtain ⟨rfl, rfl⟩ := h
    rw [hostWrite_cmd, exec_of_busy hb]
  · rw [hostWrite, if_neg h, if_pos hb]

/-- Settles O15: the read of STATUS, the other reads, the writes and the commands. -/
theorem busyAllowsOnlyStatusReads : Obligations.BusyAllowsOnlyStatusReads := fun _ hb =>
  ⟨hostRead_status_of_busy hb, fun _ _ => hostRead_of_busy hb, hostWrite_of_busy hb, exec_of_busy hb⟩

end Commands

section Accesses

variable {s t : State}

/-! ### Reads while BUSY = 0 (R114) -/

theorem packBit_eq_ite (b : Bit) : packBit b = if b then 1 else 0 := by
  cases b with
  | false => exact BitVec.setWidth_zero _ _
  | true => exact BitVec.setWidth_ofNat_one_eq_ofNat_one_of_lt (by decide)

section NotBusy

variable (hb : s.busy = false)
include hb

theorem hostRead_input {i : Nat} (hi : i < s.cap.inMax) : hostRead s .input i = byteAnswer (bufRead s.inBuf i) :=
  (hostRead_of_notBusy hb _ _).trans (if_pos hi)

theorem hostRead_output {i : Nat} (hi : i < s.cap.outMax) (hlen : i < s.outLen) :
    hostRead s .output i = byteAnswer (bufRead s.outBuf i) :=
  (hostRead_of_notBusy hb _ _).trans ((if_pos hi).trans (if_pos hlen))

theorem hostRead_output_beyond {i : Nat} (hi : i < s.cap.outMax) (hlen : s.outLen ≤ i) :
    hostRead s .output i = .anyByte :=
  (hostRead_of_notBusy hb _ _).trans ((if_pos hi).trans (if_neg (not_lt.2 hlen)))

theorem hostRead_bits {i : Nat} (hi : i < s.cap.bsMax) (hlen : i < s.bsLen) :
    hostRead s .bits i = bitAnswer (bufRead (heldBits s.bsBuf s.bsStale) i) :=
  (hostRead_of_notBusy hb _ _).trans ((if_pos hi).trans (if_pos hlen))

theorem hostRead_bits_beyond {i : Nat} (hi : i < s.cap.bsMax) (hlen : s.bsLen ≤ i) : hostRead s .bits i = .anyBit :=
  (hostRead_of_notBusy hb _ _).trans ((if_pos hi).trans (if_neg (not_lt.2 hlen)))

/-- A written element of BS below BS_LEN answers the bit it holds. -/
theorem hostRead_bits_held {i : Nat} (hi : i < s.cap.bsMax) (hlen : i < s.bsLen) {b : Bit}
    (h : bufRead (heldBits s.bsBuf s.bsStale) i = some b) : hostRead s .bits i = .value (if b then 1 else 0) := by
  rw [hostRead_bits hb hi hlen, h, bitAnswer, packBit_eq_ite]

theorem hostRead_table (sym : Byte) : hostRead s .table sym.toNat = .value (packEntry (s.ct.at sym)) :=
  (hostRead_of_notBusy hb _ _).trans (dif_pos sym.isLt)

theorem hostRead_freq (sym : Byte) : hostRead s .freq sym.toNat = .value (BitVec.ofNat 264 (s.freq.at sym)) :=
  (hostRead_of_notBusy hb _ _).trans (dif_pos sym.isLt)

theorem hostRead_node (i : NodeId) :
    hostRead s .node i.val = .value ((packNode s.cap.cntW (s.node.at i)).setWidth 264) :=
  (hostRead_of_notBusy hb _ _).trans (dif_pos i.isLt)

/-! ### Writes while BUSY = 0 -/

theorem hostWrite_inLen_above {v : PortWord} (hv : s.cap.inMax < v.toNat) :
    hostWrite s .reg 2 v = .refused .lengthAboveCapacity :=
  (hostWrite_reg hb (by decide) v).trans (if_neg (not_le.2 hv))

theorem hostWrite_bsLen_above {v : PortWord} (hv : s.cap.bsMax < v.toNat) :
    hostWrite s .reg 4 v = .refused .lengthAboveCapacity :=
  (hostWrite_reg hb (by decide) v).trans (if_neg (not_le.2 hv))

theorem hostWrite_input {i : Nat} (hi : i < s.cap.inMax) (v : PortWord) :
    hostWrite s .input i v = .next { s with inBuf := memWrite s.inBuf i [v.setWidth 8] } :=
  (hostWrite_of_notBusy hb (by simp) v).trans (if_pos hi)

theorem hostWrite_bits {i : Nat} (hi : i < s.cap.bsMax) (v : PortWord) :
    hostWrite s .bits i v = .next (s.writeBits i [v.getLsbD 0]) :=
  (hostWrite_of_notBusy hb (by simp) v).trans (if_pos hi)

theorem hostWrite_table (sym : Byte) (v : PortWord) :
    hostWrite s .table sym.toNat v = .next { s with ct := s.ct.put sym (unpackEntry v) } :=
  (hostWrite_of_notBusy hb (by simp) v).trans (dif_pos sym.isLt)

theorem hostWrite_output {i : Nat} (hi : i < s.cap.outMax) (v : PortWord) : hostWrite s .output i v = .next s :=
  (hostWrite_of_notBusy hb (by simp) v).trans (if_pos hi)

theorem hostWrite_freq {i : Nat} (hi : i < 256) (v : PortWord) : hostWrite s .freq i v = .next s :=
  (hostWrite_of_notBusy hb (by simp) v).trans (if_pos hi)

theorem hostWrite_node {i : Nat} (hi : i < 511) (v : PortWord) : hostWrite s .node i v = .next s :=
  (hostWrite_of_notBusy hb (by simp) v).trans (if_pos hi)

/-- An index at or beyond the size of its space is refused, for a read and a write alike (R60). -/
theorem access_outOfRange {sp : Space} {i : Nat} (v : PortWord)
    (h : (sp = .input ∧ s.cap.inMax ≤ i) ∨ (sp = .output ∧ s.cap.outMax ≤ i) ∨ (sp = .bits ∧ s.cap.bsMax ≤ i) ∨
      (sp = .table ∧ 256 ≤ i) ∨ (sp = .freq ∧ 256 ≤ i) ∨ (sp = .node ∧ 511 ≤ i)) :
    hostRead s sp i = .refused .indexOutOfRange ∧ hostWrite s sp i v = .refused .indexOutOfRange := by
  have hcmd : ¬ (sp = .reg ∧ i = 0) := by
    rintro ⟨rfl, _⟩
    simp at h
  rw [hostRead_of_notBusy hb, hostWrite_of_notBusy hb hcmd]
  obtain ⟨rfl, hi⟩ | ⟨rfl, hi⟩ | ⟨rfl, hi⟩ | ⟨rfl, hi⟩ | ⟨rfl, hi⟩ | ⟨rfl, hi⟩ := h <;>
    simp [readElement, writeElement, not_lt.2 hi]

theorem access_reserved (i : Nat) (v : PortWord) :
    hostRead s .reserved i = .refused .reservedSpace ∧ hostWrite s .reserved i v = .refused .reservedSpace :=
  ⟨hostRead_of_notBusy hb _ _, hostWrite_of_notBusy hb (by simp) v⟩

end NotBusy

/-! ### What the elements of BS hold (R273) -/

/-- After bits are written an element holds the bit written, or what it held before. -/
theorem bufRead_writeBits (s : State) (i : Nat) (vs : List Bit) (j : Nat) :
    bufRead (heldBits (s.writeBits i vs).bsBuf (s.writeBits i vs).bsStale) j =
      if i ≤ j ∧ j < i + vs.length then vs[j - i]? else bufRead (heldBits s.bsBuf s.bsStale) j := by
  by_cases h : i ≤ j ∧ j < i + vs.length
  · obtain ⟨k, rfl⟩ := Nat.exists_eq_add_of_le h.1
    rw [if_pos h, memRead_getElem (memRead_writeBits s i vs) k (by omega), Nat.add_sub_cancel_left]
  · rw [if_neg h, bufRead_writeBits_outside s i vs j (by omega)]

/-- `t` is left by the end of a command, or by CLEAR, in `s`: BS keeps its contents, and the written elements at or beyond
the BS_LEN of `t` are recorded as unspecified (log 13). -/
structure EndOf (s t : State) : Prop where
  busy : t.busy = false
  bsBuf : t.bsBuf = s.bsBuf
  ended : t.ended = s.ended + 1
  bsStale : t.bsStale = (State.markStale { s with bsLen := t.bsLen }).bsStale

theorem EndOf.completeCommand (s : State) : EndOf s (completeCommand s) := ⟨rfl, rfl, rfl, rfl⟩

theorem EndOf.raiseError (s : State) (c : Command) (e : CodecError) : EndOf s (raiseError (some c) e s) := by
  cases c <;> exact ⟨rfl, rfl, rfl, rfl⟩

theorem EndOf.clearState (s : State) : EndOf s (clearState s) := ⟨rfl, rfl, rfl, rfl⟩

/-- The elements below BS_LEN hold what they held. -/
theorem EndOf.held_below (h : EndOf s t) {i : Nat} (hi : i < t.bsLen) :
    bufRead (heldBits t.bsBuf t.bsStale) i = bufRead (heldBits s.bsBuf s.bsStale) i := by
  have hrec : bufRead t.bsStale i = bufRead s.bsStale i := by
    rw [h.bsStale, bufRead_markStale]
    exact if_pos hi
  rw [bufRead_heldBits, bufRead_heldBits, h.bsBuf]
  unfold heldBit
  rw [hrec]

/-- A written element at or beyond BS_LEN holds a free bit. -/
theorem EndOf.held_beyond (h : EndOf s t) {i : Nat} (hi : t.bsLen ≤ i) {b : Bit} (hb : bufRead t.bsBuf i = some b) :
    bufRead (heldBits t.bsBuf t.bsStale) i = some (Config.staleBit s.ended i) := by
  rw [h.bsBuf] at hb
  rw [h.bsBuf, h.bsStale]
  exact (bufRead_markStale_beyond { s with bsLen := t.bsLen } hi).trans (congrArg _ hb)

/-- Settles O20: the accesses space by space, then the bits written and the end of a command. -/
theorem hostAccesses : Obligations.HostAccesses := by
  refine ⟨fun s hb => ⟨fun i b hi hr => ?_, fun i hi hr => ?_, fun i b hi hlen hr => ?_, fun i hi hr => ?_,
    fun i b hi hlen => hostRead_bits_held hb hi hlen, fun i hi hr => ?_, hostRead_table hb, hostRead_freq hb,
    hostRead_node hb,
    fun v hv => (hostWrite_reg hb (by decide) v).trans (writeReg_inLen hv), fun v => hostWrite_inLen_above hb,
    fun v hv => (hostWrite_reg hb (by decide) v).trans (writeReg_bsLen hv), fun v => hostWrite_bsLen_above hb,
    fun i v hi => hostWrite_input hb hi v, fun i v hi => hostWrite_bits hb hi v, hostWrite_table hb,
    fun i v hi => hostWrite_output hb hi v, fun i v hi => hostWrite_freq hb hi v,
    fun i v hi => hostWrite_node hb hi v, fun sp i v => access_outOfRange hb v, access_reserved hb⟩,
    fun s i vs j => ⟨rfl, bufRead_writeBits s i vs j⟩, fun s t ht => ?_⟩
  · rw [hostRead_input hb hi, hr, byteAnswer]
  · rw [hostRead_input hb hi, hr, byteAnswer]
  · rw [hostRead_output hb hi hlen, hr, byteAnswer]
  · by_cases hlen : i < s.outLen
    · rw [hostRead_output hb hi hlen, hr.resolve_left (not_le.2 hlen), byteAnswer]
    · exact hostRead_output_beyond hb hi (not_lt.1 hlen)
  · by_cases hlen : i < s.bsLen
    · rw [hostRead_bits hb hi hlen, bufRead_heldBits, hr.resolve_left (not_le.2 hlen), Option.map_none, bitAnswer]
    · exact hostRead_bits_beyond hb hi (not_lt.1 hlen)
  · have hend : EndOf s t := by
      obtain rfl | ⟨c, e, rfl⟩ | rfl := ht
      exacts [.completeCommand s, .raiseError s c e, .clearState s]
    refine ⟨hend.bsBuf, hend.ended, fun i => hend.held_below, fun i v b hi hv hcap hr => ?_⟩
    have hheld := hend.held_beyond hi hr
    refine ⟨hostRead_bits_held (s := { t with bsLen := v }) hend.busy (hv.trans_le hcap) hv hheld, ?_⟩
    intro bits hbits
    have hget := memRead_getElem (i := 0) hbits i hv
    rw [Nat.zero_add] at hget
    exact hget.symm.trans hheld

end Accesses

section EncoderRuns

variable {s t u : State}

/-! ### Chains of phases (R111, R112) -/

/-- The sequencer comes from `s` to `t` in `k` phases, whatever runs after them. -/
def Reaches (s : State) (k : Nat) (t : State) : Prop := ∀ m, runPhases (m + k) s = runPhases m t

theorem Reaches.phase (h : phaseStep s = .next t) : Reaches s 1 t := runPhases_next h

theorem Reaches.trans {j k : Nat} (h : Reaches s j t) (h' : Reaches t k u) : Reaches s (k + j) u := fun m => by
  rw [← Nat.add_assoc, h, h']

/-- A chain of at most `maxPhases` phases that ends in IDLE is the whole run of the command (R115). -/
theorem Reaches.runCommand_eq {k : Nat} (h : Reaches s k t) (ht : t.phase = .idle) (hk : k ≤ maxPhases) :
    runCommand s = .next t := by
  rw [runCommand, ← Nat.sub_add_cancel hk, h, runPhases_idle ht]

/-! ### COMPRESS and ENCODE (R105, R106) -/

/-- The encoder once EMIT has written the bitstream, before what follows EMIT begins. -/
def emitted (c : Command) (s : State) (bytes : List Byte) (t : Forest) (root : NodeId) (tbl : CodeTable)
    (bits : List Bit) : State :=
  { s.encoded bytes t root tbl bits with phase := .emit, running := some c, busy := true, done := false }

theorem bitstream_encoded (s : State) (bytes : List Byte) (t : Forest) (root : NodeId) (tbl : CodeTable)
    (bits : List Bit) : bitstream (s.encoded bytes t root tbl bits) = some bits :=
  bitstream_of_writeBits (s := s.completed) rfl rfl rfl

theorem packBits_overflow {bits : List Bit} (h : 255 < leadingZeros (padBits bits)) :
    packBits bits = .error .headerOverflow := if_pos h

theorem packBits_fits {bits : List Bit} (h : leadingZeros (padBits bits) ≤ 255) :
    packBits bits = .ok (containerBytes (padCount bits.length) (leadingZeros (padBits bits)) bits) :=
  if_neg (not_lt.2 h)

/-- PADLZC on a readable bitstream. -/
theorem phasePadlzc_readable {bits : List Bit} (hb : bitstream s = some bits) :
    (255 < leadingZeros (padBits bits) ∧ phasePadlzc s = .next (raiseError s.running .headerOverflow
      { s with pad := padCount bits.length, lzc := leadingZeros (padBits bits) })) ∨
    (leadingZeros (padBits bits) ≤ 255 ∧ phasePadlzc s =
      .next { s with pad := padCount bits.length, lzc := leadingZeros (padBits bits), phase := .pack }) := by
  rcases phasePadlzc_cases s with ⟨hn, _⟩ | ⟨bits', hb', h⟩
  · simp [hb] at hn
  · obtain rfl : bits = bits' := Option.some.inj (hb.symm.trans hb')
    exact h

/-- PACK on a readable bitstream. -/
theorem phasePack_readable {bits : List Bit} (hb : bitstream s = some bits) :
    phasePack s = .next (completeCommand { s with
      outBuf := memWrite s.outBuf 0 (containerBytes s.pad s.lzc bits),
      outLen := (containerBytes s.pad s.lzc bits).length }) := by
  rcases phasePack_cases s with ⟨hn, _⟩ | ⟨bits', hb', h⟩
  · simp [hb] at hn
  · obtain rfl : bits = bits' := Option.some.inj (hb.symm.trans hb')
    exact h

/-- The code of the only symbol of an input is empty: the tree is one leaf (R168). -/
theorem codeBits_of_single_leaf {f : FreqFile} {t : Forest} (hg : t.Good f 1) {root : NodeId} (hr : t.pq = [root])
    {tbl : CodeTable} (htbl : tbl.OfTree t.node root) {sym : Byte} (hv : (tbl.at sym).v = true) :
    codeBits (tbl.at sym) = [] := by
  have hbal := hg.balance
  have hlt := hg.live_lt root (by simp [hr])
  have hcode := htbl.code hv
  simp only [hr, List.length_singleton] at hbal
  have hleaf : (t.node.at root).leaf = true := (hg.isLeaf root hlt).2 (by omega)
  generalize codeBits (tbl.at sym) = code at *
  cases hcode with
  | here => rfl
  | left _ hl _ => rw [hleaf] at hl; cases hl
  | right _ hl _ => rw [hleaf] at hl; cases hl

/-- What the encoder computes from a non-empty input: the table of its tree, and the codes of its bytes. -/
theorem encodeBytes_input {bytes : List Byte} (hne : bytes ≠ []) :
    ∃ (t : Forest) (root : NodeId) (tbl : CodeTable), t.Good (freqOf bytes) (symbolCount bytes) ∧ t.pq = [root] ∧
      tbl.OfTree t.node root ∧ (∀ b ∈ bytes, (tbl.at b).v = true) ∧
      encodeBytes bytes = some (.ok (bytes.flatMap fun b => codeBits (tbl.at b), tbl)) := by
  obtain ⟨t, root, leaves, ht, hr, hleaves, htab, hval⟩ := tableOf_input hne
  obtain ⟨t', _, ht', _, hg, _⟩ := treeOf_input hne
  obtain rfl := Except.ok.inj (ht.symm.trans ht')
  have henc := (encodeSymbols_eq _ bytes _).2 ⟨hval, rfl⟩
  exact ⟨t, root, _, hg, hr, writeCodes_ofTree hleaves, hval, by simp only [encodeBytes, htab, henc]⟩

/-- The bitstream of an input of one symbol is empty (R168, R169). -/
theorem symbolCount_ne_one_of_bits {bytes : List Byte} (hne : bytes ≠ []) {bits : List Bit} {tbl : CodeTable}
    (henc : encodeBytes bytes = some (.ok (bits, tbl))) (hbits : bits ≠ []) : symbolCount bytes ≠ 1 := by
  intro h1
  obtain ⟨t, root, tbl', hg, hr, htbl, hval, henc'⟩ := encodeBytes_input hne
  rw [h1] at hg
  rw [henc] at henc'
  obtain ⟨rfl, rfl⟩ := Prod.mk.inj (Except.ok.inj (Option.some.inj henc'))
  exact hbits (List.flatMap_eq_nil_iff.2 fun b hb => codeBits_of_single_leaf hg hr htbl (hval b hb))

/-- Settles O53: `runPhases_encoder` runs the phases to EMIT, after which ENCODE is complete. -/
theorem encodeRuns : Obligations.EncodeRuns := by
  intro s bytes hb hin hne
  obtain ⟨t, root, tbl, bits, ht, hr, henc, hval, hbits, k, hk, hrun⟩ := runPhases_encoder .encode hin hne
  have hreach : Reaches (startEncoder .encode s) k (s.encoded bytes t root tbl bits).markStale := hrun
  exact ⟨t, root, tbl, bits, _, ht, hr, henc, hval, hbits, acceptCommand_of_notBusy hb _,
    hreach.runCommand_eq rfl (hk.trans (by decide))⟩

/-- Settles O52: `runPhases_encoder` runs the phases to EMIT; PADLZC then raises HeaderOverflowError, or PACK writes the
container. -/
theorem compressRuns : Obligations.CompressRuns := by
  intro s bytes hb hin hne
  obtain ⟨t, root, tbl, bits, ht, hr, henc, _, _, k, hk, hrun⟩ := runPhases_encoder .compress hin hne
  have hreach : Reaches (startEncoder .compress s) k
      { emitted .compress s bytes t root tbl bits with phase := .padlzc } := hrun
  have hread : bitstream { emitted .compress s bytes t root tbl bits with phase := .padlzc } = some bits :=
    bitstream_encoded s bytes t root tbl bits
  have hmax : 1 + (1 + k) ≤ maxPhases := by simp only [maxPhases]; omega
  refine ⟨t, root, tbl, bits, _, ht, hr, henc, acceptCommand_of_notBusy hb _, ?_⟩
  rcases phasePadlzc_readable hread with ⟨hlz, hpad⟩ | ⟨hlz, hpad⟩
  · have hdegen : (symbolCount bytes == 1) = false := by
      have hbits : bits ≠ [] := by rintro rfl; exact absurd hlz (by decide)
      exact beq_eq_false_iff_ne.2 (symbolCount_ne_one_of_bits hne henc hbits)
    rw [packBits_overflow hlz]
    refine ⟨fun out hout => (nomatch hout), fun e he => ?_⟩
    obtain rfl := Except.error.inj he
    refine ⟨rfl, by simp only [compressBytes, henc, packBits_overflow hlz], ?_⟩
    rw [(hreach.trans (.phase hpad)).runCommand_eq rfl (by omega), ← hdegen]
    rfl
  · have hpack := phasePack_readable (s := { emitted .compress s bytes t root tbl bits with
      pad := padCount bits.length, lzc := leadingZeros (padBits bits), phase := .pack }) hread
    rw [packBits_fits hlz]
    refine ⟨fun out hout => ?_, fun e he => (nomatch he)⟩
    obtain rfl := Except.ok.inj hout
    refine ⟨by simp only [compressBytes, henc, packBits_fits hlz], ?_⟩
    rw [((hreach.trans (.phase hpad)).trans (.phase hpack)).runCommand_eq rfl hmax]
    rfl

end EncoderRuns

section DecoderRuns

variable {s : State} {bits : List Bit} {tbl : CodeTable}

/-! ### The outcomes of the decoder (R112) -/

/-- INVERT finds a duplicate, or the scan says how the decoder ends. -/
theorem decodeBits_cases (bits : List Bit) (tbl : CodeTable) :
    (hasDuplicate tbl = true ∧ decodeBits bits tbl = .error .duplicateCode) ∨
      (hasDuplicate tbl = false ∧ ∃ out cand, scanBits (validCodes tbl) [] bits = (out, cand) ∧
        decodeBits bits tbl = if cand = [] then .ok out else .error .incompleteCode) := by
  cases hd : hasDuplicate tbl with
  | true => exact .inl ⟨rfl, if_pos hd⟩
  | false => exact .inr ⟨rfl, _, _, rfl, by rw [decodeBits, hd, if_neg Bool.false_ne_true]⟩

theorem hasDuplicate_of_duplicateCode (h : decodeBits bits tbl = .error .duplicateCode) : hasDuplicate tbl = true := by
  rcases decodeBits_cases bits tbl with ⟨hd, _⟩ | ⟨_, out, cand, _, he⟩
  · exact hd
  · rw [h] at he
    split at he <;> cases he

theorem scan_of_incompleteCode (h : decodeBits bits tbl = .error .incompleteCode) :
    hasDuplicate tbl = false ∧ ∃ out cand, scanBits (validCodes tbl) [] bits = (out, cand) ∧ cand ≠ [] := by
  rcases decodeBits_cases bits tbl with ⟨_, he⟩ | ⟨hd, out, cand, hscan, he⟩
  · rw [h] at he
    cases he
  · refine ⟨hd, out, cand, hscan, fun hnil => ?_⟩
    rw [h, if_pos hnil] at he
    cases he

theorem scan_of_decoded {out : List Byte} (h : decodeBits bits tbl = .ok out) :
    hasDuplicate tbl = false ∧ scanBits (validCodes tbl) [] bits = (out, []) := by
  rcases decodeBits_cases bits tbl with ⟨_, he⟩ | ⟨hd, out', cand, hscan, he⟩
  · rw [h] at he
    cases he
  · rw [h] at he
    split at he <;> cases he
    next hnil => exact ⟨hd, by rw [hscan, hnil]⟩

theorem decodeBits_error {e : CodecError} (h : decodeBits bits tbl = .error e) :
    e = .duplicateCode ∨ e = .incompleteCode := by
  rcases decodeBits_cases bits tbl with ⟨_, he⟩ | ⟨_, out, cand, _, he⟩
  · exact .inl (Except.error.inj (h.symm.trans he))
  · rw [h] at he
    split at he <;> cases he
    exact .inr rfl

/-- The empty bitstream decodes to no bytes (R108). -/
theorem decodeBits_nil (hd : hasDuplicate tbl = false) : decodeBits [] tbl = .ok [] := by
  rw [decodeBits, hd]
  rfl

/-! ### INVERT and SCAN (R190, R193) -/

/-- The decoder once SCAN has written the symbols and the candidate left. -/
def decoded (s : State) (out : List Byte) (cand : List Bit) : State :=
  { s with phase := .scan, outBuf := memWrite s.outBuf 0 out, outLen := out.length, cand := cand,
           candLen := cand.length }

/-- SCAN on a readable bitstream, from no output and no candidate. -/
theorem phaseStep_scan (ho : s.outLen = 0) (hc : s.cand = []) (hb : bitstream s = some bits) {out : List Byte}
    {cand : List Bit} (hscan : scanBits (validCodes s.ct) [] bits = (out, cand)) :
    phaseStep { s with phase := .scan } = .next (if cand = [] then completeCommand (decoded s out cand)
      else raiseError s.running .incompleteCode (decoded s out cand)) := by
  have hread : bitstream { s with phase := .scan } = some bits := hb
  have hs : scanned { s with phase := .scan } bits = decoded s out cand := by
    simp [scanned, decoded, ho, hc, hscan]
  rw [← hs, phaseStep]
  rcases phaseScan_cases { s with phase := .scan } with ⟨hn, _⟩ | ⟨bits', hread', hcase⟩
  · simp [hread] at hn
  · obtain rfl : bits = bits' := Option.some.inj (hread.symm.trans hread')
    have hcand : (scanBits (validCodes s.ct) s.cand bits).2 = cand := by rw [hc, hscan]
    rw [hcand] at hcase
    rcases hcase with ⟨hnil, he⟩ | ⟨hne, he⟩
    · rw [he, if_pos hnil]
    · rw [he, if_neg hne]

theorem reaches_duplicate (hp : s.phase = .invert) (h : decodeBits bits s.ct = .error .duplicateCode) :
    Reaches s 1 (raiseError s.running .duplicateCode s) := by
  refine .phase ?_
  rw [phaseStep, hp]
  exact if_pos (hasDuplicate_of_duplicateCode h)

/-- INVERT and SCAN, when the table has no duplicate. -/
theorem reaches_scanned (hp : s.phase = .invert) (ho : s.outLen = 0) (hc : s.cand = []) (hb : bitstream s = some bits)
    (hd : hasDuplicate s.ct = false) {out : List Byte} {cand : List Bit}
    (hscan : scanBits (validCodes s.ct) [] bits = (out, cand)) :
    Reaches s 2 (if cand = [] then completeCommand (decoded s out cand)
      else raiseError s.running .incompleteCode (decoded s out cand)) := by
  have hinvert : phaseStep s = .next { s with phase := .scan } := by
    rw [phaseStep, hp]
    exact if_neg (by simp [hd])
  exact (Reaches.phase hinvert).trans (.phase (phaseStep_scan ho hc hb hscan))

theorem reaches_incomplete (hp : s.phase = .invert) (ho : s.outLen = 0) (hc : s.cand = [])
    (hb : bitstream s = some bits) (h : decodeBits bits s.ct = .error .incompleteCode) :
    ∃ out cand, scanBits (validCodes s.ct) [] bits = (out, cand) ∧ cand ≠ [] ∧
      Reaches s 2 (raiseError s.running .incompleteCode (decoded s out cand)) := by
  obtain ⟨hd, out, cand, hscan, hcand⟩ := scan_of_incompleteCode h
  have hreach := reaches_scanned hp ho hc hb hd hscan
  rw [if_neg hcand] at hreach
  exact ⟨out, cand, hscan, hcand, hreach⟩

theorem reaches_decoded (hp : s.phase = .invert) (ho : s.outLen = 0) (hc : s.cand = [])
    (hb : bitstream s = some bits) {out : List Byte} (h : decodeBits bits s.ct = .ok out) :
    Reaches s 2 (completeCommand (decoded s out [])) := by
  obtain ⟨hd, hscan⟩ := scan_of_decoded h
  have hreach := reaches_scanned hp ho hc hb hd hscan
  rwa [if_pos rfl] at hreach

/-- Settles O55: DECODE is INVERT and SCAN, in each of the decoder's outcomes. -/
theorem decodeRuns : Obligations.DecodeRuns := by
  intro s bits hb hbits
  have hread : bitstream (startDecode s) = some bits := hbits
  refine ⟨_, acceptCommand_of_notBusy hb _, fun h => ?_, fun h => ?_, fun out h => ?_, fun e => decodeBits_error, ?_⟩
  · exact (reaches_duplicate (s := startDecode s) rfl h).runCommand_eq rfl (by decide)
  · obtain ⟨out, cand, hscan, hcand, hreach⟩ := reaches_incomplete (s := startDecode s) rfl rfl rfl hread h
    exact ⟨out, cand, hscan, hcand, hreach.runCommand_eq rfl (by decide)⟩
  · exact (reaches_decoded (s := startDecode s) rfl rfl rfl hread h).runCommand_eq rfl (by decide)
  · rintro rfl hd
    exact decodeBits_nil hd

/-! ### HEADER and UNPACK (R180 to R185) -/

/-- DECOMPRESS once HEADER has read the two bytes of the header. -/
def headerRead (s : State) (b0 b1 : Byte) : State :=
  { startDecompress s with pad := b0.toNat, lzc := b1.toNat, phase := .unpack }

/-- DECOMPRESS once UNPACK has rebuilt the bitstream. -/
def unpackedBits (s : State) (b0 b1 : Byte) (bits : List Bit) : State :=
  { (headerRead s b0 b1).writeBits 0 bits with bsLen := bits.length, phase := .invert }

theorem bitstream_unpackedBits (s : State) (b0 b1 : Byte) (bits : List Bit) :
    bitstream (unpackedBits s b0 b1 bits) = some bits := bitstream_of_writeBits (s := headerRead s b0 b1) rfl rfl rfl

theorem unpackedBits_ct (s : State) (b0 b1 : Byte) (bits : List Bit) : (unpackedBits s b0 b1 bits).ct = s.ct := rfl

/-- The unpacker on a container with a header: its pad count is too large, its payload has too few bits, or its bits are
restored (R239). -/
theorem unpackBits_cases (b0 b1 : Byte) (payload : List Byte) :
    (7 < b0.toNat ∧ unpackBits (b0 :: b1 :: payload) = .error .containerFormat) ∨
      (b0.toNat ≤ 7 ∧ restoreBits b0.toNat b1.toNat (minimalBits (payloadBits payload)) = none ∧
        unpackBits (b0 :: b1 :: payload) = .error .containerFormat) ∨
      (b0.toNat ≤ 7 ∧ ∃ bits, restoreBits b0.toNat b1.toNat (minimalBits (payloadBits payload)) = some bits ∧
        unpackBits (b0 :: b1 :: payload) = .ok bits) := by
  by_cases h : 7 < b0.toNat
  · exact .inl ⟨h, if_pos h⟩
  · have hle := not_lt.1 h
    cases hr : restoreBits b0.toNat b1.toNat (minimalBits (payloadBits payload)) with
    | none => exact .inr (.inl ⟨hle, rfl, by simp [unpackBits, Config.padMax, h, hr]⟩)
    | some bits => exact .inr (.inr ⟨hle, bits, rfl, by simp [unpackBits, Config.padMax, h, hr]⟩)

/-- HEADER on a container with a header (R181). -/
theorem phaseHeader_readable {b0 b1 : Byte} {payload : List Byte}
    (hin : inputBytes s = some (b0 :: b1 :: payload)) :
    (7 < b0.toNat ∧ phaseHeader s =
      .next (raiseError s.running .containerFormat { s with pad := b0.toNat, lzc := b1.toNat })) ∨
    (b0.toNat ≤ 7 ∧ phaseHeader s = .next { s with pad := b0.toNat, lzc := b1.toNat, phase := .unpack }) := by
  rcases phaseHeader_cases s with ⟨hn, _⟩ | ⟨bytes, hin', hlen, _⟩ | ⟨c0, c1, rest, hin', h⟩
  · simp [hin] at hn
  · rw [← Option.some.inj (hin.symm.trans hin')] at hlen
    exact absurd hlen (by simp)
  · obtain ⟨rfl, rfl, rfl⟩ : b0 = c0 ∧ b1 = c1 ∧ payload = rest := by simpa [hin] using hin'
    exact h

/-- HEADER on a container without a header (R181). -/
theorem phaseHeader_short {bytes : List Byte} (hin : inputBytes s = some bytes) (hlen : bytes.length < 2) :
    phaseHeader s = .next (raiseError s.running .containerFormat s) := by
  rcases phaseHeader_cases s with ⟨hn, _⟩ | ⟨_, _, _, h⟩ | ⟨c0, c1, rest, hin', _⟩
  · simp [hin] at hn
  · exact h
  · obtain rfl := Option.some.inj (hin.symm.trans hin')
    simp at hlen

/-- UNPACK on a readable container, PAD and LZC as HEADER read them. -/
theorem phaseUnpack_readable {bytes : List Byte} (hin : inputBytes s = some bytes) :
    (restoreBits s.pad s.lzc (minimalBits (payloadBits (bytes.drop 2))) = none ∧
      phaseUnpack s = .next (raiseError s.running .containerFormat s)) ∨
    ∃ bits, restoreBits s.pad s.lzc (minimalBits (payloadBits (bytes.drop 2))) = some bits ∧
      phaseUnpack s = .next { s.writeBits 0 bits with bsLen := bits.length, phase := .invert } := by
  rcases phaseUnpack_cases s with ⟨hn, _⟩ | ⟨bytes', hin', h⟩
  · simp [hin] at hn
  · obtain rfl : bytes = bytes' := Option.some.inj (hin.symm.trans hin')
    exact h

section Container

variable {b0 b1 : Byte} {payload : List Byte} (hin : inputBytes s = some (b0 :: b1 :: payload))
include hin

/-- DECOMPRESS of a container the unpacker rejects: HEADER or UNPACK raises ContainerFormatError. -/
theorem reaches_containerFormat {e : CodecError} (h : unpackBits (b0 :: b1 :: payload) = .error e) :
    ∃ k, k ≤ 2 ∧
      Reaches (startDecompress s) k (raiseError (some .decompress) .containerFormat (headerRead s b0 b1)) := by
  have hread : inputBytes (startDecompress s) = some (b0 :: b1 :: payload) := hin
  rcases phaseHeader_readable hread with ⟨hpad, hh⟩ | ⟨hpad, hh⟩
  · exact ⟨1, by decide, .phase hh⟩
  · have hread' : inputBytes (headerRead s b0 b1) = some (b0 :: b1 :: payload) := hin
    have hheader : Reaches (startDecompress s) 1 (headerRead s b0 b1) := .phase hh
    refine ⟨2, le_refl 2, hheader.trans (.phase ?_)⟩
    rcases phaseUnpack_readable hread' with ⟨_, hu⟩ | ⟨bits, hres, _⟩
    · exact hu
    · rcases unpackBits_cases b0 b1 payload with ⟨hgt, _⟩ | ⟨_, hnone, _⟩ | ⟨_, bits', _, hok⟩
      · omega
      · exact absurd (hres.symm.trans hnone) (by simp)
      · rw [h] at hok
        cases hok

theorem runCommand_rejected {e : CodecError} (h : unpackBits (b0 :: b1 :: payload) = .error e) :
    runCommand (startDecompress s) = .next (State.failed
      { s.completed with bsLen := 0, pad := b0.toNat, lzc := b1.toNat } .containerFormat).markStale := by
  obtain ⟨k, hk, hreach⟩ := reaches_containerFormat hin h
  exact hreach.runCommand_eq rfl (hk.trans (by decide))

/-- DECOMPRESS of a container the unpacker accepts: HEADER and UNPACK rebuild the bitstream. -/
theorem reaches_unpacked (h : unpackBits (b0 :: b1 :: payload) = .ok bits) :
    Reaches (startDecompress s) 2 (unpackedBits s b0 b1 bits) := by
  have hread : inputBytes (startDecompress s) = some (b0 :: b1 :: payload) := hin
  have hread' : inputBytes (headerRead s b0 b1) = some (b0 :: b1 :: payload) := hin
  rcases unpackBits_cases b0 b1 payload with ⟨_, he⟩ | ⟨_, _, he⟩ | ⟨hpad, bits', hres, he⟩ <;>
    rw [h] at he <;> cases he
  rcases phaseHeader_readable hread with ⟨hgt, _⟩ | ⟨_, hh⟩
  · omega
  · have hheader : Reaches (startDecompress s) 1 (headerRead s b0 b1) := .phase hh
    refine hheader.trans (.phase ?_)
    rcases phaseUnpack_readable hread' with ⟨hnone, _⟩ | ⟨bits', hsome, hu⟩
    · exact absurd (hres.symm.trans hnone) (by simp)
    · obtain rfl : bits = bits' := Option.some.inj (hres.symm.trans hsome)
      exact hu

end Container

/-- Settles O54: a container without a header stops at HEADER, one the unpacker rejects at HEADER or UNPACK; after UNPACK
DECOMPRESS goes on as DECODE does. -/
theorem decompressRuns : Obligations.DecompressRuns := by
  intro s bytes hb hin
  refine ⟨_, acceptCommand_of_notBusy hb _, fun hlen => ?_, ?_⟩
  · have hheader := phaseHeader_short (s := startDecompress s) hin hlen
    exact (Reaches.phase (s := startDecompress s) hheader).runCommand_eq rfl (by decide)
  · rintro b0 b1 payload read rfl rfl
    refine ⟨fun hpad => runCommand_rejected hin (if_pos hpad), fun e => runCommand_rejected hin, ?_⟩
    rintro bits unpacked h rfl
    have hreach := reaches_unpacked hin h
    have hread := bitstream_unpackedBits s b0 b1 bits
    rw [← unpackedBits_ct s b0 b1 bits]
    refine ⟨fun hd => ?_, fun hd => ?_, fun out hd => ?_, fun e => decodeBits_error⟩
    · have hreach' := reaches_duplicate (s := unpackedBits s b0 b1 bits) rfl hd
      rw [(hreach.trans hreach').runCommand_eq rfl (by decide)]
      rfl
    · obtain ⟨out, cand, hscan, hcand, hreach'⟩ := reaches_incomplete rfl rfl rfl hread hd
      refine ⟨out, cand, hscan, hcand, ?_⟩
      rw [(hreach.trans hreach').runCommand_eq rfl (by decide)]
      rfl
    · have hreach' := reaches_decoded rfl rfl rfl hread hd
      refine ⟨by simp only [decompressBytes, h, hd], ?_⟩
      rw [(hreach.trans hreach').runCommand_eq rfl (by decide)]
      rfl

end DecoderRuns

section RoundTrip

variable {s t : State} {bytes : List Byte} {bits : List Bit} {tbl : CodeTable}

/-! ### Decoding the codes of a `PrefixFree` table (R200) -/

/-- What begins a valid code and is not all of it is no valid code, so the inverse table does not know it. -/
theorem inverseCode_of_begins (hp : tbl.PrefixFree) {b : Byte} (hv : (tbl.at b).v = true) {v : List Bit}
    (hpre : v <+: codeBits (tbl.at b)) (hne : v ≠ codeBits (tbl.at b)) : inverseCode (validCodes tbl) v = none := by
  refine inverseCode_none.2 fun a ha => ?_
  obtain ⟨hav, rfl⟩ := (mem_validCodes tbl a v).1 ha
  exact hp a b hav hv (by rintro rfl; exact hne rfl) hpre

theorem scanBits_codes (hp : tbl.PrefixFree)
    (hv : ∀ b ∈ bytes, (tbl.at b).v = true ∧ codeBits (tbl.at b) ≠ []) :
    scanBits (validCodes tbl) [] (bytes.flatMap fun b => codeBits (tbl.at b)) = (bytes, []) := by
  induction bytes with
  | nil => rfl
  | cons b bytes ih =>
    obtain ⟨⟨hb, hne⟩, hrest⟩ := List.forall_mem_cons.1 hv
    rw [List.flatMap_cons, scanBits_code [] _ _ hne (fun v => inverseCode_of_begins hp hb)
      (inverseCode_code hp.hasDuplicate hb), ih hrest]

/-- A `PrefixFree` table decodes the concatenation of non-empty valid codes to their symbols. -/
theorem decodeBits_codes (hp : tbl.PrefixFree)
    (hv : ∀ b ∈ bytes, (tbl.at b).v = true ∧ codeBits (tbl.at b) ≠ []) :
    decodeBits (bytes.flatMap fun b => codeBits (tbl.at b)) tbl = .ok bytes := by
  rw [decodeBits, hp.hasDuplicate, scanBits_codes hp hv]
  rfl

theorem symbolCount_nil : symbolCount [] = 0 := by
  simp [symbolCount, presentSymbols, freqOf_at]

/-- An input with at least two symbols holds two different bytes. -/
theorem exists_ne_of_symbolCount (h : 2 ≤ symbolCount bytes) : ∃ a ∈ bytes, ∃ b ∈ bytes, a ≠ b := by
  have hnd : (presentSymbols (freqOf bytes)).Nodup := allSymbols_nodup.filter _
  have hmem : ∀ x ∈ presentSymbols (freqOf bytes), x ∈ bytes := fun x hx => by
    rw [mem_presentSymbols, freqOf_at] at hx
    exact List.count_pos_iff.1 hx
  rw [symbolCount] at h
  match hl : presentSymbols (freqOf bytes) with
  | [] | [_] => simp [hl] at h
  | a :: b :: rest =>
    rw [hl] at hnd hmem
    exact ⟨a, hmem a (by simp), b, hmem b (by simp), fun hab => by simp [hab] at hnd⟩

/-- What the encoder makes of an input with at least two symbols, the decoder gives back (R219). -/
theorem decodeBits_encodeBytes (h : 2 ≤ symbolCount bytes) (henc : encodeBytes bytes = some (.ok (bits, tbl))) :
    decodeBits bits tbl = .ok bytes := by
  have hne : bytes ≠ [] := by
    rintro rfl
    rw [symbolCount_nil] at h
    omega
  obtain ⟨_, _, tbl', _, _, htbl, hval, henc'⟩ := encodeBytes_input hne
  obtain ⟨rfl, rfl⟩ := Prod.mk.inj (Except.ok.inj (Option.some.inj (henc.symm.trans henc')))
  obtain ⟨a, ha, b, hb, hab⟩ := exists_ne_of_symbolCount h
  have hcodes := htbl.nonEmpty (hval a ha) (hval b hb) hab
  exact decodeBits_codes htbl.prefixFree fun x hx => ⟨hval x hx, hcodes x (hval x hx)⟩

/-! ### Unpacking what was packed (R187) -/

/-- Taking the padding off again needs no more bits than there are: where the padded bitstream has a 1, the bitstream
has it, and the padding comes after it. -/
theorem padCount_le_minimalBits (h : minimalBits (padBits bits) ≠ []) :
    padCount bits.length ≤ (minimalBits (padBits bits)).length := by
  have hbits : minimalBits bits ≠ [] := by
    rw [Ne, minimalBits_eq_nil_iff] at h ⊢
    refine fun hzero => h fun b hb => ?_
    rcases List.mem_append.1 hb with hb | hb
    · exact hzero b hb
    · exact List.eq_of_mem_replicate hb
  rw [padBits, minimalBits_append_of_ne _ hbits]
  simp

/-- Steps 3 and 4 of UNPACK undo the padding and the loss of the leading zeros (R184). -/
theorem restoreBits_padBits (bits : List Bit) :
    restoreBits (padCount bits.length) (leadingZeros (padBits bits)) (minimalBits (padBits bits)) = some bits := by
  have hfew : ¬ (minimalBits (padBits bits) ≠ [] ∧ (minimalBits (padBits bits)).length < padCount bits.length) :=
    fun ⟨hne, hlt⟩ => absurd (padCount_le_minimalBits hne) (by omega)
  rw [restoreBits, if_neg hfew]
  simp [replicate_append_minimalBits, padBits]

/-- The unpacker undoes the packer. -/
theorem unpackBits_packBits {container : List Byte} (h : packBits bits = .ok container) :
    unpackBits container = .ok bits := by
  have hpad := padCount_le bits.length
  have hpayload : payloadBits (packBytes (padBits bits)) = padBits bits :=
    payloadBits_packBytes _ (by rw [padBits_length, add_padCount_mod])
  by_cases hlz : 255 < leadingZeros (padBits bits)
  · rw [packBits_overflow hlz] at h
    cases h
  · rw [packBits_fits (not_lt.1 hlz)] at h
    obtain rfl := Except.ok.inj h
    have hb0 : (BitVec.ofNat 8 (padCount bits.length)).toNat = padCount bits.length := by
      rw [BitVec.toNat_ofNat, Nat.mod_eq_of_lt (by omega)]
    have hb1 : (BitVec.ofNat 8 (leadingZeros (padBits bits))).toNat = leadingZeros (padBits bits) := by
      rw [BitVec.toNat_ofNat, Nat.mod_eq_of_lt (by omega)]
    rw [containerBytes, unpackBits, hb0, hb1, hpayload, restoreBits_padBits, if_neg (by simp [Config.padMax]; omega)]

/-! ### The encoder on the empty input (R120, R130) -/

/-- No symbol is present, so LEAVES inserts none. -/
theorem insertLeaves_zero (syms : List Byte) (f : Forest) : insertLeaves FreqFile.zero syms f = .ok f := by
  induction syms with
  | nil => rfl
  | cons sym syms ih => simp [insertLeaves, ih]

/-- COUNT and LEAVES on the empty input: EmptyInputError. -/
theorem reaches_emptyInput (c : Command) (hin : inputBytes s = some []) :
    Reaches (startEncoder c s) 2 (raiseError (some c) .emptyInput { startEncoder c s with phase := .leaves }) := by
  have hcount : phaseStep (startEncoder c s) = .next { startEncoder c s with phase := .leaves } := by
    have hread : inputBytes (startEncoder c s) = some [] := hin
    rw [phaseStep, startEncoder_phase, phaseCount, hread]
    rfl
  have hleaves : phaseStep { startEncoder c s with phase := .leaves } =
      .next (raiseError (some c) .emptyInput { startEncoder c s with phase := .leaves }) := by
    have hnone : insertLeaves FreqFile.zero allSymbols Forest.empty = .ok Forest.empty := insertLeaves_zero _ _
    rcases phaseLeaves_cases { startEncoder c s with phase := .leaves } with ⟨e, he, _⟩ | ⟨f, hf, hcase⟩
    · cases hnone.symm.trans he
    · obtain rfl := Except.ok.inj (hnone.symm.trans hf)
      rcases hcase with ⟨_, he⟩ | ⟨hne, _⟩
      · exact he
      · exact absurd rfl hne
  exact (Reaches.phase hcount).trans (.phase hleaves)

/-- An encoder that ended without an error had a non-empty input. -/
theorem input_ne_nil_of_encoder (c : Command) (hin : inputBytes s = some bytes)
    (hrun : runCommand (startEncoder c s) = .next t) (herr : t.err = false) : bytes ≠ [] := by
  rintro rfl
  have hfail := (reaches_emptyInput c hin).runCommand_eq (raiseError_phase _ _ _) (by decide)
  obtain rfl := Host.Outcome.next.inj (hrun.symm.trans hfail)
  rw [raiseError_err] at herr
  cases herr

theorem two_le_symbolCount (hne : bytes ≠ []) (h1 : (symbolCount bytes == 1) = false) : 2 ≤ symbolCount bytes := by
  obtain ⟨_, _, _, _, hpos, _⟩ := leaves_of_input hne
  have := beq_eq_false_iff_ne.1 h1
  omega

/-! ### The round trip on the block (R210, R219) -/

/-- DECODE of a bitstream the decoder accepts ends without error, the decoded bytes in OUT. -/
theorem decode_accepted (hb : s.busy = false) (hbits : bitstream s = some bits)
    (hdec : decodeBits bits s.ct = .ok bytes) :
    ∃ s0 t, exec .decode s = .next s0 ∧ runCommand s0 = .next t ∧ t.err = false ∧
      memRead t.outBuf 0 t.outLen = some bytes := by
  obtain ⟨s0, hexec, _, _, hok, _⟩ := decodeRuns s bits hb hbits
  exact ⟨s0, _, hexec, hok bytes hdec, rfl, memRead_memWrite_same s.outBuf 0 bytes⟩

/-- DECOMPRESS of a container the unpacker and the decoder accept ends without error, the decoded bytes in OUT. -/
theorem decompress_accepted {container : List Byte} (hb : s.busy = false) (hin : inputBytes s = some container)
    (hunp : unpackBits container = .ok bits) (hdec : decodeBits bits s.ct = .ok bytes) :
    ∃ s0 t, exec .decompress s = .next s0 ∧ runCommand s0 = .next t ∧ t.err = false ∧
      memRead t.outBuf 0 t.outLen = some bytes := by
  obtain ⟨s0, hexec, _, hheader⟩ := decompressRuns s container hb hin
  match container, hunp with
  | b0 :: b1 :: payload, hunp =>
    obtain ⟨_, _, hunpacked⟩ := hheader b0 b1 payload _ rfl rfl
    obtain ⟨_, _, hok, _⟩ := hunpacked bits _ hunp rfl
    obtain ⟨_, hrun⟩ := hok bytes hdec
    exact ⟨s0, _, hexec, hrun, rfl, memRead_memWrite_same s.outBuf 0 bytes⟩

/-- Settles O59: the encoder's run leaves a bitstream, or a container, that the decoder's run turns back into the input. -/
theorem blockRoundTrip : Obligations.BlockRoundTrip := by
  intro s t bytes hb hin herr hdegen
  constructor
  · rintro ⟨s0, hexec, hrun⟩
    obtain rfl := Host.Outcome.next.inj ((acceptCommand_of_notBusy hb _).symm.trans hexec)
    have hne := input_ne_nil_of_encoder .encode hin hrun herr
    obtain ⟨f, root, tbl, bits, _, _, _, henc, _, _, hexec', hrun'⟩ := encodeRuns s bytes hb hin hne
    obtain rfl := Host.Outcome.next.inj (hexec.symm.trans hexec')
    obtain rfl := Host.Outcome.next.inj (hrun.symm.trans hrun')
    have hread : bitstream (s.encoded bytes f root tbl bits).markStale = some bits := by
      rw [bitstream_markStale, bitstream_encoded]
    exact decode_accepted rfl hread (decodeBits_encodeBytes (two_le_symbolCount hne hdegen) henc)
  · rintro ⟨s0, hexec, hrun⟩ u hbu hct hinu
    obtain rfl := Host.Outcome.next.inj ((acceptCommand_of_notBusy hb _).symm.trans hexec)
    have hne := input_ne_nil_of_encoder .compress hin hrun herr
    obtain ⟨f, root, tbl, bits, _, _, _, henc, hexec', hok, hfail⟩ := compressRuns s bytes hb hin hne
    obtain rfl := Host.Outcome.next.inj (hexec.symm.trans hexec')
    cases hpack : packBits bits with
    | error e =>
      obtain ⟨_, _, hrun'⟩ := hfail e hpack
      obtain rfl := Host.Outcome.next.inj (hrun.symm.trans hrun')
      cases herr
    | ok out =>
      obtain ⟨_, hrun'⟩ := hok out hpack
      obtain rfl := Host.Outcome.next.inj (hrun.symm.trans hrun')
      have hinu' : inputBytes u = some out := hinu.trans (memRead_memWrite_same s.outBuf 0 out)
      have hdec := decodeBits_encodeBytes (two_le_symbolCount hne hdegen) henc
      exact decompress_accepted hbu hinu' (unpackBits_packBits hpack) (by rw [hct]; exact hdec)

end RoundTrip

end Sys2Proof.Machine
end

section
/-!
Proof of the statement of 41_frequency_counter.md. `phaseCount_cases` says what COUNT writes; what the counters then hold
and their sum are `countBytes_at` and `countBytes_sum`, for counters of any value before.
-/

namespace Sys2Proof.Machine

variable {s : State} {f : FreqFile} {bytes : List Byte}

/-- COUNT with a readable input writes FREQ and PHASE (R120, R123). -/
theorem phaseStep_count (hphase : s.phase = .count) (hin : inputBytes s = some bytes) :
    phaseStep s = .next { s with freq := countBytes s.freq bytes, phase := .leaves } := by
  have hstep : phaseStep s = phaseCount s := by rw [phaseStep, hphase]
  obtain ⟨hnone, -⟩ | ⟨bytes', hin', hcount⟩ := phaseCount_cases s
  · cases hnone.symm.trans hin
  · obtain rfl := Option.some.inj (hin'.symm.trans hin)
    exact hstep.trans hcount

theorem FreqFile.sum_of_all_zero (h : ∀ sym, f.at sym = 0) : f.sum = 0 :=
  List.sum_eq_zero fun _ hx => by
    obtain ⟨sym, -, rfl⟩ := List.mem_map.1 hx
    exact h sym

/-- Settles O26: COUNT writes `countBytes` of the input; from counters of 0 their sum is the input's length, which bounds
each of them. -/
theorem countPhase : Obligations.CountPhase := by
  intro s bytes hphase hin
  refine ⟨_, phaseStep_count hphase hin, countBytes_at s.freq bytes, fun hzero => ?_⟩
  have hsum : (countBytes s.freq bytes).sum = s.inLen := by
    rw [countBytes_sum, FreqFile.sum_of_all_zero hzero, Nat.zero_add, inputBytes_length hin]
  refine ⟨fun sym => ?_, hsum, fun sym => hsum ▸ FreqFile.at_le_sum _ sym⟩
  rw [countBytes_at, hzero, Nat.zero_add]

end Sys2Proof.Machine
end

section
/-!
Proof that no good state ends in a fault of the model (log 6): a phase of a good state never faults (`phaseStep_goodAnswer`), a
host statement never does in any state, and each refusal along the way is one the spec gives.
-/

namespace Sys2Proof.Machine

variable {s : State} {r : Result}

/-- A next state, or a refusal the spec gives. -/
def Answers (r : Result) : Prop := (∃ t, r = .next t) ∨ ∃ x, r = .refused x ∧ ∀ m, x ≠ .notModelled m

theorem Answers.next (t : State) : Answers (.next t) := .inl ⟨t, rfl⟩

theorem Answers.refused {x : Refusal} (h : ∀ m, x ≠ .notModelled m) : Answers (.refused x) := .inr ⟨x, rfl, h⟩

theorem Answers.ite {p : Prop} [Decidable p] {r' : Result} (h : Answers r) (h' : Answers r') :
    Answers (if p then r else r') := by
  split
  · exact h
  · exact h'

theorem GoodAnswer.answers (h : GoodAnswer r) : Answers r := by
  obtain ⟨t, rfl, _⟩ | rfl := h
  · exact .next t
  · exact .refused nofun

/-! ### Reads -/

theorem byteAnswer_ne_refused (b : Option Byte) (x : Refusal) : byteAnswer b ≠ .refused x := by
  cases b <;> nofun

theorem bitAnswer_ne_refused (b : Option Bit) (x : Refusal) : bitAnswer b ≠ .refused x := by
  cases b <;> nofun

theorem readElement_ne_notModelled (s : State) (sp : Space) (idx : Nat) (m : String) :
    readElement s sp idx ≠ .refused (.notModelled m) := by
  cases sp <;> simp only [readElement]
  case reserved => nofun
  case reg => split <;> nofun
  case input =>
    split
    · exact byteAnswer_ne_refused _ _
    · nofun
  case output =>
    split
    · split
      · exact byteAnswer_ne_refused _ _
      · nofun
    · nofun
  case bits =>
    split
    · split
      · exact bitAnswer_ne_refused _ _
      · nofun
    · nofun
  all_goals split <;> nofun

theorem hostRead_ne_notModelled (s : State) (sp : Space) (idx : Nat) (m : String) :
    hostRead s sp idx ≠ .refused (.notModelled m) := by
  unfold hostRead
  split
  · split <;> nofun
  · exact readElement_ne_notModelled s sp idx m

theorem performRead_answers (s : State) (sp : Space) (idx : Nat) : Answers (performRead s sp idx) := by
  unfold performRead
  cases hr : hostRead s sp idx with
  | refused x => exact .refused fun m hx => hostRead_ne_notModelled s sp idx m (hx ▸ hr)
  | value | anyByte | anyBit => exact .next _

/-! ### Writes -/

theorem exec_answers (i : Instr) (s : State) : Answers (exec i s) := by
  obtain ⟨next, h⟩ := exec_eq_acceptCommand i s
  rw [h]
  exact .ite (.refused nofun) (.next _)

theorem writeReg_answers (s : State) (n : Nat) (v : PortWord) : Answers (writeReg s n v) :=
  .ite (.ite (.next _) (.refused nofun)) <| .ite (.ite (.next _) (.refused nofun)) <| .ite (.next _) (.refused nofun)

theorem writeElement_answers (s : State) (sp : Space) (idx : Nat) (v : PortWord) : Answers (writeElement s sp idx v) := by
  cases sp
  case reg => exact writeReg_answers s idx v
  case reserved => exact .refused nofun
  case table =>
    simp only [writeElement]
    split
    · exact .next _
    · exact .refused nofun
  all_goals exact .ite (.next _) (.refused nofun)

theorem hostWrite_answers (s : State) (sp : Space) (idx : Nat) (v : PortWord) : Answers (hostWrite s sp idx v) :=
  .ite (exec_answers _ s) (.ite (.refused nofun) (writeElement_answers s sp idx v))

/-! ### The host's statements and turns -/

theorem perform_answers (st : Statement) (s : State) : Answers (perform st s) := by
  cases st with
  | read sp idx => exact performRead_answers s sp idx
  | write sp idx v => exact hostWrite_answers s sp idx v
  | reset => exact .next _
  | poll =>
    obtain ⟨t, h⟩ | ⟨x, h, hx⟩ := performRead_answers s .reg 1
    · simpa only [perform, performPoll, h] using .next _
    · simpa only [perform, performPoll, h] using .refused hx
  | readOut =>
    obtain ⟨t, h⟩ | ⟨x, h, hx⟩ := performRead_answers s .reg 3
    · simpa only [perform, h] using .next _
    · simpa only [perform, h] using .refused hx
  | readBs =>
    obtain ⟨t, h⟩ | ⟨x, h, hx⟩ := performRead_answers s .reg 4
    · simpa only [perform, h] using .next _
    · simpa only [perform, h] using .refused hx

theorem hostTurn_answers (s : State) : Answers (hostTurn s) := by
  unfold hostTurn
  split
  · exact .next s
  · exact perform_answers _ _

/-- A phase of a good state answers, whatever the host's side of the state has become meanwhile. -/
theorem phaseStep_withHost_answers (h : s.Good) (sc : List Statement) (rd : List PortWord) (pl : Option Nat) (tk : Nat) :
    Answers (phaseStep (s.withHost sc rd pl tk)) := (phaseStep_goodAnswer (h.withHost sc rd pl tk)).answers

theorem eitherTurn_answers (h : s.Good) : Answers (eitherTurn s) :=
  .ite (hostTurn_answers _) (phaseStep_withHost_answers h s.script s.reads s.pollsLeft (s.tick + 1))

theorem pollTurn_answers (h : s.Good) : Answers (pollTurn s) := by
  unfold pollTurn
  split
  · exact phaseStep_withHost_answers h s.script s.reads none (s.tick + 1)
  · exact hostTurn_answers _

theorem busyTurn_answers (h : s.Good) : Answers (busyTurn s) := by
  unfold busyTurn
  split
  · exact (phaseStep_goodAnswer h).answers
  · exact pollTurn_answers h
  · exact eitherTurn_answers h
  · exact eitherTurn_answers h
  · exact .refused nofun

/-- Settles O4: the host's turn answers in every state, and a phase in a good one. -/
theorem stepNeverFaults : Obligations.StepNeverFaults := fun _ h =>
  Answers.ite (hostTurn_answers _) (busyTurn_answers h)

end Sys2Proof.Machine
end

section
/-!
Proofs of the statements of 42_tree_builder.md. LEAVES, one MERGE iteration and one MERGE step are each said once; what a whole
build keeps besides `Forest.Good` (the leaves where LEAVES put them, unallocated entries 0, internal weights in order) is
`Forest.Ordered`, carried through `mergeAll`; a good forest then gives the shape and the weights of the tree.
-/

namespace Sys2Proof.Machine

variable {s : State} {f g : FreqFile} {k : Nat} {t : Forest} {bytes : List Byte}

/-! ### Register files and the live set by their elements -/

theorem FreqFile.ext_at (h : ∀ sym, f.at sym = g.at sym) : f = g := by
  apply Vector.ext
  intro i hi
  have := h (BitVec.ofNat 8 i)
  simpa [FreqFile.at, Nat.mod_eq_of_lt hi] using this

theorem NodeFile.ext_at {m n : NodeFile} (h : ∀ i, m.at i = n.at i) : m = n :=
  Vector.ext fun i hi => h ⟨i, hi⟩

/-- The live set whose ids are 0 to k-1. -/
theorem pq_eq_filter_finRange {pq : List NodeId} (h : pq.map Fin.val = List.range k) :
    pq = (List.finRange 511).filter fun i => i.val < k := by
  have hval : (pq.map Fin.val).Pairwise (· < ·) := by
    rw [h]
    exact List.pairwise_lt_range
  have hsorted : pq.Pairwise (· < ·) := hval.of_map Fin.val fun _ _ => id
  have hmem : ∀ i, i ∈ pq ↔ i.val < k := fun i => by
    rw [← List.mem_range, ← h, List.mem_map_of_injective Fin.val_injective]
  exact hsorted.eq_of_mem_iff ((List.sortedLT_finRange 511).pairwise.filter _) fun i => by simp [hmem]

/-! ### The same counts (R139) -/

theorem freqOf_congr {xs ys : List Byte} (h : ∀ sym, xs.count sym = ys.count sym) : freqOf xs = freqOf ys :=
  FreqFile.ext_at fun sym => by rw [freqOf_at, freqOf_at, h]

theorem tableOf_congr {xs ys : List Byte} (h : freqOf xs = freqOf ys) : tableOf xs = tableOf ys := by
  rw [tableOf, tableOf, h]

/-- Settles O35: the tree and the table are functions of the counts, and a permutation keeps the counts. -/
theorem sameCountsSameTable : Obligations.SameCountsSameTable := by
  intro xs ys h
  have hcount : ∀ sym, xs.count sym = ys.count sym := h.elim id fun hp => hp.count_eq
  have hfreq := freqOf_congr hcount
  exact ⟨congrArg treeOf hfreq, tableOf_congr hfreq⟩

/-! ### LEAVES (R130) -/

/-- The NODE file with the leaf of the i-th present symbol at id i and every other entry 0. -/
def leafFile (f : FreqFile) : NodeFile :=
  Vector.ofFn fun i : NodeId =>
    match (presentSymbols f)[i.val]? with
    | some sym => leafNode sym (f.at sym)
    | none => Node.zero

theorem leafFile_present {i : NodeId} {sym : Byte} (h : (presentSymbols f)[i.val]? = some sym) :
    (leafFile f).at i = leafNode sym (f.at sym) := by
  simp [leafFile, NodeFile.at, h]

theorem leafFile_absent {i : NodeId} (h : (presentSymbols f)[i.val]? = none) : (leafFile f).at i = Node.zero := by
  simp [leafFile, NodeFile.at, h]

/-- The forest of the leaves alone, all of them live. -/
def Forest.leaves (f : FreqFile) : Forest where
  node := leafFile f
  pq := (List.finRange 511).filter fun i => i.val < (presentSymbols f).length
  nnodes := (presentSymbols f).length

/-- LEAVES builds this forest from the empty one. -/
theorem insertLeaves_empty_eq (f : FreqFile) : insertLeaves f allSymbols Forest.empty = .ok (Forest.leaves f) := by
  obtain ⟨t, ht, hn, hleaf, hzero, hpq⟩ := insertLeaves_empty f
  have hnode : t.node = leafFile f := by
    refine NodeFile.ext_at fun i => ?_
    cases hs : (presentSymbols f)[i.val]? with
    | some sym => rw [leafFile_present hs, hleaf i.val sym hs i rfl]
    | none => rw [leafFile_absent hs, hzero i (List.getElem?_eq_none_iff.1 hs)]
  rw [ht, Forest.leaves, ← hnode, ← pq_eq_filter_finRange hpq, ← hn]

theorem freq_eq_zero_of_absent (h : presentSymbols f = []) : f = FreqFile.zero := by
  refine FreqFile.ext_at fun sym => ?_
  have hsym : ¬ 0 < f.at sym := fun hpos => by
    have := (mem_presentSymbols f sym).2 hpos
    rw [h] at this
    cases this
  rw [FreqFile.at_zero, Nat.eq_zero_of_not_pos hsym]

/-- LEAVES with no leaf inserted: EmptyInputError. -/
theorem phaseLeaves_of_none (h : insertLeaves s.freq allSymbols s.forest = .ok t) (h0 : t.nnodes = 0) :
    phaseLeaves s = .next (raiseError s.running .emptyInput { s.setForest t with nsym := 0 }) := by
  simp [phaseLeaves, h, h0]

/-- LEAVES with a leaf inserted: MERGE follows. -/
theorem phaseLeaves_of_some (h : insertLeaves s.freq allSymbols s.forest = .ok t) (h0 : t.nnodes ≠ 0) :
    phaseLeaves s = .next { s.setForest t with nsym := t.nnodes, phase := .merge } := by
  simp [phaseLeaves, h, h0]

/-- Settles O27: with a symbol present LEAVES leaves `Forest.leaves`; with none the empty forest stays as it is. -/
theorem leavesPhase : Obligations.LeavesPhase := by
  intro s hphase hforest
  have hstep : phaseStep s = phaseLeaves s := by rw [phaseStep, hphase]
  refine ⟨leafFile s.freq, fun i => ?_, ?_⟩
  · split
    next sym hs => exact leafFile_present hs
    next hs => exact leafFile_absent hs
  · by_cases hnone : presentSymbols s.freq = []
    · have hins : insertLeaves s.freq allSymbols s.forest = .ok s.forest := by
        rw [freq_eq_zero_of_absent hnone, insertLeaves_zero]
      rw [hstep, if_pos hnone, phaseLeaves_of_none hins (congrArg Forest.nnodes hforest)]
      rfl
    · have hins : insertLeaves s.freq allSymbols s.forest = .ok (.leaves s.freq) := by
        rw [hforest, insertLeaves_empty_eq]
      rw [hstep, if_neg hnone, phaseLeaves_of_some hins fun h0 => hnone (List.length_eq_zero_iff.1 h0)]
      simp only [State.setForest, Forest.leaves]

/-! ### The priority order and ExtractMin (R131, R132) -/

theorem before_iff_precedes (node : NodeFile) (i j : NodeId) : before node i j = true ↔ node.Precedes i j :=
  before_iff node i j

theorem NodeFile.Precedes.weight_le {node : NodeFile} {i j : NodeId} (h : node.Precedes i j) :
    (node.at i).weight ≤ (node.at j).weight := h.elim Nat.le_of_lt fun h => h.1.le

theorem NodeFile.precedes_irrefl (node : NodeFile) (i : NodeId) : ¬ node.Precedes i i := by
  simp [NodeFile.Precedes]

theorem NodeFile.Precedes.trans {node : NodeFile} {i j k : NodeId} (h : node.Precedes i j) (h' : node.Precedes j k) :
    node.Precedes i k := by
  rw [← before_iff_precedes] at h h' ⊢
  exact before_trans h h'

theorem NodeFile.precedes_total (node : NodeFile) {i j : NodeId} (h : i ≠ j) : node.Precedes i j ∨ node.Precedes j i := by
  rw [← before_iff_precedes, ← before_iff_precedes]
  cases hb : before node i j with
  | true => exact .inl rfl
  | false => exact .inr (before_total h hb)

/-- ExtractMin with a live node: it takes the one before every other. -/
theorem extractMin_first (h : t.pq ≠ []) :
    ∃ a ∈ t.pq, extractMin t = .ok (a, { t with pq := pqClear t.pq a }) ∧ ∀ j ∈ t.pq, j ≠ a → t.node.Precedes a j := by
  obtain ⟨hnil, _⟩ | ⟨a, ha, he, hmin⟩ := extractMin_spec t
  · exact absurd hnil h
  · exact ⟨a, ha, he, fun j hj hne => (before_iff_precedes _ _ _).1 (hmin j hj hne)⟩

/-- Settles O29: the laws of the order one by one, then `extractMin_first`. -/
theorem extractMinTakesTheFirst : Obligations.ExtractMinTakesTheFirst := by
  refine ⟨fun node i j k => ⟨node.precedes_total, node.precedes_irrefl i, .trans⟩, fun t h => ?_⟩
  obtain ⟨a, ha, he, hmin⟩ := extractMin_first h
  exact ⟨a, pqClear t.pq a, he, ha, hmin, fun j => mem_pqClear⟩

/-! ### One MERGE iteration and one MERGE step (R133, R134) -/

/-- The forest after an iteration that joins `a` and `b` under the new node `i`. -/
def Forest.joined (t : Forest) (i a b : NodeId) : Forest where
  node := t.node.put i (innerNode t.node a b)
  pq := pqClear (pqClear t.pq a) b ++ [i]
  nnodes := t.nnodes + 1

theorem Forest.mem_pq_joined {i a b j : NodeId} :
    j ∈ (t.joined i a b).pq ↔ j = i ∨ (j ∈ t.pq ∧ j ≠ a ∧ j ≠ b) := by
  simp only [Forest.joined, List.mem_append, List.mem_singleton, mem_pqClear]
  tauto

/-- `a` is before every other node of `pq`, and `b` before every other but `a` (R131). -/
structure TwoLeast (node : NodeFile) (pq : List NodeId) (a b : NodeId) : Prop where
  left_mem : a ∈ pq
  right_mem : b ∈ pq
  ne : a ≠ b
  left_first : ∀ j ∈ pq, j ≠ a → node.Precedes a j
  right_second : ∀ j ∈ pq, j ≠ a → j ≠ b → node.Precedes b j

/-- An iteration takes the two least live nodes, whether or not the forest is a tree under construction. -/
theorem mergeOnce_joins (hsorted : t.pq.Pairwise (· < ·)) (hlive : ∀ j ∈ t.pq, j.val < t.nnodes)
    (hmany : 1 < t.pq.length) (hroom : t.nnodes < 511) :
    ∃ a b, TwoLeast t.node t.pq a b ∧ mergeOnce t = .ok (t.joined ⟨t.nnodes, hroom⟩ a b) ∧
      (t.joined ⟨t.nnodes, hroom⟩ a b).pq.Pairwise (· < ·) ∧
      (t.joined ⟨t.nnodes, hroom⟩ a b).pq.length + 1 = t.pq.length := by
  obtain ⟨a, ha, hea, hmina⟩ := extractMin_first (t := t) (List.ne_nil_of_length_pos (by omega))
  have hsorted1 := pqClear_sorted hsorted a
  have hlen1 := pqClear_length (sorted_nodup hsorted) ha
  obtain ⟨b, hb, heb, hminb⟩ := extractMin_first (t := { t with pq := pqClear t.pq a })
    (List.ne_nil_of_length_pos (show 0 < (pqClear t.pq a).length by omega))
  have hlen2 := pqClear_length (sorted_nodup hsorted1) hb
  obtain ⟨hb', hba⟩ := mem_pqClear.1 hb
  have hlt : ∀ j ∈ pqClear (pqClear t.pq a) b, j < (⟨t.nnodes, hroom⟩ : NodeId) := fun j hj =>
    hlive j (mem_pqClear.1 (mem_pqClear.1 hj).1).1
  have hleast : TwoLeast t.node t.pq a b :=
    ⟨ha, hb', hba.symm, hmina, fun j hj h1 h2 => hminb j (mem_pqClear.2 ⟨hj, h1⟩) h2⟩
  refine ⟨a, b, hleast, ?_, ?_, ?_⟩
  · simp only [mergeOnce, hea, heb, Forest.insert, hroom, dif_pos, pqSet_of_lt hlt]
    rfl
  · refine List.pairwise_append.2 ⟨pqClear_sorted hsorted1 b, List.pairwise_singleton _ _, fun j hj i hi => ?_⟩
    rw [List.mem_singleton.1 hi]
    exact hlt j hj
  · rw [Forest.joined, List.length_append, List.length_singleton]
    omega

/-- The MERGE step that leaves one node live (R134, R141; log 9). -/
theorem phaseMerge_of_one {r : NodeId} (h : mergeIfMany s.forest = .ok t) (hr : t.pq = [r]) :
    phaseMerge s = .next { s.setForest t with root := r, total := (t.node.at r).weight, phase := .derive } := by
  simp [phaseMerge, h, hr]

/-- The MERGE step that leaves more than one. -/
theorem phaseMerge_of_many (h : mergeIfMany s.forest = .ok t) (hmany : 1 < t.pq.length) :
    phaseMerge s = .next { s.setForest t with phase := .merge } := by
  match hpq : t.pq with
  | [] | [_] => simp [hpq] at hmany
  | _ :: _ :: _ => simp [phaseMerge, h, hpq]

/-- Settles O30: `mergeOnce_joins`, and of the live nodes the new one alone is left when two were live. -/
theorem mergeStepJoinsTheTwoLeast : Obligations.MergeStepJoinsTheTwoLeast := by
  intro s hphase hsorted hlive hmany hroom
  obtain ⟨a, b, ⟨ha, hb, hab, hmina, hminb⟩, he, hsorted', hlen⟩ :=
    mergeOnce_joins (t := s.forest) hsorted hlive hmany hroom
  have hmerge : mergeIfMany s.forest = .ok (s.forest.joined ⟨s.nnodes, hroom⟩ a b) := (if_pos hmany).trans he
  have hstep : phaseStep s = phaseMerge s := by rw [phaseStep, hphase]
  refine ⟨a, b, _, _, ha, hb, hab, hmina, hminb, fun j => Forest.mem_pq_joined, hsorted', rfl, hstep.trans ?_⟩
  have hlen' : (s.forest.joined ⟨s.nnodes, hroom⟩ a b).pq.length + 1 = s.pq.length := hlen
  split
  next htwo =>
    obtain ⟨r, hr⟩ := List.length_eq_one_iff.1
      (show (s.forest.joined ⟨s.nnodes, hroom⟩ a b).pq.length = 1 by omega)
    obtain rfl : ⟨s.nnodes, hroom⟩ = r := by
      rw [← List.mem_singleton, ← hr]
      exact Forest.mem_pq_joined.2 (.inl rfl)
    rw [phaseMerge_of_one hmerge hr]
    simp only [Forest.joined, NodeFile.at_put, if_true]
    rfl
  next htwo => exact phaseMerge_of_many hmerge (by omega)

/-- Settles O31: `mergeAll_good` counts the live nodes, and a step with one live node leaves the forest. -/
theorem mergeRunsKMinusOneTimes : Obligations.MergeRunsKMinusOneTimes := by
  refine ⟨fun bytes hne => ?_, fun s r hphase hr => ?_⟩
  · obtain ⟨leaves, hl, _, hlen, _, _, hg⟩ := leaves_of_input hne
    refine ⟨leaves, hl, hlen, fun n hn => ?_⟩
    obtain ⟨t, ht, hgt, hlt⟩ := mergeAll_good hg n
    have := hgt.balance
    exact ⟨t, ht, by omega, by omega⟩
  · have hnone : mergeIfMany s.forest = .ok s.forest := if_neg (by simp [hr])
    have hstep : phaseStep s = phaseMerge s := by rw [phaseStep, hphase]
    exact hstep.trans (phaseMerge_of_one hnone hr)

/-! ### What a build keeps besides `Forest.Good` (R138) -/

theorem allSymbols_sorted : allSymbols.Pairwise (· < ·) := by
  rw [allSymbols, List.pairwise_map]
  refine List.pairwise_lt_range.imp_of_mem fun ha hb hab => ?_
  rw [List.mem_range] at ha hb
  rw [BitVec.lt_def, BitVec.toNat_ofNat, BitVec.toNat_ofNat]
  omega

theorem presentSymbols_sorted (f : FreqFile) : (presentSymbols f).Pairwise (· < ·) := allSymbols_sorted.filter _

/-- A forest in which the leaves stand where LEAVES put them, no entry at or beyond NNODES is written, the internal nodes'
weights do not decrease in id order, and no internal node weighs more than two live nodes together. -/
structure Forest.Ordered (f : FreqFile) (t : Forest) : Prop where
  leaf : ∀ (i : NodeId) (sym : Byte), (presentSymbols f)[i.val]? = some sym → t.node.at i = leafNode sym (f.at sym)
  unallocated : ∀ i : NodeId, t.nnodes ≤ i.val → t.node.at i = Node.zero
  inner_le : ∀ i j : NodeId, (presentSymbols f).length ≤ i.val → i ≤ j → j.val < t.nnodes →
    (t.node.at i).weight ≤ (t.node.at j).weight
  inner_le_pair : ∀ i : NodeId, (presentSymbols f).length ≤ i.val → i.val < t.nnodes → ∀ x ∈ t.pq, ∀ y ∈ t.pq, x ≠ y →
    (t.node.at i).weight ≤ (t.node.at x).weight + (t.node.at y).weight

theorem Forest.leaves_ordered (f : FreqFile) : (Forest.leaves f).Ordered f where
  leaf _ _ h := leafFile_present h
  unallocated _ h := leafFile_absent (List.getElem?_eq_none_iff.2 h)
  inner_le _ _ hi hij hj := absurd (hi.trans hij) (not_le.2 hj)
  inner_le_pair _ hi hi' := absurd hi (not_le.2 hi')

section Joined

variable {i a b : NodeId}

theorem Forest.joined_at_new (t : Forest) (i a b : NodeId) : (t.joined i a b).node.at i = innerNode t.node a b := by
  simp [Forest.joined]

theorem Forest.joined_at_old {j : NodeId} (h : j.val ≠ i.val) : (t.joined i a b).node.at j = t.node.at j := by
  rw [Forest.joined, NodeFile.at_put, if_neg]
  rintro rfl
  exact h rfl

/-- The two least live nodes together weigh no more than any two others. -/
theorem TwoLeast.weight_le {node : NodeFile} {pq : List NodeId} (h : TwoLeast node pq a b) {x y : NodeId} (hx : x ∈ pq)
    (hy : y ∈ pq) (hxy : x ≠ y) :
    (node.at a).weight + (node.at b).weight ≤ (node.at x).weight + (node.at y).weight := by
  have hle_a : ∀ j ∈ pq, (node.at a).weight ≤ (node.at j).weight := fun j hj => by
    by_cases hja : j = a
    · rw [hja]
    · exact (h.left_first j hj hja).weight_le
  have hle_b : ∀ j ∈ pq, j ≠ a → (node.at b).weight ≤ (node.at j).weight := fun j hj hja => by
    by_cases hjb : j = b
    · rw [hjb]
    · exact (h.right_second j hj hja hjb).weight_le
  by_cases hya : y = a
  · subst hya
    have := hle_a y hy
    have := hle_b x hx hxy
    omega
  · exact Nat.add_le_add (hle_a x hx) (hle_b y hy hya)

/-- Joining the two least live nodes keeps the order: the new node weighs no less than any internal node before it, and no
more than any two nodes that are live after it. -/
theorem Forest.Ordered.joined (ho : t.Ordered f) (hleaves : (presentSymbols f).length ≤ t.nnodes)
    (hlive : ∀ j ∈ t.pq, j.val < t.nnodes) (hi : i.val = t.nnodes) (h : TwoLeast t.node t.pq a b) :
    (t.joined i a b).Ordered f := by
  have hnew : ((t.joined i a b).node.at i).weight = (t.node.at a).weight + (t.node.at b).weight := by
    rw [joined_at_new]; rfl
  have hold : ∀ j : NodeId, j.val < t.nnodes → (t.joined i a b).node.at j = t.node.at j := fun j hj =>
    joined_at_old (by omega)
  have hlast : ∀ j : NodeId, j.val < t.nnodes + 1 → j.val < t.nnodes ∨ j = i := fun j hj => by
    rw [Fin.ext_iff]; omega
  have hle_new : ∀ j : NodeId, (presentSymbols f).length ≤ j.val → j.val < t.nnodes + 1 →
      ((t.joined i a b).node.at j).weight ≤ (t.node.at a).weight + (t.node.at b).weight := fun j hj hj' => by
    obtain hjn | rfl := hlast j hj'
    · rw [hold j hjn]
      exact ho.inner_le_pair j hj hjn a h.left_mem b h.right_mem h.ne
    · exact hnew.le
  refine ⟨fun j sym hsym => ?_, fun j hj => ?_, fun j l hj hjl hl => ?_, fun j hj hj' x hx y hy hxy => ?_⟩
  · obtain ⟨hjlen, _⟩ := List.getElem?_eq_some_iff.1 hsym
    rw [hold j (by omega)]
    exact ho.leaf j sym hsym
  · have hj' : t.nnodes + 1 ≤ j.val := hj
    rw [joined_at_old (by omega)]
    exact ho.unallocated j (by omega)
  · obtain hln | rfl := hlast l hl
    · rw [hold l hln, hold j (Nat.lt_of_le_of_lt hjl hln)]
      exact ho.inner_le j l hj hjl hln
    · rw [hnew]
      exact hle_new j hj (Nat.lt_of_le_of_lt hjl hl)
  · refine (hle_new j hj hj').trans ?_
    obtain rfl | ⟨hx', _, _⟩ := mem_pq_joined.1 hx
    · rw [hnew]
      exact Nat.le_add_right _ _
    · obtain rfl | ⟨hy', _, _⟩ := mem_pq_joined.1 hy
      · rw [hnew]
        exact Nat.le_add_left _ _
      · rw [hold x (hlive x hx'), hold y (hlive y hy')]
        exact h.weight_le hx' hy' hxy

end Joined

theorem mergeOnce_ordered (hg : t.Good f (presentSymbols f).length) (ho : t.Ordered f) (hmany : 1 < t.pq.length) :
    ∃ u, mergeOnce t = .ok u ∧ u.Good f (presentSymbols f).length ∧ u.Ordered f := by
  have hroom : t.nnodes < 511 := by
    have := hg.balance
    have := hg.bound
    omega
  obtain ⟨a, b, hleast, he, _⟩ := mergeOnce_joins hg.sorted hg.live_lt hmany hroom
  obtain ⟨_, _, _, u, _, _, _, _, _, _, heu, _, _, hgu⟩ := mergeOnce_good hg hmany
  obtain rfl := Except.ok.inj (he.symm.trans heu)
  exact ⟨_, he, hgu, ho.joined hg.leaves_le hg.live_lt rfl hleast⟩

/-- Merging a good and ordered forest keeps it ordered; that it stays good is `mergeAll_good`. -/
theorem mergeAll_ordered (hg : t.Good f (presentSymbols f).length) (ho : t.Ordered f) (n : Nat) :
    ∃ u, mergeAll n t = .ok u ∧ u.Ordered f := by
  induction n generalizing t with
  | zero => exact ⟨t, rfl, ho⟩
  | succ n ih =>
    by_cases hmany : 1 < t.pq.length
    · obtain ⟨u, hu, hgu, hou⟩ := mergeOnce_ordered hg ho hmany
      simpa only [mergeAll, mergeIfMany, if_pos hmany, hu] using ih hgu hou
    · simpa only [mergeAll, mergeIfMany, if_neg hmany] using ih hg ho

/-- The tree of a non-empty input: a good and ordered forest with one live node, the root. -/
theorem treeOf_ordered (h : bytes ≠ []) :
    ∃ t root, treeOf (freqOf bytes) = .ok t ∧ t.pq = [root] ∧ root.val + 1 = t.nnodes ∧
      t.Good (freqOf bytes) (symbolCount bytes) ∧ t.Ordered (freqOf bytes) ∧ (t.node.at root).weight = bytes.length := by
  obtain ⟨t, root, ht, hr, hg, hw⟩ := treeOf_input h
  obtain ⟨i, hi, hlast⟩ := hg.newest
  obtain rfl : i = root := by simpa [hr] using hi
  have hleaves := insertLeaves_good _ _ (insertLeaves_empty_eq (freqOf bytes))
    (List.length_pos_iff.2 (presentSymbols_ne_nil h))
  obtain ⟨u, hu, ho⟩ := mergeAll_ordered hleaves (Forest.leaves_ordered _) 255
  obtain rfl : u = t := by
    rw [treeOf, insertLeaves_empty_eq] at ht
    exact Except.ok.inj (hu.symm.trans ht)
  exact ⟨u, i, ht, hr, hlast, hg, ho, hw⟩

theorem Forest.Good.leaf_eq_false_iff (hg : t.Good f k) {i : NodeId} (hi : i.val < t.nnodes) :
    (t.node.at i).leaf = false ↔ k ≤ i.val := by
  rw [← Bool.not_eq_true, hg.isLeaf i hi, not_lt]

/-- Settles O32: the numbers from the balance of a good forest with one live node, the ids and weights from its order. -/
theorem nodeIdsAfterBuild : Obligations.NodeIdsAfterBuild := by
  intro bytes hne
  obtain ⟨t, root, ht, hr, hlast, hg, ho, _⟩ := treeOf_ordered hne
  have hbound := hg.bound
  have hbalance := hg.balance
  rw [hr, List.length_singleton] at hbalance
  have hsym : ∀ i : NodeId, ∀ hi : i.val < symbolCount bytes,
      (t.node.at i).sym = (presentSymbols (freqOf bytes))[i.val] := fun i hi => by
    rw [ho.leaf i _ (List.getElem?_eq_getElem hi)]
    rfl
  refine ⟨t, root, ht, hr, hbound, hbalance, by omega, by omega, fun i hi => ?_, fun i j hij hj => ?_,
    fun i hi hi' => (hg.leaf_eq_false_iff hi').2 hi, ho.inner_le, ho.unallocated⟩
  · rw [hsym i hi]
    exact ⟨(hg.isLeaf i (by omega)).2 hi, (List.getElem?_eq_getElem hi).symm⟩
  · rw [hsym i (Nat.lt_trans hij hj), hsym j hj]
    exact List.pairwise_iff_getElem.1 (presentSymbols_sorted _) i.val j.val _ hj hij

/-! ### The shape of the tree (R140) -/

theorem mem_iff_freqOf_pos (bytes : List Byte) (sym : Byte) : sym ∈ bytes ↔ 0 < (freqOf bytes).at sym := by
  rw [freqOf_at, List.count_pos_iff]

theorem Forest.Good.parent_iff (hg : t.Good f k) (p i : NodeId) :
    (p.val < t.nnodes ∧ (t.node.at p).leaf = false ∧ ((t.node.at p).left = i ∨ (t.node.at p).right = i)) ↔
      t.Parent k p i := by
  constructor
  · rintro ⟨hp, hl, hc⟩
    exact ⟨(hg.leaf_eq_false_iff hp).1 hl, hp, hc⟩
  · rintro ⟨hk, hp, hc⟩
    exact ⟨hp, (hg.leaf_eq_false_iff hp).2 hk, hc⟩

/-- A node that is not live has exactly one parent. -/
theorem Forest.Good.existsUnique_parent (hg : t.Good f k) {i : NodeId} (hi : i.val < t.nnodes) (hdead : i ∉ t.pq) :
    ∃! p, t.Parent k p i := by
  obtain ⟨p, hp⟩ := not_forall_not.1 (mt (hg.orphan i hi).2 hdead)
  exact ⟨p, hp, fun q hq => hg.one_parent q p i hq hp⟩

/-- The leaves' symbols are the symbols counted. -/
theorem Forest.Ordered.pos_iff_leaf (ho : t.Ordered f) (hg : t.Good f (presentSymbols f).length) (sym : Byte) :
    0 < f.at sym ↔ ∃ i : NodeId, i.val < t.nnodes ∧ (t.node.at i).leaf = true ∧ (t.node.at i).sym = sym := by
  constructor
  · intro hpos
    obtain ⟨n, hn, hsym⟩ := List.mem_iff_getElem.1 ((mem_presentSymbols f sym).2 hpos)
    have hbound := hg.bound
    have hleaf := ho.leaf ⟨n, by omega⟩ sym (List.getElem?_eq_some_iff.2 ⟨hn, hsym⟩)
    exact ⟨⟨n, by omega⟩, hn.trans_le hg.leaves_le, by rw [hleaf]; rfl, by rw [hleaf]; rfl⟩
  · rintro ⟨i, hi, hl, rfl⟩
    obtain ⟨hpos, _⟩ := hg.leaf_count i ((hg.isLeaf i hi).1 hl)
    exact hpos

/-- Settles O33: the parts of a good forest whose one live node is the root; its leaves are the present symbols'. -/
theorem treeShape : Obligations.TreeShape := by
  intro bytes hne
  obtain ⟨t, root, ht, hr, hlast, hg, ho, hw⟩ := treeOf_ordered hne
  have hlive : ∀ i, i ∈ t.pq ↔ i = root := fun i => by rw [hr, List.mem_singleton]
  have horphan := (hg.orphan root (by omega)).1 ((hlive root).2 rfl)
  refine ⟨t, root, ht, hr, hlast, fun i hi hl => ?_, fun i hi hir => ?_, fun p hp hl => ?_, fun sym => ?_,
    fun i j hi hj hli hlj => ?_, fun sym hsym => ?_, hw⟩
  · obtain ⟨hk, hleft, hright⟩ := hg.children i hi hl
    exact ⟨hleft, hright, hg.two_children i hk hi⟩
  · simp only [hg.parent_iff]
    exact hg.existsUnique_parent hi (mt (hlive i).1 hir)
  · exact ⟨fun h => horphan p ((hg.parent_iff p root).1 ⟨hp, hl, .inl h⟩),
      fun h => horphan p ((hg.parent_iff p root).1 ⟨hp, hl, .inr h⟩)⟩
  · rw [mem_iff_freqOf_pos]
    exact ho.pos_iff_leaf hg sym
  · exact hg.leaf_inj i j ((hg.isLeaf i hi).1 hli) ((hg.isLeaf j hj).1 hlj)
  · obtain ⟨r, hlr, path, hpath⟩ := hg.reached sym ((mem_iff_freqOf_pos bytes sym).1 hsym)
    rw [hlive] at hlr
    exact ⟨path, hlr ▸ hpath⟩

/-! ### The weights (R137) -/

section Weights

variable {node : NodeFile} {i : NodeId}

theorem leafBelow_of_leaf (hv : (node.at i).v = true) (hl : (node.at i).leaf = true) (sym : Byte) (path : List Bit) :
    LeafBelow node sym i path ↔ sym = (node.at i).sym ∧ path = [] := by
  constructor
  · intro h
    cases h with
    | here _ _ hs => exact ⟨hs.symm, rfl⟩
    | left _ hl' _ | right _ hl' _ => cases hl.symm.trans hl'
  · rintro ⟨rfl, rfl⟩
    exact .here hv hl rfl

theorem leafBelow_of_inner (hv : (node.at i).v = true) (hl : (node.at i).leaf = false) (sym : Byte) (path : List Bit) :
    LeafBelow node sym i path ↔
      (∃ p, LeafBelow node sym (node.at i).left p ∧ path = false :: p) ∨
      (∃ p, LeafBelow node sym (node.at i).right p ∧ path = true :: p) := by
  constructor
  · intro h
    cases h with
    | here _ hl' _ => cases hl.symm.trans hl'
    | left _ _ h => exact .inl ⟨_, h, rfl⟩
    | right _ _ h => exact .inr ⟨_, h, rfl⟩
  · rintro (⟨p, h, rfl⟩ | ⟨p, h, rfl⟩)
    · exact .left hv hl h
    · exact .right hv hl h

/-- A leaf with its path, seen from the parent whose branch `b` leads to it. -/
def throughBranch (b : Bit) (leaf : Byte × List Bit) : Byte × List Bit := (leaf.1, b :: leaf.2)

theorem throughBranch_injective (b : Bit) : Function.Injective (throughBranch b) := by
  rintro ⟨sym, p⟩ ⟨sym', p'⟩ h
  simpa [throughBranch] using h

theorem mem_map_throughBranch {b : Bit} {l : List (Byte × List Bit)} {sym : Byte} {path : List Bit} :
    (sym, path) ∈ l.map (throughBranch b) ↔ ∃ p, (sym, p) ∈ l ∧ path = b :: p := by
  simp [throughBranch, eq_comm]

/-- The leaves below a node are listed once each, with their counts adding up to a weight of at least 1. -/
def ListsLeaves (f : FreqFile) (node : NodeFile) (i : NodeId) (below : List (Byte × List Bit)) : Prop :=
  below.Nodup ∧ (∀ sym path, (sym, path) ∈ below ↔ LeafBelow node sym i path) ∧
    (node.at i).weight = (below.map fun leaf => f.at leaf.1).sum ∧ 1 ≤ (node.at i).weight

theorem ListsLeaves.leaf (hv : (node.at i).v = true) (hl : (node.at i).leaf = true)
    (hpos : 0 < f.at (node.at i).sym) (hw : (node.at i).weight = f.at (node.at i).sym) :
    ListsLeaves f node i [((node.at i).sym, [])] := by
  refine ⟨List.nodup_singleton _, fun sym path => ?_, ?_, hw ▸ hpos⟩
  · rw [leafBelow_of_leaf hv hl, List.mem_singleton, Prod.mk.injEq]
  · simpa using hw

theorem ListsLeaves.inner {ls rs : List (Byte × List Bit)} (hv : (node.at i).v = true) (hl : (node.at i).leaf = false)
    (hw : (node.at i).weight = (node.at (node.at i).left).weight + (node.at (node.at i).right).weight)
    (hls : ListsLeaves f node (node.at i).left ls) (hrs : ListsLeaves f node (node.at i).right rs) :
    ListsLeaves f node i (ls.map (throughBranch false) ++ rs.map (throughBranch true)) := by
  obtain ⟨hnodupl, hmeml, hsuml, hposl⟩ := hls
  obtain ⟨hnodupr, hmemr, hsumr, _⟩ := hrs
  refine ⟨?_, fun sym path => ?_, ?_, by omega⟩
  · refine (hnodupl.map (throughBranch_injective _)).append (hnodupr.map (throughBranch_injective _)) ?_
    rintro ⟨sym, path⟩ hl' hr'
    obtain ⟨p, _, hp⟩ := mem_map_throughBranch.1 hl'
    obtain ⟨q, _, hq⟩ := mem_map_throughBranch.1 hr'
    cases hp.symm.trans hq
  · simp only [List.mem_append, mem_map_throughBranch, hmeml, hmemr, leafBelow_of_inner hv hl]
  · rw [hw, hsuml, hsumr, List.map_append, List.sum_append, List.map_map, List.map_map]
    rfl

end Weights

/-- Every allocated node of a good forest weighs what the leaves below it count, by induction on its id: a child's id is
below its parent's. -/
theorem Forest.Good.exists_listsLeaves (hg : t.Good f k) (i : NodeId) (hi : i.val < t.nnodes) :
    ∃ below, ListsLeaves f t.node i below := by
  induction i using WellFoundedLT.induction with
  | ind i ih =>
    cases hl : (t.node.at i).leaf with
    | true =>
      obtain ⟨hpos, hw⟩ := hg.leaf_count i ((hg.isLeaf i hi).1 hl)
      exact ⟨_, .leaf (hg.valid i hi) hl hpos hw⟩
    | false =>
      obtain ⟨hk, hleft, hright⟩ := hg.children i hi hl
      obtain ⟨ls, hls⟩ := ih _ hleft (Nat.lt_trans hleft hi)
      obtain ⟨rs, hrs⟩ := ih _ hright (Nat.lt_trans hright hi)
      exact ⟨_, .inner (hg.valid i hi) hl (hg.inner_weight i hk hi) hls hrs⟩

/-- Settles O34: the tree is a good forest, and the counts of the input are the occurrences of its symbols. -/
theorem weightLaw : Obligations.WeightLaw := by
  intro bytes hne
  obtain ⟨t, _, ht, _, hg, _⟩ := treeOf_input hne
  refine ⟨t, ht, fun i hi => ?_⟩
  obtain ⟨below, hbelow⟩ := hg.exists_listsLeaves i hi
  simp only [ListsLeaves, freqOf_at] at hbelow
  exact ⟨below, hbelow⟩

end Sys2Proof.Machine
end

section
/-!
Proofs of the statements of 43_code_table_deriver.md. In a good forest with one live node, the root, a path is walked
down branch by branch: each symbol counted has exactly one path, no path has K bits or more, and every bit sequence leads
to a leaf. DERIVE writes these paths (`CodeTable.OfTree`), so the laws of the paths are the laws of the codes.
-/

namespace Sys2Proof.Machine

variable {s : State} {f : FreqFile} {k : Nat} {t : Forest} {root : NodeId} {tbl : CodeTable} {bytes : List Byte}

/-! ### One branch of a path (R150) -/

section Paths

variable {i j : NodeId} {sym : Byte} {b : Bit} {p q : List Bit}

/-- The child a bit of a path leads to: 0 to the left, 1 to the right. -/
def Node.child (n : Node) (b : Bit) : NodeId := if b then n.right else n.left

theorem leafBelow_cons_iff {node : NodeFile} : LeafBelow node sym i (b :: p) ↔
    (node.at i).v = true ∧ (node.at i).leaf = false ∧ LeafBelow node sym ((node.at i).child b) p := by
  constructor
  · intro h
    cases h with
    | left hv hl h | right hv hl h => exact ⟨hv, hl, h⟩
  · rintro ⟨hv, hl, h⟩
    cases b with
    | false => exact .left hv hl h
    | true => exact .right hv hl h

theorem leafBelow_nil_iff {node : NodeFile} : LeafBelow node sym i [] ↔
    (node.at i).v = true ∧ (node.at i).leaf = true ∧ (node.at i).sym = sym := by
  constructor
  · intro h
    cases h with
    | here hv hl hs => exact ⟨hv, hl, hs⟩
  · rintro ⟨hv, hl, hs⟩
    exact .here hv hl hs

/-! ### The paths of a good forest (R140, R155) -/

theorem Forest.Good.parent_child (hg : t.Good f k) (hi : i.val < t.nnodes) (hl : (t.node.at i).leaf = false) (b : Bit) :
    t.Parent k i ((t.node.at i).child b) := by
  refine ⟨(hg.leaf_eq_false_iff hi).1 hl, hi, ?_⟩
  cases b with
  | false => exact .inl rfl
  | true => exact .inr rfl

theorem Forest.Good.lt_of_parent (hg : t.Good f k) (h : t.Parent k i j) : j < i := by
  obtain ⟨hk, hi, rfl | rfl⟩ := h
  · exact (hg.child_lt i hk hi).1
  · exact (hg.child_lt i hk hi).2

theorem Forest.Good.child_injective (hg : t.Good f k) (hi : i.val < t.nnodes) (hl : (t.node.at i).leaf = false) :
    Function.Injective (t.node.at i).child := by
  have hne := hg.two_children i ((hg.leaf_eq_false_iff hi).1 hl) hi
  intro b c h
  cases b <;> cases c
  case false.true => exact absurd h hne
  case true.false => exact absurd h hne.symm
  all_goals rfl

/-- A path of one bit or more passes through an inner node to one of its children. -/
theorem Forest.Good.leafBelow_cons (hg : t.Good f k) (hi : i.val < t.nnodes) (h : LeafBelow t.node sym i (b :: p)) :
    (t.node.at i).leaf = false ∧ t.Parent k i ((t.node.at i).child b) ∧ ((t.node.at i).child b).val < t.nnodes ∧
      LeafBelow t.node sym ((t.node.at i).child b) p := by
  obtain ⟨_, hl, hc⟩ := leafBelow_cons_iff.1 h
  have hpar := hg.parent_child hi hl b
  exact ⟨hl, hpar, Nat.lt_trans (hg.lt_of_parent hpar) hi, hc⟩

/-- Only a counted symbol has a leaf. -/
theorem Forest.Good.pos_of_leafBelow (hg : t.Good f k) (hi : i.val < t.nnodes) (h : LeafBelow t.node sym i p) :
    0 < f.at sym := by
  induction p generalizing i with
  | nil =>
    obtain ⟨_, hl, rfl⟩ := leafBelow_nil_iff.1 h
    exact (hg.leaf_count i ((hg.isLeaf i hi).1 hl)).1
  | cons b p ih =>
    obtain ⟨_, _, hc, h⟩ := hg.leafBelow_cons hi h
    exact ih hc h

/-- Two paths of one length to the leaf of one symbol are the same path from the same node: the leaf is the only one of
its symbol, and going up from it each node has one parent. -/
theorem Forest.Good.leafBelow_unique (hg : t.Good f k) (hi : i.val < t.nnodes) (hj : j.val < t.nnodes)
    (hp : LeafBelow t.node sym i p) (hq : LeafBelow t.node sym j q) (hlen : p.length = q.length) : i = j ∧ p = q := by
  induction p generalizing i j q with
  | nil =>
    obtain rfl := List.length_eq_zero_iff.1 hlen.symm
    obtain ⟨_, hli, hsi⟩ := leafBelow_nil_iff.1 hp
    obtain ⟨_, hlj, hsj⟩ := leafBelow_nil_iff.1 hq
    exact ⟨hg.leaf_inj i j ((hg.isLeaf i hi).1 hli) ((hg.isLeaf j hj).1 hlj) (hsi.trans hsj.symm), rfl⟩
  | cons b p ih =>
    cases q with
    | nil => cases hlen
    | cons c q =>
      obtain ⟨hl, hpi, hci, hp⟩ := hg.leafBelow_cons hi hp
      obtain ⟨_, hpj, hcj, hq⟩ := hg.leafBelow_cons hj hq
      obtain ⟨hchild, rfl⟩ := ih hci hcj hp hq (Nat.succ.inj hlen)
      obtain rfl := hg.one_parent i j _ hpi (hchild ▸ hpj)
      obtain rfl := hg.child_injective hi hl hchild
      exact ⟨rfl, rfl⟩

/-- A path to a symbol's leaf that is no shorter than the one from a live node is that one: else the live node would have a
parent. -/
theorem Forest.Good.eq_live_of_length_le (hg : t.Good f k) (hi : i.val < t.nnodes) (hroot : root ∈ t.pq)
    (hp : LeafBelow t.node sym i p) (hq : LeafBelow t.node sym root q) (hlen : q.length ≤ p.length) :
    i = root ∧ p = q := by
  have hlt := hg.live_lt root hroot
  induction p generalizing i with
  | nil => exact hg.leafBelow_unique hi hlt hp hq (Nat.le_zero.1 hlen).symm
  | cons b p ih =>
    obtain heq | hless := hlen.eq_or_lt
    · exact hg.leafBelow_unique hi hlt hp hq heq.symm
    · obtain ⟨_, hpar, hc, hp⟩ := hg.leafBelow_cons hi hp
      obtain ⟨hchild, _⟩ := ih hc hp (Nat.le_of_lt_succ hless)
      exact absurd (hchild ▸ hpar) ((hg.orphan root hlt).1 hroot i)

/-- A symbol has at most one path from a live node. -/
theorem Forest.Good.path_unique (hg : t.Good f k) (hroot : root ∈ t.pq) (hp : LeafBelow t.node sym root p)
    (hq : LeafBelow t.node sym root q) : p = q := by
  have hlt := hg.live_lt root hroot
  obtain hle | hle := Nat.le_total q.length p.length
  · exact (hg.eq_live_of_length_le hlt hroot hp hq hle).2
  · exact (hg.eq_live_of_length_le hlt hroot hq hp hle).2.symm

/-- Following any bit sequence down from an allocated node ends in a leaf (R155 (d)), since a child's id is below its
parent's. -/
theorem Forest.Good.exists_leafBelow_stream (hg : t.Good f k) (hi : i.val < t.nnodes) (stream : Nat → Bit) :
    ∃ sym n, LeafBelow t.node sym i ((List.range n).map stream) := by
  induction i using WellFoundedLT.induction generalizing stream with
  | ind i ih =>
    cases hl : (t.node.at i).leaf with
    | true => exact ⟨_, 0, .here (hg.valid i hi) hl rfl⟩
    | false =>
      have hless := hg.lt_of_parent (hg.parent_child hi hl (stream 0))
      obtain ⟨sym, n, h⟩ := ih _ hless (Nat.lt_trans hless hi) (stream ∘ Nat.succ)
      refine ⟨sym, n + 1, ?_⟩
      rw [List.range_succ_eq_map, List.map_cons, List.map_map]
      exact leafBelow_cons_iff.2 ⟨hg.valid i hi, hl, h⟩

/-- The root is the node allocated last, ROOT = 2K-2. -/
theorem Forest.Good.root_val (hg : t.Good f k) (hr : t.pq = [root]) : root.val + 2 = 2 * k := by
  have hbalance := hg.balance
  obtain ⟨i, hi, hlast⟩ := hg.newest
  obtain rfl : i = root := by simpa [hr] using hi
  rw [hr, List.length_singleton] at hbalance
  omega

/-- Every path has at most K-1 bits (R155 (c)): K levels are enough for the traversal. -/
theorem Forest.Good.path_length_lt (hg : t.Good f k) (hr : t.pq = [root]) (h : LeafBelow t.node sym root p) :
    p.length < k := by
  have hroot := hg.root_val hr
  obtain ⟨leaves, hleaves⟩ := leafPaths_isSome hg k root [] (hg.live_lt root (by simp [hr])) (by omega)
  exact leafPaths_depth _ _ _ _ _ hleaves h

end Paths

/-! ### The table of a finished tree (R154, R155) -/

section Table

variable {sym : Byte} {path : List Bit}

theorem CodeTable.OfTree.entry_of_path (htbl : tbl.OfTree t.node root) (hg : t.Good f k) (hr : t.pq = [root])
    (h : LeafBelow t.node sym root path) : path.length ≤ 255 ∧ tbl.at sym = entryOfCode path := by
  obtain ⟨hnone, _⟩ | ⟨p, hp, hlen, hentry⟩ := htbl sym
  · exact absurd h (hnone path)
  · obtain rfl := hg.path_unique (by simp [hr]) hp h
    exact ⟨hlen, hentry⟩

theorem CodeTable.OfTree.eq_zero {node : NodeFile} (htbl : tbl.OfTree node root) (h : (tbl.at sym).v = false) :
    tbl.at sym = CtEntry.zero := by
  obtain ⟨_, hzero⟩ | ⟨p, _, _, hentry⟩ := htbl sym
  · exact hzero
  · cases h.symm.trans (congrArg CtEntry.v hentry)

theorem CodeTable.OfTree.valid_iff_pos (htbl : tbl.OfTree t.node root) (hg : t.Good f k) (hr : t.pq = [root])
    (sym : Byte) : (tbl.at sym).v = true ↔ 0 < f.at sym := by
  rw [htbl.valid_iff]
  constructor
  · rintro ⟨p, hp⟩
    exact hg.pos_of_leafBelow (hg.live_lt root (by simp [hr])) hp
  · intro hpos
    obtain ⟨r, hlive, p, hp⟩ := hg.reached sym hpos
    obtain rfl : r = root := by simpa [hr] using hlive
    exact ⟨p, hp⟩

/-- The valid symbols are the symbols present. -/
theorem CodeTable.OfTree.filter_valid (htbl : tbl.OfTree t.node root) (hg : t.Good f k) (hr : t.pq = [root]) :
    (allSymbols.filter fun sym => (tbl.at sym).v) = presentSymbols f :=
  List.filter_congr fun sym _ => by
    rw [Bool.eq_iff_iff, htbl.valid_iff_pos hg hr, decide_eq_true_iff]

/-- Every bit sequence begins with a valid code (R155 (d)). -/
theorem CodeTable.OfTree.exists_code_of_stream (htbl : tbl.OfTree t.node root) (hg : t.Good f k) (hr : t.pq = [root])
    (stream : Nat → Bit) :
    ∃ sym, (tbl.at sym).v = true ∧ codeBits (tbl.at sym) = (List.range (tbl.at sym).len.toNat).map stream := by
  obtain ⟨sym, n, h⟩ := hg.exists_leafBelow_stream (hg.live_lt root (by simp [hr])) stream
  obtain ⟨hlen, hentry⟩ := htbl.entry_of_path hg hr h
  refine ⟨sym, (htbl.valid_iff sym).2 ⟨_, h⟩, ?_⟩
  rw [hentry, codeBits_entryOfCode _ hlen, entryOfCode_len hlen, List.length_map, List.length_range]

/-- A code made of one repeated bit (R155 (b)). -/
theorem CodeTable.OfTree.exists_constant_code (htbl : tbl.OfTree t.node root) (hg : t.Good f k) (hr : t.pq = [root])
    (b : Bit) : ∃ sym, (tbl.at sym).v = true ∧ ∀ c ∈ codeBits (tbl.at sym), c = b := by
  obtain ⟨sym, hv, hcode⟩ := htbl.exists_code_of_stream hg hr fun _ => b
  refine ⟨sym, hv, fun c hc => ?_⟩
  rw [hcode, List.mem_map] at hc
  obtain ⟨_, _, rfl⟩ := hc
  rfl

/-- With two symbols or more the root is no leaf, so no code is empty (R155 (b)). -/
theorem CodeTable.OfTree.code_ne_nil (htbl : tbl.OfTree t.node root) (hg : t.Good f k) (hr : t.pq = [root])
    (hk : 2 ≤ k) (hv : (tbl.at sym).v = true) : codeBits (tbl.at sym) ≠ [] := by
  have hval := hg.root_val hr
  have hinner := (hg.leaf_eq_false_iff (hg.live_lt root (by simp [hr]))).2 (by omega)
  intro hnil
  obtain ⟨_, hleaf, _⟩ := leafBelow_nil_iff.1 (hnil ▸ htbl.code hv)
  cases hinner.symm.trans hleaf

end Table

/-- The table of a non-empty input is that of its tree. -/
theorem tableOf_ofTree (hne : bytes ≠ []) :
    ∃ (t : Forest) (root : NodeId) (tbl : CodeTable), t.Good (freqOf bytes) (symbolCount bytes) ∧ t.pq = [root] ∧
      tbl.OfTree t.node root ∧ tableOf bytes = some (.ok tbl) := by
  obtain ⟨t, root, leaves, ht, hr, hleaves, htable, _⟩ := tableOf_input hne
  obtain ⟨_, _, ht', _, hg, _⟩ := treeOf_input hne
  obtain rfl := Except.ok.inj (ht.symm.trans ht')
  exact ⟨t, root, _, hg, hr, writeCodes_ofTree hleaves, htable⟩

/-- Settles O37: the laws of the paths of a good forest, read off the table of its tree. -/
theorem tableLaws : Obligations.TableLaws := by
  intro bytes hne
  obtain ⟨t, root, tbl, hg, hr, htbl, htable⟩ := tableOf_ofTree hne
  refine ⟨tbl, htable, fun s u hs hu hsu => ?_, fun hk => ⟨fun s hs => ?_, ?_, ?_⟩, fun s hs => ?_, hg.bound,
    fun _ => htbl.exists_code_of_stream hg hr⟩
  · have hprefix := htbl.prefixFree s u hs hu hsu
    exact ⟨hprefix, fun heq => hprefix (heq ▸ List.prefix_rfl)⟩
  · exact List.length_pos_iff.2 (htbl.code_ne_nil hg hr hk hs)
  · exact htbl.exists_constant_code hg hr true
  · exact htbl.exists_constant_code hg hr false
  · exact hg.path_length_lt hr (htbl.code hs)

/-! ### DERIVE (R150, R154) -/

/-- DERIVE on a finished good forest with the table cleared writes the table of the tree. -/
theorem phaseStep_derive (hphase : s.phase = .derive) (hg : s.forest.Good f k) (hr : s.pq = [s.root])
    (hct : s.ct = CodeTable.zero) :
    ∃ tbl : CodeTable, phaseStep s = .next { s with ct := tbl, phase := .emit } ∧
      tbl.OfTree s.forest.node s.root := by
  have hstep : phaseStep s = phaseDerive s := by rw [phaseStep, hphase]
  obtain ⟨leaves, hleaves, _⟩ := derive_good hg hr
  obtain ⟨hnone, _⟩ | ⟨leaves', hleaves', hderive⟩ := phaseDerive_cases s
  · cases hnone.symm.trans hleaves
  · rw [hct] at hderive
    exact ⟨_, hstep.trans hderive, writeCodes_ofTree hleaves'⟩

/-- Settles O36: `phaseStep_derive`, and what the table of a finished tree holds. -/
theorem derivePhase : Obligations.DerivePhase := by
  intro s bytes hphase hne htree hr hct
  obtain ⟨_, _, htree', _, hg, _⟩ := treeOf_input hne
  obtain rfl := Except.ok.inj (htree.symm.trans htree')
  obtain ⟨tbl, hstep, htbl⟩ := phaseStep_derive hphase hg hr hct
  refine ⟨tbl, hstep, fun sym path h => ?_, fun sym => ?_, fun sym => htbl.code, fun sym => htbl.eq_zero, ?_,
    htbl.prefixFree⟩
  · obtain ⟨hlen, hentry⟩ := htbl.entry_of_path hg hr h
    rw [hentry]
    exact ⟨rfl, entryOfCode_len hlen, entryOfCode_code hlen, codeBits_entryOfCode path hlen⟩
  · rw [mem_iff_freqOf_pos, htbl.valid_iff_pos hg hr]
  · rw [htbl.filter_valid hg hr, symbolCount]

end Sys2Proof.Machine
end

section
/-!
Proofs of the statements of 44_bit_packer.md. EMIT's length is summed symbol by symbol with Mathlib's count of a list's
elements; PADLZC's count is `leadingZeros`, said bit by bit; PACK's bytes are read back through `payloadBits_packBytes`.
That a bitstream of two symbols or more holds a 1 is the all-ones code every table has.
-/

namespace Sys2Proof.Machine

variable {s : State} {bytes : List Byte} {bits : List Bit} {tbl : CodeTable} {sym : Byte} {n : Nat}

/-! ### EMIT (R160, R171) -/

/-- The length of the concatenated codes, each symbol's share of it gathered (R214). -/
theorem length_flatMap_codeBits (tbl : CodeTable) (bytes : List Byte) :
    (bytes.flatMap fun b => codeBits (tbl.at b)).length =
      (allSymbols.map fun sym => bytes.count sym * (tbl.at sym).len.toNat).sum := by
  have habsent : ∀ sym ∈ allSymbols.toFinset, sym ∉ bytes.toFinset → bytes.count sym • (tbl.at sym).len.toNat = 0 :=
    fun sym _ hsym => by rw [List.count_eq_zero_of_not_mem (by simpa using hsym), zero_smul]
  calc (bytes.flatMap fun b => codeBits (tbl.at b)).length
      = (bytes.map fun b => (tbl.at b).len.toNat).sum := by simp only [List.length_flatMap, codeBits_length]
    _ = ∑ sym ∈ bytes.toFinset, bytes.count sym • (tbl.at sym).len.toNat := Finset.sum_list_map_count _ _
    _ = ∑ sym ∈ allSymbols.toFinset, bytes.count sym • (tbl.at sym).len.toNat :=
        Finset.sum_subset (fun sym _ => by simp) habsent
    _ = (allSymbols.map fun sym => bytes.count sym * (tbl.at sym).len.toNat).sum := List.sum_toFinset _ allSymbols_nodup

/-- EMIT with a valid entry for every byte of a readable input. -/
theorem phaseStep_emit (hphase : s.phase = .emit) (hin : inputBytes s = some bytes)
    (hvalid : ∀ b ∈ bytes, (s.ct.at b).v = true) (hbits : bits = bytes.flatMap fun b => codeBits (s.ct.at b)) :
    phaseStep s = .next (afterEmit (State.flagDegen
      { s.writeBits s.bsLen bits with bsLen := s.bsLen + bits.length })) := by
  have hstep : phaseStep s = phaseEmit s := by rw [phaseStep, hphase]
  have henc := (encodeSymbols_eq s.ct bytes bits).2 ⟨hvalid, hbits⟩
  obtain ⟨hnone, _⟩ | ⟨bytes', hin', hnone, _⟩ | ⟨bytes', bits', hin', henc', hemit⟩ := phaseEmit_cases s
  · cases hnone.symm.trans hin
  · obtain rfl := Option.some.inj (hin.symm.trans hin')
    cases hnone.symm.trans henc
  · obtain rfl := Option.some.inj (hin.symm.trans hin')
    obtain rfl := Option.some.inj (henc.symm.trans henc')
    exact hstep.trans hemit

/-- Settles O39: the two successors of EMIT hold the bits it wrote. -/
theorem emitPhase : Obligations.EmitPhase := by
  intro s bytes hphase hin hvalid hlen
  have hstep := phaseStep_emit hphase hin hvalid rfl
  rw [hlen, Nat.zero_add, afterEmit] at hstep
  refine ⟨_, _, rfl, length_flatMap_codeBits s.ct bytes, hstep, ?_, ?_⟩
  · split
    · exact bitstream_of_writeBits (s := s) rfl rfl rfl
    · exact (bitstream_markStale _).trans (bitstream_of_writeBits (s := s) rfl rfl rfl)
  · rfl

/-! ### PADLZC (R162 to R164) -/

/-- The leading-zero count is the index of the first 1, or the length of a sequence without one (R163). -/
theorem leadingZeros_first_one (p : List Bit) :
    (true ∉ p ∧ leadingZeros p = p.length) ∨
      (p[leadingZeros p]? = some true ∧ ∀ j, j < leadingZeros p → p[j]? = some false) := by
  induction p with
  | nil => exact .inl ⟨List.not_mem_nil, rfl⟩
  | cons b p ih =>
    cases b with
    | true => exact .inr ⟨rfl, fun j hj => absurd hj (Nat.not_lt_zero j)⟩
    | false =>
      obtain ⟨hnone, hlen⟩ | ⟨hone, hzeros⟩ := ih
      · exact .inl ⟨by simpa using hnone, congrArg Nat.succ hlen⟩
      · refine .inr ⟨hone, fun j hj => ?_⟩
        cases j with
        | zero => rfl
        | succ j => exact hzeros j (Nat.lt_of_succ_lt_succ hj)

/-- Settles O40: the padding is `add_padCount_mod`, the count `leadingZeros_first_one`, the outcome `phasePadlzc_readable`. -/
theorem padLzcPhase : Obligations.PadLzcPhase := by
  intro s bits hphase hbits
  have hstep : phaseStep s = phasePadlzc s := by rw [phaseStep, hphase]
  refine ⟨padCount bits.length, leadingZeros (padBits bits), padBits bits, ?_, padCount_le _, rfl, ?_,
    leadingZeros_first_one _, ?_⟩
  · rw [bitstream_length hbits, padCount]
  · rw [padBits_length, add_padCount_mod]
  · obtain ⟨hover, hpad⟩ | ⟨hfits, hpad⟩ := phasePadlzc_readable hbits
    · rw [hstep, hpad, if_pos hover]
    · rw [hstep, hpad, if_neg (not_lt.2 hfits)]

/-! ### PACK (R165, R166) -/

/-- The number of payload bytes is ceil(L / 8) (R162). -/
theorem add_padCount_div (n : Nat) : (n + padCount n) / 8 = (n + 7) / 8 := by
  unfold padCount
  split <;> omega

theorem bitsOf_getElem? {k : Nat} (v : Nat) (hk : k < n) : (bitsOf n v)[k]? = some (v.testBit (n - 1 - k)) := by
  induction n generalizing k with
  | zero => exact absurd hk (Nat.not_lt_zero k)
  | succ n ih =>
    cases k with
    | zero => rfl
    | succ k =>
      rw [bitsOf, List.getElem?_cons_succ, ih (Nat.lt_of_succ_lt_succ hk)]
      congr 2
      omega

/-- Bit `8j + k` of the payload is bit `7 - k` of byte `j` (20_memory.md R62). -/
theorem payloadBits_getElem? {j k : Nat} (bs : List Byte) (hk : k < 8) :
    (payloadBits bs)[8 * j + k]? = bs[j]?.map fun b => b.getLsbD (7 - k) := by
  induction bs generalizing j with
  | nil => rfl
  | cons b bs ih =>
    have hcons : payloadBits (b :: bs) = byteBits b ++ payloadBits bs := rfl
    rw [hcons]
    cases j with
    | zero =>
      rw [Nat.mul_zero, Nat.zero_add, List.getElem?_append_left (by rwa [byteBits_length]), byteBits, bitsOf_getElem? _ hk]
      rfl
    | succ j =>
      rw [List.getElem?_append_right (by rw [byteBits_length]; omega), byteBits_length, List.getElem?_cons_succ, ← ih]
      congr 1
      omega

/-- Bit `7 - k` of packed byte `j` is bit `8j + k` of the whole bytes packed (R165). -/
theorem packBytes_getLsbD {p : List Bit} (hwhole : p.length % 8 = 0) {j k : Nat} (hj : j < (packBytes p).length)
    (hk : k < 8) : some ((packBytes p)[j].getLsbD (7 - k)) = p[8 * j + k]? := by
  have hbyte := payloadBits_getElem? (j := j) (packBytes p) hk
  rw [payloadBits_packBytes p hwhole, List.getElem?_eq_getElem hj] at hbyte
  exact hbyte.symm

/-- Settles O41: the container is `containerBytes`; its payload, read back as bits, is the padded bitstream. -/
theorem packPhase : Obligations.PackPhase := by
  intro s bits hphase hbits hpad _
  have hlen := bitstream_length hbits
  have hpad' : s.pad = padCount bits.length := by rw [hpad, hlen, padCount]
  have hstep : phaseStep s = phasePack s := by rw [phaseStep, hphase]
  have hwhole : (padBits bits).length % 8 = 0 := by rw [padBits_length, add_padCount_mod]
  have hcount : (packBytes (padBits bits)).length = (s.bsLen + 7) / 8 := by
    rw [packBytes_length _ hwhole, padBits_length, add_padCount_div, hlen]
  refine ⟨containerBytes s.pad s.lzc bits, ?_, rfl, rfl, fun j k hj hk => ?_, ?_⟩
  · rw [containerBytes_length, add_padCount_div, hlen]
  · rw [← hcount] at hj
    rw [hpad', ← padBits]
    refine ⟨(packBytes (padBits bits))[j], ?_, packBytes_getLsbD hwhole hj hk⟩
    rw [Nat.add_comm 2 j]
    exact List.getElem?_eq_getElem hj
  · exact hstep.trans (phasePack_readable hbits)

/-! ### The bitstream of an encoder (R168, R169) -/

/-- With no node live there is nothing to merge. -/
theorem mergeAll_empty (n : Nat) : mergeAll n Forest.empty = .ok Forest.empty := by
  induction n with
  | zero => rfl
  | succ n ih => exact ih

/-- The encoder answers bits for no empty input. -/
theorem input_ne_nil_of_encodeBytes (henc : encodeBytes bytes = some (.ok (bits, tbl))) : bytes ≠ [] := by
  rintro rfl
  have hempty : encodeBytes [] = some (.error .emptyInput) := by
    have htree : treeOf (freqOf []) = .ok Forest.empty := by
      rw [treeOf, freqOf, countBytes, insertLeaves_zero]
      exact mergeAll_empty 255
    simp only [encodeBytes, tableOf, htree, Forest.empty]
  cases hempty.symm.trans henc

/-- The symbol with the code of ones alone is in the input, and with two symbols or more that code is not empty. -/
theorem one_mem_of_encodeBytes (hk : 2 ≤ symbolCount bytes) (henc : encodeBytes bytes = some (.ok (bits, tbl))) :
    true ∈ bits := by
  obtain ⟨t, root, tbl', hg, hr, htbl, _, henc'⟩ := encodeBytes_input (input_ne_nil_of_encodeBytes henc)
  obtain ⟨rfl, rfl⟩ := Prod.mk.inj (Except.ok.inj (Option.some.inj (henc.symm.trans henc')))
  obtain ⟨sym, hv, hones⟩ := htbl.exists_constant_code hg hr true
  have hmem : sym ∈ bytes := (mem_iff_freqOf_pos bytes sym).2 ((htbl.valid_iff_pos hg hr sym).1 hv)
  obtain ⟨c, hc⟩ := List.exists_mem_of_ne_nil _ (htbl.code_ne_nil hg hr hk hv)
  exact List.mem_flatMap.2 ⟨sym, hmem, hones c hc ▸ hc⟩

/-- Settles O43: `symbolCount_ne_one_of_bits` for one symbol, `one_mem_of_encodeBytes` for more. -/
theorem noAllZeroBitstream : Obligations.NoAllZeroBitstream := by
  intro bytes bits tbl henc
  have hne := input_ne_nil_of_encodeBytes henc
  refine ⟨⟨fun hnil => ?_, fun h1 => ?_⟩, fun hk => one_mem_of_encodeBytes hk henc⟩
  · by_contra h1
    have hone := one_mem_of_encodeBytes (two_le_symbolCount hne (beq_eq_false_iff_ne.2 h1)) henc
    rw [hnil] at hone
    cases hone
  · by_contra hbits
    exact symbolCount_ne_one_of_bits hne henc hbits h1

/-! ### One distinct symbol (R168, R217) -/

theorem symbolCount_replicate (hn : 0 < n) (sym : Byte) : symbolCount (List.replicate n sym) = 1 := by
  have hne : List.replicate n sym ≠ [] := mt (List.replicate_eq_nil_iff sym).1 hn.ne'
  by_contra h1
  obtain ⟨a, ha, b, hb, hab⟩ := exists_ne_of_symbolCount (two_le_symbolCount hne (beq_eq_false_iff_ne.2 h1))
  exact hab ((List.eq_of_mem_replicate ha).trans (List.eq_of_mem_replicate hb).symm)

/-- The encoding of an input of one distinct symbol: no bits, and a table with the empty code for the symbol alone. -/
theorem encodeBytes_replicate (hn : 0 < n) (henc : encodeBytes (List.replicate n sym) = some (.ok (bits, tbl))) :
    bits = [] ∧ hasDuplicate tbl = false ∧
      ∀ x, tbl.at x = if x = sym then { v := true, len := 0, code := 0 } else { v := false, len := 0, code := 0 } := by
  have h1 := symbolCount_replicate hn sym
  have hnil : bits = [] := (noAllZeroBitstream _ _ _ henc).1.2 h1
  obtain ⟨t, root, tbl', hg, hr, htbl, _, henc'⟩ := encodeBytes_input (input_ne_nil_of_encodeBytes henc)
  obtain ⟨_, rfl⟩ := Prod.mk.inj (Except.ok.inj (Option.some.inj (henc.symm.trans henc')))
  have hvalid : ∀ x, (tbl.at x).v = true ↔ x = sym := fun x => by
    rw [htbl.valid_iff_pos hg hr, ← mem_iff_freqOf_pos, List.mem_replicate]
    exact and_iff_right (by omega)
  refine ⟨hnil, htbl.prefixFree.hasDuplicate, fun x => ?_⟩
  by_cases hx : x = sym
  · have hv := (hvalid x).2 hx
    have hpath := htbl.code hv
    rw [codeBits_of_single_leaf (h1 ▸ hg) hr htbl hv] at hpath
    rw [if_pos hx, (htbl.entry_of_path hg hr hpath).2]
    rfl
  · rw [if_neg hx, htbl.eq_zero (Bool.eq_false_iff.2 (mt (hvalid x).1 hx))]
    rfl

theorem packBits_nil : packBits [] = .ok [0#8, 0#8] := rfl

/-- DECOMPRESS of the container [0, 0] gives no bytes, whatever the table codes, if it passes INVERT (R217). -/
theorem decompress_zero_header (hb : s.busy = false) (hd : hasDuplicate s.ct = false)
    (hin : inputBytes s = some [0#8, 0#8]) :
    ∃ s0 t, exec .decompress s = .next s0 ∧ runCommand s0 = .next t ∧ t.err = false ∧ t.outLen = 0 := by
  obtain ⟨s0, t, hexec, hrun, herr, hout⟩ :=
    decompress_accepted hb hin (unpackBits_packBits packBits_nil) (decodeBits_nil hd)
  exact ⟨s0, t, hexec, hrun, herr, (memRead_length hout).symm⟩

/-- STATUS at the end of an encoder's run on one distinct symbol (R168): DONE and DEGEN alone. -/
theorem statusWord_done_degen (hphase : s.phase = .idle) (hecode : s.ecode = none) (hdegen : s.degen = true)
    (herr : s.err = false) (hdone : s.done = true) (hbusy : s.busy = false) : statusWord s = 0x00A#32 := by
  rw [statusWord, hphase, hecode, hdegen, herr, hdone, hbusy]
  rfl

/-- Settles O44: COMPRESS packs the empty bitstream of `encodeBytes_replicate`, and DECOMPRESS unpacks it again. -/
theorem singleSymbolInput : Obligations.SingleSymbolInput := by
  intro s sym n hb hn hin
  have h1 := symbolCount_replicate hn sym
  have hne : List.replicate n sym ≠ [] := mt (List.replicate_eq_nil_iff sym).1 hn.ne'
  obtain ⟨f, root, tbl, bits, s0, _, _, henc, hexec, hok, _⟩ := compressRuns s _ hb hin hne
  obtain ⟨rfl, hd, hentry⟩ := encodeBytes_replicate hn henc
  obtain ⟨_, hrun⟩ := hok _ packBits_nil
  have hdegen : (symbolCount (List.replicate n sym) == 1) = true := beq_iff_eq.2 h1
  refine ⟨s0, _, hexec, hrun, rfl, hdegen, statusWord_done_degen rfl rfl hdegen rfl rfl rfl, List.length_replicate,
    rfl, rfl, rfl, rfl, memRead_memWrite_same s.outBuf 0 [0#8, 0#8], hentry, fun u hbu hct hinu => ?_⟩
  exact decompress_zero_header hbu (hct ▸ hd) hinu

end Sys2Proof.Machine
end

section
/-!
Proofs of the statements of 45_bit_unpacker.md. What HEADER and UNPACK answer on a readable container is said by
`phaseHeader_short`, `phaseHeader_readable` and `phaseUnpack_readable`; here the model's recursions on the payload are
brought to the list functions the statements are written with.
-/

namespace Sys2Proof.Machine

variable {bits t : List Bit} {pad lzc : Nat}

/-! ### Unpacking what was packed (R187) -/

/-- Packing gives a container exactly when the leading-zero count fits its byte (R164, R170). -/
theorem exists_packBits_ok_iff (bits : List Bit) :
    (∃ container, packBits bits = .ok container) ↔ leadingZeros (padBits bits) ≤ 255 := by
  refine ⟨fun ⟨container, hok⟩ => ?_, fun hfits => ⟨_, packBits_fits hfits⟩⟩
  by_contra hover
  cases (packBits_overflow (not_le.1 hover)).symm.trans hok

/-- Settles O47: the unpacker undoes the packer, and the packer fails on the leading-zero count alone. -/
theorem unpackInvertsPack : Obligations.UnpackInvertsPack := fun bits =>
  ⟨fun _ => unpackBits_packBits, exists_packBits_ok_iff bits, packBits_overflow⟩

/-! ### UNPACK (R182 to R185) -/

/-- The payload bit by bit, the most significant bit of each byte first (R182). -/
theorem payloadBits_eq_flatMap (payload : List Byte) :
    payloadBits payload = payload.flatMap fun b => (List.range 8).map fun k => b.getLsbD (7 - k) := rfl

/-- The minimal string is what follows the leading zeros (R183, R185). -/
theorem minimalBits_eq_dropWhile (q : List Bit) : minimalBits q = q.dropWhile fun b => b == false := by
  induction q with
  | nil => rfl
  | cons b q ih =>
    cases b with
    | false => exact ih
    | true => rfl

/-- Steps 3 and 4 as one case split: too few bits to drop, or the leading zeros and the minimal string without the
padding (R184). -/
theorem restoreBits_eq (pad lzc : Nat) (t : List Bit) :
    restoreBits pad lzc t =
      if (t ≠ [] ∧ t.length < pad) ∨ (List.replicate lzc false ++ t).length < pad then none
      else some ((List.replicate lzc false ++ t).take ((List.replicate lzc false ++ t).length - pad)) := by
  rw [restoreBits, ite_or]

theorem restoreBits_eq_none_iff :
    restoreBits pad lzc t = none ↔ (t ≠ [] ∧ t.length < pad) ∨ (List.replicate lzc false ++ t).length < pad := by
  rw [restoreBits_eq]
  exact ⟨fun h => by_contra fun hfew => Option.some_ne_none _ ((if_neg hfew).symm.trans h), fun hfew => if_pos hfew⟩

theorem restoreBits_eq_some_iff :
    restoreBits pad lzc t = some bits ↔
      ¬ ((t ≠ [] ∧ t.length < pad) ∨ (List.replicate lzc false ++ t).length < pad) ∧
        (List.replicate lzc false ++ t).take ((List.replicate lzc false ++ t).length - pad) = bits := by
  rw [restoreBits_eq, Option.ite_none_left_eq_some, Option.some_inj]

/-- Settles O46: UNPACK raises exactly when `restoreBits` has too few bits, and otherwise writes what it restores. -/
theorem unpackPhase : Obligations.UnpackPhase := by
  intro s b0 b1 payload hphase hin
  have hstep : phaseStep s = phaseUnpack s := by rw [phaseStep, hphase]
  have hdrop : (b0 :: b1 :: payload).drop 2 = payload := rfl
  have hcases := phaseUnpack_readable hin
  rw [hdrop] at hcases
  refine ⟨_, _, _, rfl, rfl, rfl, ?_⟩
  rw [hstep, ← payloadBits_eq_flatMap, ← minimalBits_eq_dropWhile]
  obtain ⟨hnone, hunpack⟩ | ⟨bits, hsome, hunpack⟩ := hcases
  · rw [hunpack, if_pos (restoreBits_eq_none_iff.1 hnone)]
  · obtain ⟨henough, rfl⟩ := restoreBits_eq_some_iff.1 hsome
    rw [hunpack, if_neg henough, List.length_take, Nat.min_eq_left (Nat.sub_le _ _)]

/-! ### HEADER (R180, R181) -/

/-- Settles O45: a container without a header, a pad count above 7, and a header UNPACK follows. -/
theorem headerPhase : Obligations.HeaderPhase := by
  intro s hphase
  have hstep : phaseStep s = phaseHeader s := by rw [phaseStep, hphase]
  rw [hstep]
  refine ⟨fun bytes hin hlen => phaseHeader_short hin (by rwa [inputBytes_length hin]), fun b0 b1 payload hin => ?_⟩
  obtain ⟨hpad, hheader⟩ | ⟨hpad, hheader⟩ := phaseHeader_readable hin
  · rw [hheader, if_pos hpad]
  · rw [hheader, if_neg (not_lt.2 hpad)]

end Sys2Proof.Machine
end

section
/-!
Proofs of the statements of 46_decoder.md. `scanBits_skip` says what the scan does where nothing matches;
`scanBits_eq_iff_scanned` says that `CodeTable.Scanned`, the specification of the scan, is met by what `scanBits` answers
and by nothing else.
-/

namespace Sys2Proof.Machine

variable {s : State} {tbl : CodeTable} {bits cand : List Bit} {out : List Byte}

/-! ### The inverse table (R190) -/

theorem inverseCode_validCodes_none {c : List Bit} :
    inverseCode (validCodes tbl) c = none ↔ ∀ a : Byte, (tbl.at a).v = true → c ≠ codeBits (tbl.at a) := by
  simp only [inverseCode_none, mem_validCodes, not_and, ne_eq]

/-- A table in which no two valid entries share a code passes the check of INVERT. -/
theorem hasDuplicate_eq_false
    (h : ∀ a b : Byte, (tbl.at a).v = true → (tbl.at b).v = true → codeBits (tbl.at a) = codeBits (tbl.at b) → a = b) :
    hasDuplicate tbl = false := by
  by_contra hd
  obtain ⟨a, b, hne, ha, hb, he⟩ := (hasDuplicate_iff tbl).1 (Bool.eq_true_of_not_eq_false hd)
  exact hne (h a b ha hb he)

/-- Settles O48: the check of INVERT is `hasDuplicate`, which `hasDuplicate_iff` reads entry by entry. -/
theorem invertPhase : Obligations.InvertPhase := by
  intro s hphase
  have hstep : phaseStep s = phaseInvert s := by rw [phaseStep, hphase]
  rw [hstep]
  obtain ⟨hdup, hinvert⟩ | ⟨hnodup, hinvert⟩ := phaseInvert_cases s
  · refine ⟨fun _ => hinvert, fun h => ?_⟩
    cases hdup.symm.trans (hasDuplicate_eq_false h)
  · refine ⟨fun h => ?_, fun _ => hinvert⟩
    cases hnodup.symm.trans ((hasDuplicate_iff s.ct).2 h)

/-! ### What the scan emits (R193 to R196) -/

/-- Where the candidate matches at no length on the way, the bits only lengthen it. -/
theorem scanBits_skip {codes : List (Byte × List Bit)} {u w : List Bit} (rest : List Bit)
    (hno : ∀ v, v ≠ [] → v <+: w → inverseCode codes (u ++ v) = none) :
    scanBits codes u (w ++ rest) = scanBits codes (u ++ w) rest := by
  induction w generalizing u with
  | nil => rw [List.nil_append, List.append_nil]
  | cons b w ih =>
    have hb : inverseCode codes (u ++ [b]) = none :=
      hno [b] (List.cons_ne_nil b []) (List.prefix_append [b] w)
    have hw : ∀ v, v ≠ [] → v <+: w → inverseCode codes (u ++ [b] ++ v) = none := fun v _ hv => by
      rw [List.append_assoc]
      exact hno (b :: v) (List.cons_ne_nil b v) ((List.prefix_cons_inj b).2 hv)
    rw [List.cons_append, scanBits_cons_none _ hb, ih hw, List.append_assoc, List.singleton_append]

/-- Bits along which nothing matches are left as the candidate, and nothing is emitted. -/
theorem scanBits_of_no_match {codes : List (Byte × List Bit)} {u : List Bit}
    (hno : ∀ v, v ≠ [] → v <+: bits → inverseCode codes (u ++ v) = none) :
    scanBits codes u bits = ([], u ++ bits) := by
  have hskip := scanBits_skip [] hno
  rwa [List.append_nil, scanBits_nil] at hskip

/-- No valid, non-empty code begins `c`: what holds of the candidate all through the scan, and `CodeTable.Scanned` says of
the candidate left. -/
def CodeTable.Unmatched (tbl : CodeTable) (c : List Bit) : Prop :=
  ∀ a : Byte, (tbl.at a).v = true → codeBits (tbl.at a) ≠ [] → ¬ codeBits (tbl.at a) <+: c

theorem CodeTable.unmatched_nil (tbl : CodeTable) : tbl.Unmatched [] :=
  fun _ _ hne hpre => hne (List.prefix_nil.1 hpre)

theorem CodeTable.Unmatched.inverseCode_eq_none (h : tbl.Unmatched cand) {v : List Bit} (hv : v ≠ [])
    (hpre : v <+: cand) : inverseCode (validCodes tbl) v = none := by
  refine inverseCode_validCodes_none.2 ?_
  rintro a ha rfl
  exact h a ha hv hpre

theorem CodeTable.Unmatched.concat (h : tbl.Unmatched cand) {b : Bit}
    (hnone : inverseCode (validCodes tbl) (cand ++ [b]) = none) : tbl.Unmatched (cand ++ [b]) := by
  intro a ha hne hpre
  obtain hall | hpre := List.prefix_concat_iff.1 hpre
  · exact inverseCode_validCodes_none.1 hnone a ha hall.symm
  · exact h a ha hne hpre

theorem CodeTable.Unmatched.scanned (h : tbl.Unmatched cand) : tbl.Scanned cand [] cand where
  parts := rfl
  emitted := by simp
  shortest := by simp
  unmatched := h

/-- A match at one bit beyond an unmatched candidate, in front of a scan of the bits after it. -/
theorem CodeTable.Scanned.cons {b : Bit} {a : Byte} {u : List Bit} (h : tbl.Scanned bits out cand)
    (hu : tbl.Unmatched u) (ha : (tbl.at a).v = true) (hcode : codeBits (tbl.at a) = u ++ [b]) :
    tbl.Scanned (u ++ b :: bits) (a :: out) cand where
  parts := by
    rw [List.flatMap_cons, hcode, List.append_assoc, ← h.parts, List.append_assoc, List.singleton_append]
  emitted := List.forall_mem_cons.2 ⟨⟨ha, by simp [hcode]⟩, h.emitted⟩
  shortest := by
    refine List.forall_mem_cons.2 ⟨fun c hc hne hpre => ?_, h.shortest⟩
    rw [hcode] at hpre ⊢
    exact (List.prefix_concat_iff.1 hpre).resolve_right (hu c hc hne)
  unmatched := h.unmatched

/-- What the scan answers, from a candidate along which nothing matched, meets its specification. -/
theorem scanned_scanBits (hu : tbl.Unmatched cand) :
    tbl.Scanned (cand ++ bits) (scanBits (validCodes tbl) cand bits).1 (scanBits (validCodes tbl) cand bits).2 := by
  induction bits generalizing cand with
  | nil =>
    rw [List.append_nil, scanBits_nil]
    exact hu.scanned
  | cons b bits ih =>
    cases hi : inverseCode (validCodes tbl) (cand ++ [b]) with
    | none =>
      rw [scanBits_cons_none _ hi, ← List.singleton_append, ← List.append_assoc]
      exact ih (hu.concat hi)
    | some a =>
      rw [scanBits_cons_some _ hi]
      obtain ⟨ha, hcode⟩ := (mem_validCodes tbl a _).1 (inverseCode_some hi)
      exact (ih tbl.unmatched_nil).cons hu ha hcode.symm

/-- The scan over a non-empty valid code with no shorter one in its place emits its symbol (R199). -/
theorem scanBits_shortest (hd : hasDuplicate tbl = false) {a : Byte} (rest : List Bit) (ha : (tbl.at a).v = true)
    (hne : codeBits (tbl.at a) ≠ [])
    (hshort : ∀ c : Byte, (tbl.at c).v = true → codeBits (tbl.at c) ≠ [] →
      codeBits (tbl.at c) <+: codeBits (tbl.at a) → codeBits (tbl.at c) = codeBits (tbl.at a)) :
    scanBits (validCodes tbl) [] (codeBits (tbl.at a) ++ rest) =
      (a :: (scanBits (validCodes tbl) [] rest).1, (scanBits (validCodes tbl) [] rest).2) := by
  have hmatch := inverseCode_code hd ha
  obtain ⟨w, b, hcode⟩ := (List.eq_nil_or_concat' _).resolve_left hne
  rw [hcode] at hmatch hshort ⊢
  have hw : tbl.Unmatched w := fun c hc hcne hpre => by
    have hlen := hpre.length_le
    rw [hshort c hc hcne (hpre.trans (List.prefix_append w [b])), List.length_append, List.length_singleton] at hlen
    omega
  rw [List.append_assoc, scanBits_skip _ fun v hv => hw.inverseCode_eq_none hv]
  exact scanBits_cons_some rest hmatch

/-- The specification of the scan is met by what the scan answers and by nothing else. -/
theorem scanBits_eq_iff_scanned (hd : hasDuplicate tbl = false) :
    scanBits (validCodes tbl) [] bits = (out, cand) ↔ tbl.Scanned bits out cand := by
  refine ⟨fun h => ?_, fun h => ?_⟩
  · have hs := scanned_scanBits (bits := bits) tbl.unmatched_nil
    rwa [h] at hs
  · obtain ⟨rfl, hemit, hshort, hcand⟩ := h
    have hleft : scanBits (validCodes tbl) [] cand = ([], cand) :=
      scanBits_of_no_match fun _ => CodeTable.Unmatched.inverseCode_eq_none hcand
    induction out with
    | nil => exact hleft
    | cons a out ih =>
      obtain ⟨⟨ha, hne⟩, hemit⟩ := List.forall_mem_cons.1 hemit
      obtain ⟨hmin, hshort⟩ := List.forall_mem_cons.1 hshort
      rw [List.flatMap_cons, List.append_assoc, scanBits_shortest hd _ ha hne hmin, ih hemit hshort]

theorem decoded_of_scan (hphase : s.phase = .scan) (out : List Byte) (cand : List Bit) :
    decoded s out cand = { s with
      outBuf := memWrite s.outBuf 0 out, outLen := out.length, cand := cand, candLen := cand.length } := by
  rw [decoded, ← hphase]

/-- Settles O49: `scanBits_eq_iff_scanned` gives the one pair, `phaseStep_scan` the state. -/
theorem scanPhase : Obligations.ScanPhase := by
  intro s bits hphase hcand hout hbits hinj
  have hd := hasDuplicate_eq_false hinj
  have hs : { s with phase := .scan } = s := by rw [← hphase]
  obtain ⟨⟨out, cand⟩, hscan⟩ : ∃ r, scanBits (validCodes s.ct) [] bits = r := ⟨_, rfl⟩
  have hstep := phaseStep_scan hout hcand hbits hscan
  rw [hs, decoded_of_scan hphase] at hstep
  refine ⟨out, cand, (scanBits_eq_iff_scanned hd).1 hscan, fun out' cand' h => ?_, ?_, ?_, ?_⟩
  · exact Prod.mk.inj (((scanBits_eq_iff_scanned hd).2 h).symm.trans hscan)
  · have hlen := (scanBits_length (validCodes s.ct) [] bits).1
    rwa [hscan, bitstream_length hbits] at hlen
  · rintro rfl
    exact Prod.mk.inj hscan.symm
  · rw [hstep]
    by_cases hnil : cand = []
    · subst hnil
      rfl
    · rw [if_neg hnil, if_neg hnil]

/-! ### The codes of a sequence (R200) -/

/-- Settles O50: `decodeBits_codes`. -/
theorem scanDecodesConcatenation : Obligations.ScanDecodesConcatenation :=
  fun _ _ => decodeBits_codes

/-! ### Where nothing matches (R197, R198) -/

theorem inverseCode_of_no_valid (h : ∀ a : Byte, (tbl.at a).v = false) (c : List Bit) :
    inverseCode (validCodes tbl) c = none :=
  inverseCode_validCodes_none.2 fun a ha => nomatch (h a).symm.trans ha

/-- No entry is longer than 255 bits, so a longer candidate matches none (R198). -/
theorem inverseCode_of_long (tbl : CodeTable) {c : List Bit} (h : 256 ≤ c.length) :
    inverseCode (validCodes tbl) c = none := by
  refine inverseCode_validCodes_none.2 ?_
  rintro a - rfl
  have hle := codeBits_length_le (tbl.at a)
  omega

theorem hasDuplicate_of_no_valid (h : ∀ a : Byte, (tbl.at a).v = false) : hasDuplicate tbl = false :=
  hasDuplicate_eq_false fun a _ ha => nomatch (h a).symm.trans ha

/-- Settles O51: in both parts `scanBits_of_no_match` leaves all the bits as the candidate. -/
theorem nothingMatches : Obligations.NothingMatches := by
  refine ⟨fun tbl bits h => ?_, fun tbl cand bits hlong => ?_⟩
  · have hd := hasDuplicate_of_no_valid h
    have hscan : scanBits (validCodes tbl) [] bits = ([], bits) :=
      scanBits_of_no_match fun v _ _ => inverseCode_of_no_valid h v
    refine ⟨hd, hscan, ?_⟩
    rw [decodeBits, hd, if_neg Bool.false_ne_true, hscan]
  · refine scanBits_of_no_match fun v _ _ => inverseCode_of_long tbl ?_
    rw [List.length_append]
    omega

end Sys2Proof.Machine
end

section
/-!
Proof of 48_guarantees.md R213. MERGE takes nodes out of the live set in the priority order (R131), so a node that precedes
another gets its parent first (`Forest.TakenInOrder`). Two nodes at the same height above the leaves of two symbols are
therefore in the order of the symbols' counts, up to the root, which precedes no node with a parent.
-/

namespace Sys2Proof.Machine

variable {f : FreqFile} {k : Nat} {t : Forest} {bytes : List Byte}

/-! ### Nodes get their parents in the priority order (R131, R133) -/

/-- A node that precedes one with a parent has a parent too, allocated no later. -/
def Forest.TakenInOrder (k : Nat) (t : Forest) : Prop :=
  ∀ i j q : NodeId, t.Parent k q i → j.val < t.nnodes → t.node.Precedes j i → ∃ p ≤ q, t.Parent k p j

/-- LEAVES makes no parent. -/
theorem Forest.leaves_takenInOrder (f : FreqFile) : (Forest.leaves f).TakenInOrder (presentSymbols f).length :=
  fun _ _ _ ⟨hk, hlt, _⟩ => absurd hlt (not_lt.2 hk)

section Joined

variable {n a b i j p : NodeId}

/-- The nodes allocated after a join: those before, and the new one. -/
theorem Forest.lt_nnodes_joined_iff (hn : n.val = t.nnodes) :
    p.val < (t.joined n a b).nnodes ↔ p.val < t.nnodes ∨ p = n := by
  rw [Fin.ext_iff, hn]
  exact Nat.lt_succ_iff_lt_or_eq

/-- The parents after `a` and `b` are joined under the node `n`: those before, and `n`. -/
theorem Forest.parent_joined_iff (hn : n.val = t.nnodes) (hk : k ≤ t.nnodes) :
    (t.joined n a b).Parent k p i ↔ t.Parent k p i ∨ (p = n ∧ (i = a ∨ i = b)) := by
  rw [Forest.Parent, Forest.Parent, lt_nnodes_joined_iff hn]
  by_cases hp : p = n
  · subst hp
    rw [Forest.joined_at_new]
    simp [innerNode, hn, hk, eq_comm]
  · rw [Forest.joined_at_old fun h => hp (Fin.ext h)]
    simp [hp]

/-- Two nodes already allocated keep their order. -/
theorem Forest.precedes_joined_iff (hi : i.val ≠ n.val) (hj : j.val ≠ n.val) :
    (t.joined n a b).node.Precedes j i ↔ t.node.Precedes j i := by
  rw [NodeFile.Precedes, Forest.joined_at_old hi, Forest.joined_at_old hj, NodeFile.Precedes]

/-- The new node precedes no older one that weighs no more than one of its children. -/
theorem Forest.not_joined_precedes (hin : i.val < n.val)
    (hw : (t.node.at i).weight ≤ (t.node.at a).weight ∨ (t.node.at i).weight ≤ (t.node.at b).weight) :
    ¬ (t.joined n a b).node.Precedes n i := by
  rw [NodeFile.Precedes, Forest.joined_at_new, Forest.joined_at_old hin.ne, Fin.lt_def]
  simp only [innerNode]
  omega

/-- In a forest built in order a node with a parent weighs no more than a live one. -/
theorem Forest.TakenInOrder.weight_le_live (ho : t.TakenInOrder k) (hg : t.Good f k) (hp : t.Parent k p i)
    (hj : j ∈ t.pq) : (t.node.at i).weight ≤ (t.node.at j).weight := by
  have hjlt := hg.live_lt j hj
  by_contra hlt
  obtain ⟨q, _, hq⟩ := ho i j p hp hjlt (.inl (not_le.1 hlt))
  exact (hg.orphan j hjlt).1 hj q hq

theorem Forest.TakenInOrder.joined (ho : t.TakenInOrder k) (hg : t.Good f k) (hn : n.val = t.nnodes)
    (h : TwoLeast t.node t.pq a b) : (t.joined n a b).TakenInOrder k := by
  have hpar := fun p i => Forest.parent_joined_iff (p := p) (i := i) (a := a) (b := b) hn hg.leaves_le
  intro i j q hq hj hji
  simp only [hpar] at hq ⊢
  have hi : i.val < n.val := by
    obtain hq | ⟨_, rfl | rfl⟩ := hq
    · have hless := hg.lt_of_parent hq
      obtain ⟨_, hqlt, _⟩ := hq
      exact Nat.lt_trans hless (hn ▸ hqlt)
    · exact hn ▸ hg.live_lt _ h.left_mem
    · exact hn ▸ hg.live_lt _ h.right_mem
  have hw : (t.node.at i).weight ≤ (t.node.at a).weight ∨ (t.node.at i).weight ≤ (t.node.at b).weight := by
    obtain hq | ⟨_, rfl | rfl⟩ := hq
    · exact .inl (ho.weight_le_live hg hq h.left_mem)
    · exact .inl le_rfl
    · exact .inr le_rfl
  have hjn : j ≠ n := by
    rintro rfl
    exact Forest.not_joined_precedes hi hw hji
  have hjlt : j.val < t.nnodes := ((Forest.lt_nnodes_joined_iff hn).1 hj).resolve_right hjn
  rw [Forest.precedes_joined_iff hi.ne (by omega)] at hji
  obtain hq | ⟨rfl, hab⟩ := hq
  · obtain ⟨p, hle, hp⟩ := ho i j q hq hjlt hji
    exact ⟨p, hle, .inl hp⟩
  · by_cases hlive : j ∈ t.pq
    · refine ⟨q, le_rfl, .inr ⟨rfl, ?_⟩⟩
      by_contra hother
      obtain ⟨hja, hjb⟩ := not_or.1 hother
      obtain rfl | rfl := hab
      · exact t.node.precedes_irrefl j (hji.trans (h.left_first j hlive hja))
      · exact t.node.precedes_irrefl j (hji.trans (h.right_second j hlive hja hjb))
    · obtain ⟨p, hp, _⟩ := hg.existsUnique_parent hjlt hlive
      have ⟨_, hplt, _⟩ := hp
      exact ⟨p, Fin.le_def.2 (hn ▸ hplt.le), .inl hp⟩

end Joined

theorem mergeAll_takenInOrder (hg : t.Good f k) (ho : t.TakenInOrder k) (n : Nat) :
    ∃ u, mergeAll n t = .ok u ∧ u.TakenInOrder k := by
  induction n generalizing t with
  | zero => exact ⟨t, rfl, ho⟩
  | succ n ih =>
    by_cases hmany : 1 < t.pq.length
    · have hroom : t.nnodes < 511 := by
        have := hg.balance
        have := hg.bound
        omega
      obtain ⟨a, b, hleast, hu, _⟩ := mergeOnce_joins hg.sorted hg.live_lt hmany hroom
      obtain ⟨_, _, _, u, _, _, _, _, _, _, hu', _, _, hgu⟩ := mergeOnce_good hg hmany
      obtain rfl := Except.ok.inj (hu.symm.trans hu')
      simpa only [mergeAll, mergeIfMany, if_pos hmany, hu] using ih hgu (ho.joined hg rfl hleast)
    · simpa only [mergeAll, mergeIfMany, if_neg hmany] using ih hg ho

/-- The tree of an input is built in order. -/
theorem treeOf_takenInOrder (h : bytes ≠ []) (ht : treeOf (freqOf bytes) = .ok t) :
    t.TakenInOrder (symbolCount bytes) := by
  have hleaves := insertLeaves_good _ _ (insertLeaves_empty_eq (freqOf bytes))
    (List.length_pos_iff.2 (presentSymbols_ne_nil h))
  obtain ⟨u, hu, ho⟩ := mergeAll_takenInOrder hleaves (Forest.leaves_takenInOrder _) 255
  rw [treeOf, insertLeaves_empty_eq] at ht
  obtain rfl := Except.ok.inj (hu.symm.trans ht)
  exact ho

/-! ### Two paths upward from the leaves (R213) -/

section Paths

variable {i j root : NodeId} {a b : Byte} {p q : List Bit}

/-- The nodes at the same height above the leaves of two symbols are in the order of the symbols' counts, where the paths
have not met. -/
theorem Forest.Good.precedes_at_height (hg : t.Good f (presentSymbols f).length) (ho : t.Ordered f)
    (htaken : t.TakenInOrder (presentSymbols f).length) (hab : f.at b < f.at a) (hi : i.val < t.nnodes)
    (hj : j.val < t.nnodes) (hp : LeafBelow t.node a i p) (hq : LeafBelow t.node b j q) (hlen : p.length = q.length) :
    j = i ∨ t.node.Precedes j i := by
  induction p generalizing i j q with
  | nil =>
    obtain rfl := List.length_eq_zero_iff.1 hlen.symm
    obtain ⟨_, hli, rfl⟩ := leafBelow_nil_iff.1 hp
    obtain ⟨_, hlj, rfl⟩ := leafBelow_nil_iff.1 hq
    obtain ⟨_, hwi⟩ := hg.leaf_count i ((hg.isLeaf i hi).1 hli)
    obtain ⟨_, hwj⟩ := hg.leaf_count j ((hg.isLeaf j hj).1 hlj)
    exact .inr (.inl (by omega))
  | cons c p ih =>
    cases q with
    | nil => cases hlen
    | cons d q =>
      obtain ⟨_, hpi, hci, hp⟩ := hg.leafBelow_cons hi hp
      obtain ⟨_, hpj, hcj, hq⟩ := hg.leafBelow_cons hj hq
      obtain hchild | hchild := ih hci hcj hp hq (Nat.succ.inj hlen)
      · exact .inl (hg.one_parent j i _ hpj (hchild ▸ hpi))
      · obtain ⟨j', hle, hpj'⟩ := htaken _ _ i hpi hcj hchild
        obtain rfl := hg.one_parent j j' _ hpj hpj'
        obtain heq | hless := hle.eq_or_lt
        · exact .inl heq
        · obtain ⟨hkj, _⟩ := hpj
          exact .inr ((ho.inner_le j i hkj hle hi).lt_or_eq.imp id fun hw => ⟨hw, hless⟩)

/-- The path to the leaf of the more frequent symbol is no longer than the other symbol's path from a live node: else the
node as high above the leaf as the live node is would have a parent. -/
theorem Forest.Good.path_length_le (hg : t.Good f (presentSymbols f).length) (ho : t.Ordered f)
    (htaken : t.TakenInOrder (presentSymbols f).length) (hab : f.at b < f.at a) (hi : i.val < t.nnodes)
    (hroot : root ∈ t.pq) (hp : LeafBelow t.node a i p) (hq : LeafBelow t.node b root q) : p.length ≤ q.length := by
  have hlt := hg.live_lt root hroot
  have horphan := (hg.orphan root hlt).1 hroot
  induction p generalizing i with
  | nil => exact Nat.zero_le _
  | cons c p ih =>
    obtain ⟨_, hpar, hc, hp⟩ := hg.leafBelow_cons hi hp
    refine lt_of_le_of_ne (ih hc hp) fun hlen => ?_
    obtain hmeet | hprec := hg.precedes_at_height ho htaken hab hc hlt hp hq hlen
    · exact horphan i (hmeet ▸ hpar)
    · obtain ⟨r, _, hr⟩ := htaken _ _ i hpar hlt hprec
      exact horphan r hr

end Paths

/-- Settles O38: the codes are the paths of the tree, which is built in order. -/
theorem codeLengthsMonotone : Obligations.CodeLengthsMonotone := by
  intro bytes tbl htable a b hab hpos
  have hmem : b ∈ bytes := List.count_pos_iff.1 hpos
  have hne : bytes ≠ [] := List.ne_nil_of_mem hmem
  obtain ⟨t, root, leaves, ht, hr, hleaves, htable', hvalid⟩ := tableOf_input hne
  obtain rfl := Except.ok.inj (Option.some.inj (htable.symm.trans htable'))
  obtain ⟨_, _, ht', _, _, hg, ho, _⟩ := treeOf_ordered hne
  obtain rfl := Except.ok.inj (ht.symm.trans ht')
  have htbl := writeCodes_ofTree hleaves
  have hroot : root ∈ t.pq := by simp [hr]
  rw [← codeBits_length, ← codeBits_length]
  refine hg.path_length_le ho (treeOf_takenInOrder hne ht) ?_ (hg.live_lt root hroot) hroot
    (htbl.code (hvalid a (List.count_pos_iff.1 (hpos.trans hab)))) (htbl.code (hvalid b hmem))
  rwa [freqOf_at, freqOf_at]

end Sys2Proof.Machine
end

section
/-!
Proofs of 48_guarantees.md R210, R214 and R219. Compressing is encoding and packing, and each is undone by a lemma of its
own: `decodeBits_encodeBytes` and `unpackBits_packBits`. One distinct symbol, which decodes to nothing, is apart. On the
block the same functions are read off what a finished encoder leaves (`encode_finished`, `compress_finished`).
-/

namespace Sys2Proof.Machine

variable {s t : State} {bytes : List Byte} {bits : List Bit} {tbl : CodeTable}

/-! ### The round trips as functions (R210, R219) -/

/-- The packer answers a container or HeaderOverflowError (R164, R170). -/
theorem packBits_cases (bits : List Bit) : (∃ out, packBits bits = .ok out) ∨ packBits bits = .error .headerOverflow :=
  (le_or_gt (leadingZeros (padBits bits)) 255).imp (fun hfits => ⟨_, packBits_fits hfits⟩) packBits_overflow

theorem input_ne_nil_of_symbolCount (h : 2 ≤ symbolCount bytes) : bytes ≠ [] := by
  rintro rfl
  simp [symbolCount_nil] at h

/-- A container comes from packing the bits of the encoder (R105). -/
theorem compressBytes_ok {container : List Byte} (h : compressBytes bytes = some (.ok (container, tbl))) :
    ∃ bits, encodeBytes bytes = some (.ok (bits, tbl)) ∧ packBits bits = .ok container := by
  unfold compressBytes at h
  split at h
  next => cases h
  next => cases h
  next bits c henc =>
    split at h
    next out hpack =>
      obtain ⟨rfl, rfl⟩ := Prod.mk.inj (Except.ok.inj (Option.some.inj h))
      exact ⟨bits, henc, hpack⟩
    next => cases h

/-- Settles O57: the unpacker undoes the packer, then the decoder the encoder; the packer alone can fail. -/
theorem roundTripContainer : Obligations.RoundTripContainer := by
  intro bytes hk
  refine ⟨fun container tbl h => ?_, ?_⟩
  · obtain ⟨bits, henc, hpack⟩ := compressBytes_ok h
    simp only [decompressBytes, unpackBits_packBits hpack]
    exact decodeBits_encodeBytes hk henc
  · obtain ⟨_, _, tbl, _, _, _, _, henc⟩ := encodeBytes_input (input_ne_nil_of_symbolCount hk)
    obtain ⟨out, hpack⟩ | hpack := packBits_cases (bytes.flatMap fun b => codeBits (tbl.at b))
    · exact .inl ⟨out, tbl, by simp only [compressBytes, henc, hpack]⟩
    · exact .inr (by simp only [compressBytes, henc, hpack])

/-- Settles O58: `decodeBits_encodeBytes`, and for one distinct symbol `encodeBytes_replicate`. -/
theorem roundTripBitstream : Obligations.RoundTripBitstream := by
  refine ⟨fun bytes hk => ?_, fun sym n hn => ?_⟩
  · obtain ⟨_, _, tbl, _, _, _, _, henc⟩ := encodeBytes_input (input_ne_nil_of_symbolCount hk)
    exact ⟨_, tbl, henc, decodeBits_encodeBytes hk henc⟩
  · obtain ⟨_, _, tbl, _, _, _, _, henc⟩ :=
      encodeBytes_input (mt (List.replicate_eq_nil_iff sym).1 hn.ne')
    obtain ⟨hnil, hd, hentry⟩ := encodeBytes_replicate hn henc
    exact ⟨tbl, by rw [henc, hnil], hentry, decodeBits_nil hd⟩

/-! ### The packing invariant (R167, R214) -/

/-- The container is the header and the padded bits in whole bytes (R162, R166). -/
theorem packBits_length {out : List Byte} (h : packBits bits = .ok out) :
    out.length = 2 + (bits.length + padCount bits.length) / 8 := by
  have hfits := (exists_packBits_ok_iff bits).1 ⟨out, h⟩
  rw [packBits_fits hfits] at h
  rw [← Except.ok.inj h, containerBytes_length]

/-- The decoder accepts every encoding: with one symbol it is the empty bitstream (R169). -/
theorem decodeBits_of_encodeBytes (henc : encodeBytes bytes = some (.ok (bits, tbl))) :
    ∃ out, decodeBits bits tbl = .ok out := by
  have hne := input_ne_nil_of_encodeBytes henc
  by_cases h1 : symbolCount bytes = 1
  · obtain ⟨_, _, _, _, _, htbl, _, henc'⟩ := encodeBytes_input hne
    obtain ⟨_, rfl⟩ := Prod.mk.inj (Except.ok.inj (Option.some.inj (henc.symm.trans henc')))
    rw [(noAllZeroBitstream _ _ _ henc).1.2 h1]
    exact ⟨_, decodeBits_nil htbl.prefixFree.hasDuplicate⟩
  · exact ⟨_, decodeBits_encodeBytes (two_le_symbolCount hne (beq_eq_false_iff_ne.2 h1)) henc⟩

/-- DECOMPRESS of a container the unpacker and the decoder accept leaves the bitstream unpacked (R107). -/
theorem decompress_bitstream {container out : List Byte} (hb : s.busy = false) (hin : inputBytes s = some container)
    (hunp : unpackBits container = .ok bits) (hdec : decodeBits bits s.ct = .ok out) :
    ∃ s0 t, exec .decompress s = .next s0 ∧ runCommand s0 = .next t ∧ t.bsLen = bits.length ∧
      bitstream t = some bits := by
  obtain ⟨s0, hexec, _, hheader⟩ := decompressRuns s container hb hin
  match container, hunp with
  | b0 :: b1 :: payload, hunp =>
    obtain ⟨_, _, hunpacked⟩ := hheader b0 b1 payload _ rfl rfl
    obtain ⟨_, _, hok, _⟩ := hunpacked bits _ hunp rfl
    obtain ⟨_, hrun⟩ := hok out hdec
    refine ⟨s0, _, hexec, hrun, rfl, ?_⟩
    rw [bitstream_markStale]
    exact bitstream_of_writeBits (s := { s.completed with bsLen := 0, pad := b0.toNat, lzc := b1.toNat }) rfl rfl rfl

/-! ### What a finished encoder leaves (R105, R106) -/

/-- The block accepts a command with BUSY = 0, so the command's start is the next state. -/
theorem next_of_accepted {next s0 : State} (hb : s.busy = false) (h : acceptCommand s next = .next s0) : s0 = next :=
  Host.Outcome.next.inj (h.symm.trans (acceptCommand_of_notBusy hb next))

/-- The tree `f` with its root, the table and the bitstream are those of the input. -/
structure EncodingOf (bytes : List Byte) (f : Forest) (root : NodeId) (tbl : CodeTable) (bits : List Bit) : Prop where
  tree : treeOf (freqOf bytes) = .ok f
  root : f.pq = [root]
  code : encodeBytes bytes = some (.ok (bits, tbl))

/-- The input alone determines them. -/
theorem EncodingOf.unique {f f' : Forest} {root root' : NodeId} {tbl' : CodeTable} {bits' : List Bit}
    (h : EncodingOf bytes f root tbl bits) (h' : EncodingOf bytes f' root' tbl' bits') :
    f = f' ∧ root = root' ∧ tbl = tbl' ∧ bits = bits' := by
  obtain rfl := Except.ok.inj (h.tree.symm.trans h'.tree)
  obtain ⟨rfl, rfl⟩ := Prod.mk.inj (Except.ok.inj (Option.some.inj (h.code.symm.trans h'.code)))
  exact ⟨rfl, List.singleton_injective (h.root.symm.trans h'.root), rfl, rfl⟩

theorem bitstream_encoded_markStale (s : State) (bytes : List Byte) (f : Forest) (root : NodeId) (tbl : CodeTable)
    (bits : List Bit) :
    bitstream (s.encoded bytes f root tbl bits).markStale = some bits := by
  rw [bitstream_markStale, bitstream_encoded]

section Finished

variable (hb : s.busy = false) (hin : inputBytes s = some bytes) (hne : bytes ≠ [])
include hb hin hne

/-- ENCODE leaves the encoding of its input, whatever the block held. -/
theorem encode_finished (hrun : runCommand (startEncoder .encode s) = .next t) :
    ∃ f root tbl bits, EncodingOf bytes f root tbl bits ∧ t = (s.encoded bytes f root tbl bits).markStale := by
  obtain ⟨f, root, tbl, bits, _, hf, hr, henc, _, _, hexec, hend⟩ := encodeRuns s bytes hb hin hne
  obtain rfl := next_of_accepted hb hexec
  exact ⟨f, root, tbl, bits, ⟨hf, hr, henc⟩, Host.Outcome.next.inj (hrun.symm.trans hend)⟩

/-- COMPRESS leaves the encoding of its input with the container, or HeaderOverflowError and the outputs empty. -/
theorem compress_finished (hrun : runCommand (startEncoder .compress s) = .next t) :
    ∃ f root tbl bits, EncodingOf bytes f root tbl bits ∧
      ((∃ out, packBits bits = .ok out ∧ t = State.markStale { s.encoded bytes f root tbl bits with
          outBuf := memWrite s.outBuf 0 out, outLen := out.length, pad := padCount bits.length,
          lzc := leadingZeros (padBits bits) }) ∨
        (packBits bits = .error .headerOverflow ∧
          t = State.markStale { (s.encoded bytes f root tbl bits).failed .headerOverflow with
            degen := false, pad := padCount bits.length, lzc := leadingZeros (padBits bits), bsLen := 0,
            ct := CodeTable.zero })) := by
  obtain ⟨f, root, tbl, bits, _, hf, hr, henc, hexec, hok, hfail⟩ := compressRuns s bytes hb hin hne
  obtain rfl := next_of_accepted hb hexec
  refine ⟨f, root, tbl, bits, ⟨hf, hr, henc⟩, ?_⟩
  obtain ⟨out, hpack⟩ | hpack := packBits_cases bits
  · obtain ⟨_, hend⟩ := hok out hpack
    exact .inl ⟨out, hpack, Host.Outcome.next.inj (hrun.symm.trans hend)⟩
  · obtain ⟨_, _, hend⟩ := hfail _ hpack
    exact .inr ⟨hpack, Host.Outcome.next.inj (hrun.symm.trans hend)⟩

end Finished

/-- Settles O42: the lengths of the container and of the codes, and DECOMPRESS by `decompress_bitstream`. -/
theorem packingInvariant : Obligations.PackingInvariant := by
  rintro s t bytes hb hin herr ⟨s0, hexec, hrun⟩
  obtain rfl := next_of_accepted hb hexec
  have hne := input_ne_nil_of_encoder .compress hin hrun herr
  obtain ⟨f, root, tbl, bits, hdata, ⟨out, hpack, rfl⟩ | ⟨_, rfl⟩⟩ := compress_finished hb hin hne hrun
  case inr => cases herr
  have henc := hdata.code
  have hlen := packBits_length hpack
  have hwhole := add_padCount_mod bits.length
  have hsum : bits.length = (allSymbols.map fun sym => (freqOf bytes).at sym * (tbl.at sym).len.toNat).sum := by
    obtain ⟨_, _, _, _, _, _, _, henc'⟩ := encodeBytes_input (input_ne_nil_of_encodeBytes henc)
    obtain ⟨rfl, rfl⟩ := Prod.mk.inj (Except.ok.inj (Option.some.inj (henc.symm.trans henc')))
    simp only [length_flatMap_codeBits, freqOf_at]
  have hread : bitstream (s.encoded bytes f root tbl bits).markStale = some bits :=
    bitstream_encoded_markStale s bytes f root tbl bits
  refine ⟨?_, ?_, ?_, hsum, fun u hbu hct hinu => ?_⟩
  · show 8 * (out.length - 2) - padCount bits.length = bits.length
    omega
  · show out.length = 2 + (bits.length + 7) / 8
    rw [hlen, add_padCount_div]
  · show 2 ≤ out.length
    omega
  · have hinu' : inputBytes u = some out := hinu.trans (memRead_memWrite_same s.outBuf 0 out)
    obtain ⟨_, hdec⟩ := decodeBits_of_encodeBytes henc
    obtain ⟨u0, v, hexecu, hrunu, hlenv, hreadv⟩ :=
      decompress_bitstream hbu hinu' (unpackBits_packBits hpack) (by rw [hct]; exact hdec)
    exact ⟨u0, v, hexecu, hrunu, hlenv, hreadv.trans hread.symm, Option.isSome_of_eq_some hread⟩

end Sys2Proof.Machine
end

section
/-!
Proof of 48_guarantees.md R222 and R212. A finished encoder leaves a state that `encode_finished`, `compress_finished` or
`reaches_emptyInput` writes out, in which what the host sees is made from the input alone. The decoders keep more of what
was there before, so two of their runs are followed side by side: they come to INVERT alike (`State.Alike`), and INVERT and
SCAN make the same of both.
-/

namespace Sys2Proof.Machine

variable {s s' t t' : State} {bytes : List Byte}

/-! ### A command that ends has read its input (log 10) -/

/-- A command whose first phase is refused does not end. -/
theorem phaseStep_ne_refused (hrun : runCommand s = .next t) (r : Refusal) : phaseStep s ≠ .refused r := by
  intro h
  simp only [runCommand, maxPhases, runPhases, h] at hrun
  cases hrun

theorem encoder_readable {c : Command} (hrun : runCommand (startEncoder c s) = .next t) :
    ∃ bytes, inputBytes s = some bytes := by
  obtain ⟨_, hcount⟩ | ⟨bytes, hin, _⟩ := phaseCount_cases (startEncoder c s)
  · exact absurd hcount (phaseStep_ne_refused hrun _)
  · exact ⟨bytes, hin⟩

theorem decompress_readable (hrun : runCommand (startDecompress s) = .next t) : ∃ bytes, inputBytes s = some bytes := by
  obtain ⟨_, hheader⟩ | ⟨bytes, hin, _⟩ | ⟨b0, b1, rest, hin, _⟩ := phaseHeader_cases (startDecompress s)
  · exact absurd hheader (phaseStep_ne_refused hrun _)
  · exact ⟨bytes, hin⟩
  · exact ⟨_, hin⟩

/-- INVERT comes before BS is read, so a table with a duplicate needs no readable bitstream. -/
theorem decode_readable (hd : hasDuplicate s.ct = false) (hrun : runCommand (startDecode s) = .next t) :
    ∃ bits, bitstream s = some bits := by
  have hinvert : phaseStep (startDecode s) = .next { startDecode s with phase := .scan } :=
    if_neg (by simp [startDecode, clearResults, State.flagsStarted, hd])
  rw [runCommand, maxPhases, runPhases_next hinvert] at hrun
  obtain ⟨_, hscan⟩ | ⟨bits, hread, _⟩ := phaseScan_cases { startDecode s with phase := .scan }
  · have hstep : phaseStep { startDecode s with phase := .scan } = .refused .unwrittenElement := hscan
    simp only [runPhases, hstep] at hrun
    cases hrun
  · exact ⟨bits, hread⟩

/-! ### The encoders -/

/-- An encoder on the empty input: EmptyInputError, over the cleared tree (R231). -/
theorem sameEncoding_emptyInput {c : Command} (hin : inputBytes s = some []) (hin' : inputBytes s' = some [])
    (hrun : runCommand (startEncoder c s) = .next t) (hrun' : runCommand (startEncoder c s') = .next t') :
    t.SameEncoding t' := by
  have hend := (reaches_emptyInput c hin).runCommand_eq (raiseError_phase _ _ _) (by decide)
  have hend' := (reaches_emptyInput c hin').runCommand_eq (raiseError_phase _ _ _) (by decide)
  obtain rfl := Host.Outcome.next.inj (hrun.symm.trans hend)
  obtain rfl := Host.Outcome.next.inj (hrun'.symm.trans hend')
  have hlen : ∀ u : State, (raiseError (some c) .emptyInput { startEncoder c u with phase := .leaves }).bsLen = 0 :=
    fun u => by cases c <;> rfl
  constructor
  case out => rw [raiseError_outLen, raiseError_outLen, memRead_zero, memRead_zero]
  case bits => rw [bitstream, bitstream, hlen, hlen, memRead_zero, memRead_zero]
  all_goals cases c <;> rfl

section Encoders

variable (hb : s.busy = false) (hb' : s'.busy = false) (hin : inputBytes s = some bytes)
  (hin' : inputBytes s' = some bytes) (hne : bytes ≠ [])
include hb hb' hin hin' hne

theorem sameEncoding_encode (hrun : runCommand (startEncoder .encode s) = .next t)
    (hrun' : runCommand (startEncoder .encode s') = .next t') : t.SameEncoding t' := by
  obtain ⟨f, root, tbl, bits, hdata, rfl⟩ := encode_finished hb hin hne hrun
  obtain ⟨f', root', tbl', bits', hdata', rfl⟩ := encode_finished hb' hin' hne hrun'
  obtain ⟨rfl, rfl, rfl, rfl⟩ := hdata.unique hdata'
  have hread := fun u : State => bitstream_encoded_markStale u bytes f root tbl bits
  constructor
  case out => exact (memRead_zero _ _).trans (memRead_zero _ _).symm
  case bits => exact (hread s).trans (hread s').symm
  all_goals rfl

theorem sameEncoding_compress (hrun : runCommand (startEncoder .compress s) = .next t)
    (hrun' : runCommand (startEncoder .compress s') = .next t') : t.SameEncoding t' := by
  obtain ⟨f, root, tbl, bits, hdata, hend⟩ := compress_finished hb hin hne hrun
  obtain ⟨f', root', tbl', bits', hdata', hend'⟩ := compress_finished hb' hin' hne hrun'
  obtain ⟨rfl, rfl, rfl, rfl⟩ := hdata.unique hdata'
  have hread := fun u : State => bitstream_encoded_markStale u bytes f root tbl bits
  obtain ⟨out, hpack, rfl⟩ | ⟨hpack, rfl⟩ := hend <;> obtain ⟨out', hpack', rfl⟩ | ⟨hpack', rfl⟩ := hend'
  · obtain rfl := Except.ok.inj (hpack.symm.trans hpack')
    constructor
    case out => exact (memRead_memWrite_same _ _ _).trans (memRead_memWrite_same _ _ _).symm
    case bits => exact (hread s).trans (hread s').symm
    all_goals rfl
  · cases hpack.symm.trans hpack'
  · cases hpack.symm.trans hpack'
  · constructor
    case out | bits => exact (memRead_zero _ _).trans (memRead_zero _ _).symm
    all_goals rfl

end Encoders

/-! ### The decoders -/

section Decoders

variable {u u' r r' : State} {c : Command}

/-- What two decoders at work must have in common to leave the same: the flags a raise or a completion keeps, the
bitstream, the table, PAD, LZC and CAND_LEN. -/
structure State.Alike (s t : State) : Prop where
  degen : s.degen = t.degen
  err : s.err = t.err
  ecode : s.ecode = t.ecode
  bits : bitstream s = bitstream t
  bsLen : s.bsLen = t.bsLen
  ct : s.ct = t.ct
  pad : s.pad = t.pad
  lzc : s.lzc = t.lzc
  candLen : s.candLen = t.candLen

/-- SCAN writes the same to both. -/
theorem State.Alike.decoded (h : u.Alike u') (out : List Byte) (cand : List Bit) :
    (decoded u out cand).Alike (decoded u' out cand) :=
  ⟨h.degen, h.err, h.ecode, h.bits, h.bsLen, h.ct, h.pad, h.lzc, rfl⟩

theorem statusWord_congr (hphase : s.phase = t.phase) (hecode : s.ecode = t.ecode) (hdegen : s.degen = t.degen)
    (herr : s.err = t.err) (hdone : s.done = t.done) (hbusy : s.busy = t.busy) : statusWord s = statusWord t := by
  rw [statusWord, statusWord, hphase, hecode, hdegen, herr, hdone, hbusy]

theorem State.Alike.completeCommand (h : u.Alike u') (hlen : u.outLen = u'.outLen)
    (hout : memRead u.outBuf 0 u.outLen = memRead u'.outBuf 0 u'.outLen) :
    (completeCommand u).SameDecoding (completeCommand u') where
  status := statusWord_congr rfl h.ecode h.degen h.err rfl rfl
  out := hout
  outLen := hlen
  bits := (bitstream_markStale _).trans (h.bits.trans (bitstream_markStale _).symm)
  bsLen := h.bsLen
  ct := h.ct
  pad := h.pad
  lzc := h.lzc
  candLen := h.candLen

/-- The bitstream after a raise: DECODE keeps it, the other commands make it empty (R240). -/
theorem bitstream_raiseError (c : Command) (e : CodecError) (s : State) :
    bitstream (raiseError (some c) e s) = if c = .decode then bitstream s else some [] := by
  cases c
  case decode => exact bitstream_markStale _
  all_goals exact memRead_zero _ _

theorem State.Alike.raiseError (h : u.Alike u') (c : Command) (e : CodecError) :
    (raiseError (some c) e u).SameDecoding (raiseError (some c) e u') where
  status := statusWord_congr (by simp) (by simp) (by simp [h.degen]) (by simp) (by simp) (by simp)
  out := by simp
  outLen := by simp
  bits := by rw [bitstream_raiseError, bitstream_raiseError, h.bits]
  bsLen := by cases c <;> simp [h.bsLen]
  ct := by cases c <;> simp [h.ct]
  pad := by simp [h.pad]
  lzc := by simp [h.lzc]
  candLen := by simp [h.candLen]

/-- The command `c` at INVERT, with no output and no candidate yet. -/
structure State.AtInvert (c : Command) (s : State) : Prop where
  running : s.running = some c
  phase : s.phase = .invert
  outLen : s.outLen = 0
  cand : s.cand = []

/-- From INVERT on alike decoders end alike: both raise DuplicateCodeError, or both scan the same bits with the same
table. -/
theorem State.Alike.reaches_end (h : u.Alike u') (hu : u.AtInvert c) (hu' : u'.AtInvert c)
    (hread : hasDuplicate u.ct = false → ∃ bits, bitstream u = some bits) :
    ∃ k v v', k ≤ 2 ∧ Reaches u k v ∧ Reaches u' k v' ∧ v.phase = .idle ∧ v'.phase = .idle ∧ v.SameDecoding v' := by
  cases hd : hasDuplicate u.ct with
  | true =>
    have hv := reaches_duplicate (bits := []) hu.phase (if_pos hd)
    have hv' := reaches_duplicate (bits := []) hu'.phase (if_pos (h.ct ▸ hd))
    rw [hu.running] at hv
    rw [hu'.running] at hv'
    exact ⟨1, _, _, by decide, hv, hv', raiseError_phase _ _ _, raiseError_phase _ _ _, h.raiseError c _⟩
  | false =>
    obtain ⟨bits, hbits⟩ := hread hd
    obtain ⟨⟨out, cand⟩, hscan⟩ : ∃ x, scanBits (validCodes u.ct) [] bits = x := ⟨_, rfl⟩
    have hv := reaches_scanned hu.phase hu.outLen hu.cand hbits hd hscan
    rw [h.bits] at hbits
    rw [h.ct] at hd hscan
    have hv' := reaches_scanned hu'.phase hu'.outLen hu'.cand hbits hd hscan
    rw [hu.running] at hv
    rw [hu'.running] at hv'
    have hdec := h.decoded out cand
    by_cases hcand : cand = []
    · rw [if_pos hcand] at hv hv'
      refine ⟨2, _, _, le_rfl, hv, hv', rfl, rfl, hdec.completeCommand rfl ?_⟩
      exact (memRead_memWrite_same _ _ _).trans (memRead_memWrite_same _ _ _).symm
    · rw [if_neg hcand] at hv hv'
      exact ⟨2, _, _, le_rfl, hv, hv', raiseError_phase _ _ _, raiseError_phase _ _ _, hdec.raiseError c _⟩

/-- Two runs that come to INVERT alike, in as many phases, end alike. -/
theorem sameDecoding_of_invert {j : Nat} (hj : j ≤ 2) (hr : Reaches r j u) (hr' : Reaches r' j u')
    (hu : u.AtInvert c) (hu' : u'.AtInvert c) (h : u.Alike u')
    (hread : hasDuplicate u.ct = false → ∃ bits, bitstream u = some bits)
    (hrun : runCommand r = .next t) (hrun' : runCommand r' = .next t') : t.SameDecoding t' := by
  obtain ⟨k, v, v', hk, hv, hv', hidle, hidle', hsame⟩ := h.reaches_end hu hu' hread
  have hmax : k + j ≤ maxPhases := (Nat.add_le_add hk hj).trans (by decide)
  obtain rfl := Host.Outcome.next.inj (hrun.symm.trans ((hr.trans hv).runCommand_eq hidle hmax))
  obtain rfl := Host.Outcome.next.inj (hrun'.symm.trans ((hr'.trans hv').runCommand_eq hidle' hmax))
  exact hsame

theorem sameDecoding_decode (hlen : s.bsLen = s'.bsLen) (hbits : bitstream s = bitstream s') (hct : s.ct = s'.ct)
    (hrun : runCommand (startDecode s) = .next t) (hrun' : runCommand (startDecode s') = .next t') :
    t.SameDecoding t' := by
  have halike : (startDecode s).Alike (startDecode s') := ⟨rfl, rfl, rfl, hbits, hlen, hct, rfl, rfl, rfl⟩
  exact sameDecoding_of_invert (c := .decode) (Nat.zero_le 2) (fun _ => rfl) (fun _ => rfl) ⟨rfl, rfl, rfl, rfl⟩
    ⟨rfl, rfl, rfl, rfl⟩ halike (fun hd => decode_readable hd hrun) hrun hrun'

/-- What a container without a legal header, or with too few bits, leaves (R239). -/
theorem sameDecoding_containerFormat (hct : s.ct = s'.ct) (pad lzc : Nat) :
    (State.failed { s.completed with bsLen := 0, pad := pad, lzc := lzc } .containerFormat).markStale.SameDecoding
      (State.failed { s'.completed with bsLen := 0, pad := pad, lzc := lzc } .containerFormat).markStale := by
  constructor
  case out | bits => exact (memRead_zero _ _).trans (memRead_zero _ _).symm
  case ct => exact hct
  all_goals rfl

/-- Two containers of the same bytes are rejected alike, or unpacked to the same bits. -/
theorem sameDecoding_decompress (hb : s.busy = false) (hb' : s'.busy = false) (hin : inputBytes s = some bytes)
    (hin' : inputBytes s' = some bytes) (hct : s.ct = s'.ct) (hrun : runCommand (startDecompress s) = .next t)
    (hrun' : runCommand (startDecompress s') = .next t') : t.SameDecoding t' := by
  obtain ⟨_, hexec, hshort, _⟩ := decompressRuns s bytes hb hin
  obtain ⟨_, hexec', hshort', _⟩ := decompressRuns s' bytes hb' hin'
  obtain rfl := next_of_accepted hb hexec
  obtain rfl := next_of_accepted hb' hexec'
  match bytes with
  | [] | [_] =>
    obtain rfl := Host.Outcome.next.inj (hrun.symm.trans (hshort (by simp)))
    obtain rfl := Host.Outcome.next.inj (hrun'.symm.trans (hshort' (by simp)))
    exact sameDecoding_containerFormat hct 0 0
  | b0 :: b1 :: payload =>
    cases hunp : unpackBits (b0 :: b1 :: payload) with
    | error e =>
      obtain rfl := Host.Outcome.next.inj (hrun.symm.trans (runCommand_rejected hin hunp))
      obtain rfl := Host.Outcome.next.inj (hrun'.symm.trans (runCommand_rejected hin' hunp))
      exact sameDecoding_containerFormat hct _ _
    | ok bits =>
      have hread := fun u : State => bitstream_unpackedBits u b0 b1 bits
      have halike : (unpackedBits s b0 b1 bits).Alike (unpackedBits s' b0 b1 bits) :=
        ⟨rfl, rfl, rfl, (hread s).trans (hread s').symm, rfl, hct, rfl, rfl, rfl⟩
      exact sameDecoding_of_invert (c := .decompress) le_rfl (reaches_unpacked hin hunp) (reaches_unpacked hin' hunp)
        ⟨rfl, rfl, rfl, rfl⟩ ⟨rfl, rfl, rfl, rfl⟩ halike (fun _ => ⟨bits, hread s⟩) hrun hrun'

end Decoders

/-- Settles O60: the two encoders, on the empty input and on others, and the two decoders. -/
theorem resultDependsOnInputsAlone : Obligations.ResultDependsOnInputsAlone := by
  rintro s s' t t' i hb hb' ⟨s0, hexec, hrun⟩ ⟨s0', hexec', hrun'⟩
  refine ⟨?_, ?_, ?_⟩
  · rintro (rfl | rfl) hin
    all_goals
      obtain rfl := next_of_accepted hb hexec
      obtain rfl := next_of_accepted hb' hexec'
      obtain ⟨bytes, hbytes⟩ := encoder_readable hrun
      have hbytes' := hin.symm.trans hbytes
      by_cases hne : bytes = []
    · exact sameEncoding_emptyInput (hne ▸ hbytes) (hne ▸ hbytes') hrun hrun'
    · exact sameEncoding_compress hb hb' hbytes hbytes' hne hrun hrun'
    · exact sameEncoding_emptyInput (hne ▸ hbytes) (hne ▸ hbytes') hrun hrun'
    · exact sameEncoding_encode hb hb' hbytes hbytes' hne hrun hrun'
  · rintro rfl hin hct
    obtain rfl := next_of_accepted hb hexec
    obtain rfl := next_of_accepted hb' hexec'
    obtain ⟨bytes, hbytes⟩ := decompress_readable hrun
    exact sameDecoding_decompress hb hb' hbytes (hin.symm.trans hbytes) hct hrun hrun'
  · rintro rfl hlen hbits hct
    obtain rfl := next_of_accepted hb hexec
    obtain rfl := next_of_accepted hb' hexec'
    exact sameDecoding_decode hlen hbits hct hrun hrun'

end Sys2Proof.Machine
end

section
/-!
Proofs of the statements of 60_exceptions.md and 70_reset_and_hazards.md. The STATUS invariants need of a host statement only
that it leaves the flags alone (`State.SameStatus`), and of a phase only that it raises an error or leaves ERR and ECODE
(`phaseStep_raises`); a command accepted with BUSY = 0 writes all of them (`exec_accepted`). For a polled command, each of the
four commands comes to an end of its own (`command_ends`), and `run_polling` carries that run over to the machine's steps.
-/

namespace Sys2Proof.Machine

variable {s t u : State}

/-! ### The STATUS invariants (R25, R241) -/

/-- The flags of STATUS and OUT_LEN are the same in both states. -/
structure State.SameStatus (s t : State) : Prop where
  busy : t.busy = s.busy
  done : t.done = s.done
  err : t.err = s.err
  degen : t.degen = s.degen
  ecode : t.ecode = s.ecode
  phase : t.phase = s.phase
  outLen : t.outLen = s.outLen

theorem State.SameStatus.statusWord_eq (h : s.SameStatus t) : statusWord t = statusWord s := by
  simp only [statusWord, h.busy, h.done, h.err, h.degen, h.ecode, h.phase]

theorem State.SameStatus.statusOk (h : s.SameStatus t) (hs : s.StatusOk) : t.StatusOk where
  busy_done := by rw [h.busy, h.done]; exact hs.busy_done
  err_done := by rw [h.err, h.done]; exact hs.err_done
  err_ecode := by rw [h.err, h.ecode]; exact hs.err_ecode
  ok_ecode := by rw [h.err, h.ecode]; exact hs.ok_ecode
  busy_idle := by rw [h.busy, h.phase]; exact hs.busy_idle
  err_empty := by rw [h.err, h.outLen]; exact hs.err_empty

theorem sameStatus_withHost (s : State) (sc : List Statement) (rd : List PortWord) (pl : Option Nat) (tk : Nat) :
    s.SameStatus (s.withHost sc rd pl tk) := ⟨rfl, rfl, rfl, rfl, rfl, rfl, rfl⟩

/-- With ERR = 0 the invariants ask for ECODE = 0 and for the right BUSY, DONE and PHASE. -/
theorem State.StatusOk.of_ok (herr : s.err = false) (hecode : s.ecode = none) (hdone : s.busy = true → s.done = false)
    (hidle : s.busy = false ↔ s.phase = .idle) : s.StatusOk where
  busy_done := hdone
  err_done := by simp [herr]
  err_ecode := by simp [herr]
  ok_ecode := fun _ => hecode
  busy_idle := hidle
  err_empty := by simp [herr]

/-- Whatever held before, a raise leaves the invariants (R240). -/
theorem raiseError_statusOk (c : Option Command) (e : CodecError) (s : State) : (raiseError c e s).StatusOk := by
  constructor <;> simp

theorem raiseIllegalCommand_statusOk (s : State) : (raiseIllegalCommand s).StatusOk := by
  constructor <;> simp

theorem resetWith_statusOk (cap : Capacity) : (State.resetWith cap).StatusOk :=
  .of_ok rfl rfl (fun _ => rfl) (by simp)

theorem applyReset_statusOk (s : State) : (applyReset s).StatusOk :=
  .of_ok rfl rfl (fun _ => rfl) (by simp)

/-! ### What the host does to the flags (R242) -/

/-- A write to anything but CMD leaves the flags (R114). -/
theorem writeElement_sameStatus {sp : Space} {idx : Nat} {v : PortWord} (h : writeElement s sp idx v = .next t) :
    s.SameStatus t := by
  rcases writeElement_cases s sp idx v with ⟨_, he⟩ | he | ⟨_, he⟩ | ⟨_, he⟩ | ⟨_, he⟩ | ⟨_, he⟩ | ⟨_, he⟩ <;>
    cases he.symm.trans h
  all_goals exact ⟨rfl, rfl, rfl, rfl, rfl, rfl, rfl⟩

/-- A host statement leaves the flags, but for a write to CMD and the reset (R242). -/
theorem perform_sameStatus {st : Statement} (h : perform st s = .next t) :
    s.SameStatus t ∨ (∃ v, st = .write .reg 0 v ∧ exec (decode (commandWord v)) s = .next t) ∨
      (st = .reset ∧ t = applyReset s) := by
  rcases perform_cases h with ⟨sc, rd, tk, rfl⟩ | ⟨sp, idx, v, rfl, hw⟩ | hreset
  · exact .inl (sameStatus_withHost s sc rd _ tk)
  · rcases hostWrite_cases hw with ⟨rfl, rfl, he⟩ | ⟨_, he⟩
    · exact .inr (.inl ⟨v, rfl, he⟩)
    · exact .inl (writeElement_sameStatus he)
  · exact .inr (.inr hreset)

/-- The flags after the start of a command or CLEAR: no error, DONE = 0, and BUSY as PHASE says (R101, R109). -/
structure State.FlagsCleared (s : State) : Prop where
  err : s.err = false
  ecode : s.ecode = none
  done : s.done = false
  busy_idle : s.busy = false ↔ s.phase = .idle

theorem startEncoder_flagsCleared (c : Command) (s : State) : (startEncoder c s).FlagsCleared :=
  ⟨rfl, rfl, rfl, by simp⟩

/-- An accepted command other than NOP clears the flags, or raises IllegalCommandError (R100, R242). -/
theorem exec_accepted (hb : s.busy = false) {i : Instr} (hi : i ≠ .nop) :
    ∃ t, exec i s = .next t ∧ (t.FlagsCleared ∨ t = raiseIllegalCommand s) := by
  cases i
  case nop => exact absurd rfl hi
  case compress => exact ⟨_, acceptCommand_of_notBusy hb _, .inl (startEncoder_flagsCleared _ s)⟩
  case encode => exact ⟨_, acceptCommand_of_notBusy hb _, .inl (startEncoder_flagsCleared _ s)⟩
  case decompress => exact ⟨_, acceptCommand_of_notBusy hb (startDecompress s), .inl ⟨rfl, rfl, rfl, by simp⟩⟩
  case decode => exact ⟨_, acceptCommand_of_notBusy hb (startDecode s), .inl ⟨rfl, rfl, rfl, by simp⟩⟩
  case clear => exact ⟨_, acceptCommand_of_notBusy hb (clearState s), .inl ⟨rfl, rfl, rfl, by simp⟩⟩
  all_goals exact ⟨_, acceptCommand_of_notBusy hb _, .inr rfl⟩

/-- A command word written to CMD keeps the invariants: NOP leaves the state, the others write the flags. -/
theorem exec_statusOk (hs : s.StatusOk) {i : Instr} (h : exec i s = .next t) : t.StatusOk := by
  have hb : s.busy = false := by
    by_contra hbusy
    cases (exec_of_busy (eq_true_of_ne_false hbusy) i).symm.trans h
  by_cases hi : i = .nop
  · subst hi
    cases (acceptCommand_of_notBusy hb s).symm.trans h
    exact hs
  · obtain ⟨t', he, hc⟩ := exec_accepted hb hi
    obtain rfl := Host.Outcome.next.inj (he.symm.trans h)
    rcases hc with hc | rfl
    · exact .of_ok hc.err hc.ecode (fun _ => hc.done) hc.busy_idle
    · exact raiseIllegalCommand_statusOk s

theorem perform_statusOk (hs : s.StatusOk) {st : Statement} (h : perform st s = .next t) : t.StatusOk := by
  rcases perform_sameStatus h with hsame | ⟨_, _, he⟩ | ⟨_, rfl⟩
  · exact hsame.statusOk hs
  · exact exec_statusOk hs he
  · exact applyReset_statusOk s

/-! ### What a phase does to the flags (R111, R240) -/

/-- A phase raises an error, or leaves ERR and ECODE as they are. -/
theorem phaseStep_raises (h : phaseStep s = .next t) :
    (∃ c e u, t = raiseError c e u) ∨ (t.err = s.err ∧ t.ecode = s.ecode) := by
  unfold phaseStep at h
  cases hp : s.phase <;> simp only [hp] at h
  case idle => cases h; exact .inr ⟨rfl, rfl⟩
  case count =>
    rcases phaseCount_cases s with ⟨_, he⟩ | ⟨_, _, he⟩ <;> cases he.symm.trans h
    exact .inr ⟨rfl, rfl⟩
  case leaves =>
    rcases phaseLeaves_cases s with ⟨_, _, he⟩ | ⟨_, _, ⟨_, he⟩ | ⟨_, he⟩⟩ <;> cases he.symm.trans h
    · exact .inl ⟨_, _, _, rfl⟩
    · exact .inr ⟨rfl, rfl⟩
  case merge =>
    rcases phaseMerge_cases s with ⟨_, he⟩ | ⟨_, _, _, _, he⟩ <;> cases he.symm.trans h
    exact .inr ⟨rfl, rfl⟩
  case derive =>
    rcases phaseDerive_cases s with ⟨_, he⟩ | ⟨_, _, he⟩ <;> cases he.symm.trans h
    exact .inr ⟨rfl, rfl⟩
  case emit =>
    rcases phaseEmit_cases s with ⟨_, he⟩ | ⟨_, _, _, he⟩ | ⟨_, _, _, _, he⟩ <;> cases he.symm.trans h
    unfold afterEmit
    split <;> exact .inr ⟨rfl, rfl⟩
  case padlzc =>
    rcases phasePadlzc_cases s with ⟨_, he⟩ | ⟨_, _, ⟨_, he⟩ | ⟨_, he⟩⟩ <;> cases he.symm.trans h
    · exact .inl ⟨_, _, _, rfl⟩
    · exact .inr ⟨rfl, rfl⟩
  case pack =>
    rcases phasePack_cases s with ⟨_, he⟩ | ⟨_, _, he⟩ <;> cases he.symm.trans h
    exact .inr ⟨rfl, rfl⟩
  case header =>
    rcases phaseHeader_cases s with ⟨_, he⟩ | ⟨_, _, _, he⟩ | ⟨_, _, _, _, ⟨_, he⟩ | ⟨_, he⟩⟩ <;> cases he.symm.trans h
    · exact .inl ⟨_, _, _, rfl⟩
    · exact .inl ⟨_, _, _, rfl⟩
    · exact .inr ⟨rfl, rfl⟩
  case unpack =>
    rcases phaseUnpack_cases s with ⟨_, he⟩ | ⟨_, _, ⟨_, he⟩ | ⟨_, _, he⟩⟩ <;> cases he.symm.trans h
    · exact .inl ⟨_, _, _, rfl⟩
    · exact .inr ⟨rfl, rfl⟩
  case invert =>
    rcases phaseInvert_cases s with ⟨_, he⟩ | ⟨_, he⟩ <;> cases he.symm.trans h
    · exact .inl ⟨_, _, _, rfl⟩
    · exact .inr ⟨rfl, rfl⟩
  case scan =>
    rcases phaseScan_cases s with ⟨_, he⟩ | ⟨_, _, ⟨_, he⟩ | ⟨_, he⟩⟩ <;> cases he.symm.trans h
    · exact .inr ⟨rfl, rfl⟩
    · exact .inl ⟨_, _, _, rfl⟩

/-- While a command runs, BUSY = 1, DONE = 0 and there is no error. -/
theorem State.StatusOk.of_running (hs : s.StatusOk) (hp : s.phase ≠ .idle) :
    s.busy = true ∧ s.done = false ∧ s.err = false ∧ s.ecode = none := by
  have hbusy : s.busy = true := eq_true_of_ne_false fun hb => hp (hs.busy_idle.1 hb)
  have hdone := hs.busy_done hbusy
  have herr : s.err = false := eq_false_of_ne_true fun he => by simp [hs.err_done he] at hdone
  exact ⟨hbusy, hdone, herr, hs.ok_ecode herr⟩

/-- A phase keeps the invariants: it raises an error, or goes on or completes with ERR = 0 as before. -/
theorem phaseStep_statusOk (hs : s.StatusOk) (h : phaseStep s = .next t) : t.StatusOk := by
  by_cases hp : s.phase = .idle
  · rw [phaseStep, hp] at h
    cases h
    exact hs
  · obtain ⟨hbusy, hdone, herr, hecode⟩ := hs.of_running hp
    rcases phaseStep_raises h with ⟨c, e, u, rfl⟩ | ⟨he, hec⟩
    · exact raiseError_statusOk c e u
    · rcases phaseStep_ended hp t h with ⟨hidle, hb, _⟩ | ⟨hidle, hb, hd⟩
      · exact .of_ok (he.trans herr) (hec.trans hecode) (by simp [hb]) (by simp [hb, hidle])
      · exact .of_ok (he.trans herr) (hec.trans hecode) (fun _ => hd.trans hdone) (by simp [hb, hbusy, hidle])

/-- Settles O5: a step waits, performs a host statement or runs a phase, and each of these keeps the STATUS invariants. -/
theorem errorMeansNoOutput : Obligations.ErrorMeansNoOutput := by
  refine ⟨resetWith_statusOk _, fun s t hs hstep => ?_⟩
  have ht : t.StatusOk := by
    rcases step_cases hstep with rfl | ⟨st, rest, pl, tk, _, hp⟩ | ⟨pl, tk, hp⟩
    · exact hs
    · exact perform_statusOk ((sameStatus_withHost s rest _ pl tk).statusOk hs) hp
    · exact phaseStep_statusOk ((sameStatus_withHost s _ _ pl tk).statusOk hs) hp
  exact ⟨ht, ht.err_empty⟩

/-- Settles O17: the host's other statements leave the flags; an accepted command writes them, NOP excepted; the reset clears
them. -/
theorem faultStaysUntilNextCommand : Obligations.FaultStaysUntilNextCommand := by
  refine ⟨fun s t st hreset hcmd h => ?_, fun s i hb hi => ?_, fun s hb => acceptCommand_of_notBusy hb s,
    fun s => ⟨applyReset s, rfl, rfl, rfl, rfl⟩⟩
  · rcases perform_sameStatus h with hsame | ⟨v, hst, _⟩ | ⟨hst, _⟩
    · exact ⟨hsame.done, hsame.err, hsame.ecode, hsame.degen, hsame.statusWord_eq⟩
    · exact absurd hst (hcmd v)
    · exact absurd hst hreset
  · obtain ⟨t, he, hc | rfl⟩ := exec_accepted hb hi
    · exact ⟨t, he, .inl ⟨hc.err, hc.ecode, hc.done⟩⟩
    · exact ⟨_, he, .inr ⟨rfl, rfl, rfl⟩⟩

/-- Settles O16: the raise in each running command, and with none. -/
theorem faultEntry : Obligations.FaultEntry := by
  refine fun s e => ⟨fun c hc => ?_, rfl, rfl, rfl⟩
  obtain rfl | rfl := hc <;> rfl

/-! ### The reset input (R260, R262) -/

/-- Settles O24: an idle block gives the step to the host, a running one to the host or to the phase. -/
theorem resetInput : Obligations.ResetInput := by
  intro s rest hs
  refine ⟨rfl, fun hp => ?_, fun hp => ?_⟩
  · rw [step, blockStep, if_pos hp, hostTurn, hs]
    rfl
  · have hturn : step s = eitherTurn s := by rw [step, blockStep, if_neg hp, busyTurn, hs]
    rw [hturn, eitherTurn]
    split
    · left
      rw [hostTurn, hs]
      rfl
    · exact .inr rfl

/-! ### The end of each command (R115) -/

/-- COMPRESS and ENCODE of a readable input end, with EmptyInputError for the empty input alone (R231). -/
theorem encoder_ends {c : Command} (hc : c = .compress ∨ c = .encode) {bytes : List Byte} (hb : s.busy = false)
    (hin : inputBytes s = some bytes) :
    ∃ t, runCommand (startEncoder c s) = .next t ∧ t.phase = .idle ∧ (t.ecode = some .emptyInput ↔ bytes = []) := by
  by_cases hne : bytes = []
  · subst hne
    exact ⟨_, (reaches_emptyInput c hin).runCommand_eq (raiseError_phase _ _ _) (by decide), raiseError_phase _ _ _,
      by simp⟩
  obtain rfl | rfl := hc
  · obtain ⟨f, root, tbl, bits, _, _, _, _, hexec, hok, hfail⟩ := compressRuns s bytes hb hin hne
    obtain rfl := next_of_accepted hb hexec
    obtain ⟨out, hpack⟩ | hpack := packBits_cases bits
    · exact ⟨_, (hok out hpack).2, rfl, iff_of_false nofun hne⟩
    · exact ⟨_, (hfail _ hpack).2.2, rfl, iff_of_false nofun hne⟩
  · obtain ⟨f, root, tbl, bits, _, _, _, _, _, _, hexec, hrun⟩ := encodeRuns s bytes hb hin hne
    obtain rfl := next_of_accepted hb hexec
    exact ⟨_, hrun, rfl, iff_of_false nofun hne⟩

/-- Settles O28: `encoder_ends`, and COUNT and LEAVES on the empty input. -/
theorem emptyInputFails : Obligations.EmptyInputFails := by
  intro s c i hci hb bytes hin
  have hexec : exec i s = .next (startEncoder c s) := by
    obtain ⟨rfl, rfl⟩ | ⟨rfl, rfl⟩ := hci <;> exact acceptCommand_of_notBusy hb _
  have hc : c = .compress ∨ c = .encode := hci.imp And.left And.left
  have hlen : bytes = [] ↔ s.inLen = 0 := by rw [← inputBytes_length hin, List.length_eq_zero_iff]
  obtain ⟨t, hrun, _, herr⟩ := encoder_ends hc hb hin
  refine ⟨_, t, hexec, hrun, herr.trans hlen, fun h0 => ?_⟩
  rw [hlen.2 h0] at hin
  have hend := (reaches_emptyInput c hin).runCommand_eq (raiseError_phase _ _ _) (by decide)
  rw [Host.Outcome.next.inj (hrun.symm.trans hend)]
  obtain rfl | rfl := hc <;> rfl

/-- From INVERT on a decoder with a readable bitstream ends. -/
theorem State.AtInvert.reaches_end {c : Command} {bits : List Bit} (h : u.AtInvert c) (hbits : bitstream u = some bits) :
    ∃ k v, k ≤ 2 ∧ Reaches u k v ∧ v.phase = .idle := by
  have hself : u.Alike u := by constructor <;> rfl
  obtain ⟨k, v, _, hk, hv, _, hidle, _⟩ := hself.reaches_end h h fun _ => ⟨bits, hbits⟩
  exact ⟨k, v, hk, hv, hidle⟩

theorem decode_ends {bits : List Bit} (hbits : bitstream s = some bits) :
    ∃ t, runCommand (startDecode s) = .next t ∧ t.phase = .idle := by
  have hat : (startDecode s).AtInvert .decode := ⟨rfl, rfl, rfl, rfl⟩
  obtain ⟨k, v, hk, hv, hidle⟩ := hat.reaches_end hbits
  exact ⟨v, hv.runCommand_eq hidle (hk.trans (by decide)), hidle⟩

theorem decompress_ends {bytes : List Byte} (hin : inputBytes s = some bytes) :
    ∃ t, runCommand (startDecompress s) = .next t ∧ t.phase = .idle := by
  match bytes with
  | [] | [_] =>
    have hheader := Reaches.phase (s := startDecompress s) (phaseHeader_short (s := startDecompress s) hin (by simp))
    exact ⟨_, hheader.runCommand_eq rfl (by decide), rfl⟩
  | b0 :: b1 :: payload =>
    cases hunp : unpackBits (b0 :: b1 :: payload) with
    | error e => exact ⟨_, runCommand_rejected hin hunp, rfl⟩
    | ok bits =>
      have hat : (unpackedBits s b0 b1 bits).AtInvert .decompress := ⟨rfl, rfl, rfl, rfl⟩
      obtain ⟨k, v, hk, hv, hidle⟩ := hat.reaches_end (bitstream_unpackedBits s b0 b1 bits)
      have hmax : k + 2 ≤ maxPhases := (Nat.add_le_add_right hk 2).trans (by decide)
      exact ⟨v, ((reaches_unpacked hin hunp).trans hv).runCommand_eq hidle hmax, hidle⟩

/-! ### A command the host starts and polls (R276, R92) -/

/-- The four commands that run through phases start and end, when what they read is written. -/
theorem command_ends {i : Instr} (hi : i = .compress ∨ i = .encode ∨ i = .decompress ∨ i = .decode)
    (hb : s.busy = false) (hin : i ≠ .decode → (inputBytes s).isSome = true)
    (hbits : i = .decode → (bitstream s).isSome = true) :
    ∃ s0 u, exec i s = .next s0 ∧ s0.phase ≠ .idle ∧ s0.busy = true ∧ s0.done = false ∧
      runCommand s0 = .next u ∧ u.phase = .idle := by
  obtain rfl | rfl | rfl | rfl := hi
  · obtain ⟨_, hread⟩ := Option.isSome_iff_exists.1 (hin nofun)
    obtain ⟨u, hrun, hidle, _⟩ := encoder_ends (c := .compress) (.inl rfl) hb hread
    exact ⟨_, u, acceptCommand_of_notBusy hb _, nofun, rfl, rfl, hrun, hidle⟩
  · obtain ⟨_, hread⟩ := Option.isSome_iff_exists.1 (hin nofun)
    obtain ⟨u, hrun, hidle, _⟩ := encoder_ends (c := .encode) (.inr rfl) hb hread
    exact ⟨_, u, acceptCommand_of_notBusy hb _, nofun, rfl, rfl, hrun, hidle⟩
  · obtain ⟨_, hread⟩ := Option.isSome_iff_exists.1 (hin nofun)
    obtain ⟨u, hrun, hidle⟩ := decompress_ends hread
    exact ⟨_, u, acceptCommand_of_notBusy hb _, nofun, rfl, rfl, hrun, hidle⟩
  · obtain ⟨_, hread⟩ := Option.isSome_iff_exists.1 (hbits rfl)
    obtain ⟨u, hrun, hidle⟩ := decode_ends hread
    exact ⟨_, u, acceptCommand_of_notBusy hb _, nofun, rfl, rfl, hrun, hidle⟩

theorem acceptCommand_withHost (s next : State) (sc : List Statement) (rd : List PortWord) (pl : Option Nat) (tk : Nat) :
    acceptCommand (s.withHost sc rd pl tk) (next.withHost sc rd pl tk) =
      Result.withHost (acceptCommand s next) sc rd pl tk := by
  have hbusy : (s.withHost sc rd pl tk).busy = s.busy := rfl
  rw [acceptCommand, acceptCommand, hbusy]
  split <;> rfl

/-- No command reads or writes the host's side of the state. -/
theorem exec_withHost (i : Instr) (s : State) (sc : List Statement) (rd : List PortWord) (pl : Option Nat) (tk : Nat) :
    exec i (s.withHost sc rd pl tk) = Result.withHost (exec i s) sc rd pl tk := by
  cases i
  case nop => exact acceptCommand_withHost s s sc rd pl tk
  case compress => exact acceptCommand_withHost s (startEncoder .compress s) sc rd pl tk
  case decompress => exact acceptCommand_withHost s (startDecompress s) sc rd pl tk
  case encode => exact acceptCommand_withHost s (startEncoder .encode s) sc rd pl tk
  case decode => exact acceptCommand_withHost s (startDecode s) sc rd pl tk
  case clear => exact acceptCommand_withHost s (clearState s) sc rd pl tk
  all_goals exact acceptCommand_withHost s (raiseIllegalCommand s) sc rd pl tk

/-- The write of RUN gives CMD the command's own word (R92, R93). -/
theorem step_scriptCmd {i : Instr} (hi : i.wf = true) {rest : List Statement} (hp : s.phase = .idle)
    (hs : s.script = scriptCmd i :: rest) : step s = exec i { s with script := rest } := by
  rw [step_cmd hp hs, commandWord, setWidth_byte_port, decode_encode hi]

/-- The last read of POLL: DONE = 1 ends it. -/
theorem step_poll_done (hp : s.phase = .idle) (hb : s.busy = false) (hd : s.done = true) (rest : List Statement)
    (rd : List PortWord) (pl : Option Nat) (tk : Nat) :
    step (s.withHost (.poll :: rest) rd pl tk) =
      .next (s.withHost rest (rd ++ [(statusWord s).setWidth 264]) pl tk) := by
  have hidle : (s.withHost (.poll :: rest) rd pl tk).phase = .idle := hp
  have hread : hostRead (s.withHost rest rd pl tk) .reg 1 = .value ((statusWord s).setWidth 264) := hostRead_reg hb rfl
  have hdone : (s.withHost rest rd pl tk).done = true := hd
  rw [step, blockStep, if_pos hidle]
  change performPoll (s.withHost rest rd pl tk) = _
  rw [performPoll, performRead, hread, hdone]
  rfl

/-- Settles O56: the write to CMD starts the command, `run_polling` brings the machine to the end `command_ends` gives, and
one more read of STATUS ends the POLL. -/
theorem runReachesCompletion : Obligations.RunReachesCompletion := by
  intro s i rest hi hb hp hs hin hbits
  have hwf : i.wf = true := by obtain rfl | rfl | rfl | rfl := hi <;> rfl
  obtain ⟨s0, u, hexec, hp0, hb0, hd0, hrun, hidle⟩ := command_ends (s := { s with script := rest }) hi hb hin hbits
  have hstart : step s = .next (s0.withHost (.poll :: rest) s.reads s.pollsLeft s.tick) := by
    rw [step_scriptCmd hwf hp hs]
    exact (exec_withHost i { s with script := rest } _ _ _ _).trans (by rw [hexec]; rfl)
  obtain ⟨m, polled, tk, hm, hpolled, hbu, hdu, hpoll⟩ :=
    run_polling maxPhases hp0 hb0 hd0 hrun hidle rest s.reads s.pollsLeft s.tick
  have hlast := step_poll_done hidle hbu hdu rest (s.reads ++ polled) none tk
  refine ⟨m + 1 + 1, s0, u, u.withHost rest (s.reads ++ polled ++ [(statusWord u).setWidth 264]) none tk, polled, ?_,
    hexec, hrun, ?_, rfl, rfl, rfl, hpolled, (statusWord_done u).trans hdu, hbu, hdu, hidle⟩
  · rw [maxPhases] at hm
    omega
  · rw [core_run_succ hstart, core_run_add hpoll, core_run_succ hlast 0]
    rfl

end Sys2Proof.Machine
end
